-- ==== Sys2Proof/Word.lean ====
section
/-! DEFINITION. The word types of the modem block (00_scope.md R8, R9, R21) and the names of its four buffers (10_state.md R52 to R55). -/

namespace Sys2Proof

/-- A 32-bit register, bus word or command word (R8). -/
abbrev Word := BitVec 32

/-- A byte lane of a bus word (R88). -/
abbrev Byte := BitVec 8

/-- A binary64 value, held as its 64-bit encoding (R9). -/
abbrev F64 := BitVec 64

/-- A complex symbol (re, im) (R9). -/
abbrev Symbol := F64 × F64

/-- The two bit buffers (R52, R53). -/
inductive BitBuf where
  | txb
  | rxb
deriving DecidableEq, Repr

/-- The two symbol buffers (R54, R55). -/
inductive SymBuf where
  | txs
  | rxs
deriving DecidableEq, Repr

end Sys2Proof
end

