-- ==== Sys2Proof/Syntax.lean ====
section
/-! DEFINITION. The 14 commands of the MQB command set (30_encoding.md R115), one constructor for each row of spec/opcode_table.json. A constructor carries every bit of the word beside the opcode, the reserved ones too, so that no bit of an encoding is lost: a word with reserved bits set is a command the block rejects with RESERVED (R117), not another command. -/

namespace Sys2Proof

inductive Instr where
  /-- NOP, format N (R260). -/
  | nop (rsvd : BitVec 24)
  /-- SEED, format N (R150). -/
  | seed (rsvd : BitVec 24)
  /-- GENBITS count, format C (R151). -/
  | genbits (count : BitVec 24)
  /-- GEN_NOISE count, format C (R152). -/
  | genNoise (count : BitVec 24)
  /-- MOD_BPSK, format N (R170). -/
  | modBpsk (rsvd : BitVec 24)
  /-- MOD_QPSK, format N (R172). -/
  | modQpsk (rsvd : BitVec 24)
  /-- DEMOD_BPSK, format N (R174). -/
  | demodBpsk (rsvd : BitVec 24)
  /-- DEMOD_QPSK, format N (R176). -/
  | demodQpsk (rsvd : BitVec 24)
  /-- CONV_EBNO order, format O (R203). -/
  | convEbno (rsvd : BitVec 22) (ord : BitVec 2)
  /-- ADD_NOISE, format N (R201). -/
  | addNoise (rsvd : BitVec 24)
  /-- BYPASS, format N (R202). -/
  | bypass (rsvd : BitVec 24)
  /-- COUNT_ERR, format N (R230). -/
  | countErr (rsvd : BitVec 24)
  /-- BER_CALC, format N (R231). -/
  | berCalc (rsvd : BitVec 24)
  /-- CLR_ACC, format N (R232). -/
  | clrAcc (rsvd : BitVec 24)
deriving DecidableEq, Repr

end Sys2Proof
end

