-- ==== Sys2Proof/Decode.lean ====
section
/-! DEFINITION. Decoding and encoding of command words (30_encoding.md R110 to R117). The decoder selects the row by bits 7:0 alone (R110, R115) and keeps every other bit in the instruction; the format's reserved bits and ORD are checked after it, by Instr.wf (R117, 60_exceptions.md R302). -/

namespace Sys2Proof

/-- Why a byte string is no command. -/
inductive DecodeError where
  /-- Bits 7:0 are no opcode of R115: the error ILLEGAL of R116. -/
  | illegalOpcode (opc : Byte)
  /-- A command is one 32-bit word (R110); this many bytes are not. -/
  | notOneWord (length : Nat)
deriving DecidableEq, Repr

/-- OPC = w[7:0] (R114). -/
def opcodeField (w : Word) : Byte := w.extractLsb' 0 8

/-- w[31:8]: RSVD in format N, COUNT in format C (R111, R112). -/
def upperField (w : Word) : BitVec 24 := w.extractLsb' 8 24

/-- w[9:8]: ORD in format O (R113). -/
def orderField (w : Word) : BitVec 2 := w.extractLsb' 8 2

/-- w[31:10]: RSVD in format O (R113). -/
def orderRsvdField (w : Word) : BitVec 22 := w.extractLsb' 10 22

/-- The opcode map (R115). -/
def decode (w : Word) : Except DecodeError Instr :=
  match (opcodeField w).toNat with
  | 0x00 => .ok (.nop (upperField w))
  | 0x01 => .ok (.seed (upperField w))
  | 0x02 => .ok (.genbits (upperField w))
  | 0x03 => .ok (.genNoise (upperField w))
  | 0x10 => .ok (.modBpsk (upperField w))
  | 0x11 => .ok (.modQpsk (upperField w))
  | 0x18 => .ok (.demodBpsk (upperField w))
  | 0x19 => .ok (.demodQpsk (upperField w))
  | 0x20 => .ok (.convEbno (orderRsvdField w) (orderField w))
  | 0x21 => .ok (.addNoise (upperField w))
  | 0x22 => .ok (.bypass (upperField w))
  | 0x30 => .ok (.countErr (upperField w))
  | 0x31 => .ok (.berCalc (upperField w))
  | 0x32 => .ok (.clrAcc (upperField w))
  | _ => .error (.illegalOpcode (opcodeField w))

/-- The word whose four byte lanes are given, least significant first (R88). -/
def wordOfBytes (b0 b1 b2 b3 : Byte) : Word := b3 ++ b2 ++ b1 ++ b0

/-- Decoding of any byte string: exactly the four bytes of one word (R110). -/
def decodeBytes : List Byte → Except DecodeError Instr
  | [b0, b1, b2, b3] => decode (wordOfBytes b0 b1 b2 b3)
  | bs => .error (.notOneWord bs.length)

/-- The four byte lanes of a word, least significant first (R88). -/
def bytesOfWord (w : Word) : List Byte :=
  [w.extractLsb' 0 8, w.extractLsb' 8 8, w.extractLsb' 16 8, w.extractLsb' 24 8]

/-- The bits a row of spec/opcode_table.json numbers, as a word: those above `nbits` are 0. -/
def tableWord (nbits w : Nat) : Word := BitVec.ofNat 32 (w % 2 ^ nbits)

/-- What the decoder reads from a word numbered as spec/opcode_table.json numbers it. -/
def decodeTableWord (nbits w : Nat) : Option Instr :=
  (decodeBytes (bytesOfWord (tableWord nbits w))).toOption

/-! Encoding. -/

/-- OPC of each command (R115). -/
def Instr.opcode : Instr → Byte
  | .nop _ => 0x00#8
  | .seed _ => 0x01#8
  | .genbits _ => 0x02#8
  | .genNoise _ => 0x03#8
  | .modBpsk _ => 0x10#8
  | .modQpsk _ => 0x11#8
  | .demodBpsk _ => 0x18#8
  | .demodQpsk _ => 0x19#8
  | .convEbno _ _ => 0x20#8
  | .addNoise _ => 0x21#8
  | .bypass _ => 0x22#8
  | .countErr _ => 0x30#8
  | .berCalc _ => 0x31#8
  | .clrAcc _ => 0x32#8

/-- Bits 31:8 of each command, by its format (R111 to R113). -/
def Instr.upper : Instr → BitVec 24
  | .nop rsvd => rsvd
  | .seed rsvd => rsvd
  | .genbits count => count
  | .genNoise count => count
  | .modBpsk rsvd => rsvd
  | .modQpsk rsvd => rsvd
  | .demodBpsk rsvd => rsvd
  | .demodQpsk rsvd => rsvd
  | .convEbno rsvd ord => rsvd ++ ord
  | .addNoise rsvd => rsvd
  | .bypass rsvd => rsvd
  | .countErr rsvd => rsvd
  | .berCalc rsvd => rsvd
  | .clrAcc rsvd => rsvd

/-- The command word (R110). -/
def encode (i : Instr) : Word := i.upper ++ i.opcode

end Sys2Proof
end

