-- ==== Sys2Proof/Machine/Float.lean ====
section
/-! DEFINITION. IEEE 754 binary64 on encodings (00_scope.md R9 to R15): round to nearest, ties to even, one rounding an operation, subnormals kept. Operands are taken apart into integers, the exact result is computed on integers, and one function rounds it. An operation that produces a NaN answers its argument `nan`, the quiet NaN the caller draws (R11; log 7). The special cases (infinities, zeros, signs) are those of IEEE 754 (log 16). -/

namespace Sys2Proof.Machine

/-- Sign bit. -/
def fSign (x : F64) : Bool := Nat.ble (2 ^ 63) x.toNat

/-- Biased exponent field, bits 62:52. -/
def fExp (x : F64) : Nat := x.toNat / 2 ^ 52 % 2048

/-- Fraction field, bits 51:0. -/
def fFrac (x : F64) : Nat := x.toNat % 2 ^ 52

/-- Bits 62:0. Among values that are no NaN the magnitudes are ordered as these numbers are. -/
def fMag (x : F64) : Nat := x.toNat % 2 ^ 63

def fIsNan (x : F64) : Bool := fExp x == 2047 && fFrac x != 0
def fIsInf (x : F64) : Bool := fExp x == 2047 && fFrac x == 0
def fIsZero (x : F64) : Bool := fMag x == 0

/-- Neither a NaN nor an infinity. -/
def fIsFinite (x : F64) : Bool := fExp x != 2047

/-- A NaN with the quiet bit, bit 51, set. -/
def fIsQuietNan (x : F64) : Bool := fExp x == 2047 && Nat.ble (2 ^ 51) (fFrac x)

/-- Integer significand of a finite value: |x| = fSig x * 2 ^ fLsb x. -/
def fSig (x : F64) : Nat := if fExp x == 0 then fFrac x else 2 ^ 52 + fFrac x

/-- Exponent of the least significant bit of fSig. -/
def fLsb (x : F64) : Int := ((Nat.max (fExp x) 1 : Nat) : Int) - 1075

/-- The encoding with the given sign bit and bits 62:0. -/
def fPack (s : Bool) (mag : Nat) : F64 := BitVec.ofNat 64 ((if s then 2 ^ 63 else 0) + mag)

/-- Bits 62:0 of an infinity. -/
def fInfMag : Nat := 0x7FF0000000000000

def fInf (s : Bool) : F64 := fPack s fInfMag
def fZero (s : Bool) : F64 := fPack s 0

/-- m / 2 ^ d rounded to the nearest integer, ties to even (R10). -/
def divPow2Even (m d : Nat) : Nat :=
  let q := m / 2 ^ d
  let r := 2 * (m % 2 ^ d)
  if Nat.blt (2 ^ d) r || (r == 2 ^ d && q % 2 == 1) then q + 1 else q

/-- The binary64 value nearest to (-1)^s * m * 2^e, ties to even; an overflow gives an infinity (R10). The unit in the last place of the result is 2^t. -/
def fRound (s : Bool) (m : Nat) (e : Int) : F64 :=
  if m == 0 then fZero s
  else
    let t : Int := max (e + (Nat.log2 m : Nat) - 52) (-1074)
    let n : Nat := if t ≤ e then m * 2 ^ (e - t).toNat else divPow2Even m (t - e).toNat
    fPack s (min ((t + 1074).toNat * 2 ^ 52 + n) fInfMag)

/-- neg(x): the sign bit flipped (R13). -/
def fNeg (x : F64) : F64 := x ^^^ 0x8000000000000000#64

/-- The finite value x as an integer multiple of 2^e, for e at most fLsb x. -/
def fScaled (x : F64) (e : Int) : Int :=
  let m : Int := (fSig x * 2 ^ (fLsb x - e).toNat : Nat)
  if fSign x then -m else m

/-- fl(a + b) (R10). -/
def fAdd (nan a b : F64) : F64 :=
  if fIsNan a || fIsNan b then nan
  else if fIsInf a then (if fIsInf b && fSign a != fSign b then nan else a)
  else if fIsInf b then b
  else
    let e := min (fLsb a) (fLsb b)
    let v := fScaled a e + fScaled b e
    if v == 0 then fZero (fSign a && fSign b) else fRound (decide (v < 0)) v.natAbs e

/-- fl(a * b) (R10). -/
def fMul (nan a b : F64) : F64 :=
  let s := fSign a != fSign b
  if fIsNan a || fIsNan b then nan
  else if fIsInf a then (if fIsZero b then nan else fInf s)
  else if fIsInf b then (if fIsZero a then nan else fInf s)
  else fRound s (fSig a * fSig b) (fLsb a + fLsb b)

/-- fl(a / b) (R10). The quotient is taken to at least 67 bits; its last bit records a remainder. -/
def fDiv (nan a b : F64) : F64 :=
  let s := fSign a != fSign b
  if fIsNan a || fIsNan b then nan
  else if fIsInf a then (if fIsInf b then nan else fInf s)
  else if fIsInf b then fZero s
  else if fIsZero b then (if fIsZero a then nan else fInf s)
  else
    let n := fSig a * 2 ^ 120
    let q := n / fSig b
    let sticky := if n % fSig b == 0 then 0 else 1
    fRound s (2 * q + sticky) (fLsb a - fLsb b - 121)

/-- Bits k-1 down to 0 of the integer square root of n, r holding the bits above. -/
def isqrtBits (n : Nat) : Nat → Nat → Nat
  | 0, r => r
  | k + 1, r => isqrtBits n k (if Nat.ble ((r + 2 ^ k) * (r + 2 ^ k)) n then r + 2 ^ k else r)

/-- The integer square root of n < 2^192. -/
def isqrt (n : Nat) : Nat := isqrtBits n 96 0

/-- sqrt(x) (R14). The root is taken to at least 60 bits; its last bit records a remainder. -/
def fSqrt (nan x : F64) : F64 :=
  if fIsNan x then nan
  else if fIsZero x then x
  else if fSign x then nan
  else if fIsInf x then x
  else
    let odd := fLsb x % 2 == 1
    let n := (if odd then 2 * fSig x else fSig x) * 2 ^ 120
    let e := (if odd then fLsb x - 1 else fLsb x) / 2
    let r := isqrt n
    let sticky := if r * r == n then 0 else 1
    fRound false (2 * r + sticky) (e - 61)

/-- cvt(n) (R15). -/
def fCvt (n : BitVec 64) : F64 := fRound false n.toNat 0

/-- a >= 0 (R12): true of both zeros, false of every NaN. -/
def fGe0 (x : F64) : Bool := !fIsNan x && (!fSign x || fIsZero x)

/-- a > 0 (R12). -/
def fGt0 (x : F64) : Bool := !fIsNan x && !fSign x && !fIsZero x

/-- The quiet NaN with sign c[51] and payload c[50:0]. -/
def quietNan (c : BitVec 52) : F64 := c.extractLsb' 51 1 ++ 0xFFF#12 ++ c.extractLsb' 0 51

/-! The named constants of R20. -/

def cONE : F64 := 0x3FF0000000000000#64
def cSQRT2 : F64 := 0x3FF6A09E667F3BCD#64
def cQA : F64 := 0x3FE6A09E667F3BCC#64
def cTWO_PI : F64 := 0x401921FB54442D18#64
def cK1 : F64 := 0x0000000000000000#64
def cK2 : F64 := 0x4008151824C7587F#64
def cTWENTY : F64 := 0x4034000000000000#64
def cMTWO : F64 := 0xC000000000000000#64

/-- 2^-53 (40_random.md R143; its encoding stands in 95_test_vectors.md section 2.3). -/
def cTWO_M53 : F64 := 0x3CA0000000000000#64

end Sys2Proof.Machine
end

