-- ==== Sys2Proof/Config.lean ====
section
/-! DEFINITION. What one build of the block fixes (00_scope.md R8) and the free values the spec leaves open (93_implementation_defined.md section 2). A free value is an opaque constant: nothing evaluates it and no proof sees a value of it. -/

namespace Sys2Proof

/-- The parameters NB_MAX, NS_MAX and BASE of R8, fixed for a run. -/
structure Params where
  /-- NB_MAX: capacity of each bit buffer, in bits. -/
  nbMax : Nat
  /-- NS_MAX: capacity of each symbol buffer, in symbols. -/
  nsMax : Nat
  /-- BASE: byte address of the block in the host's address space. -/
  base : Nat
deriving DecidableEq, Repr

/-- The constraints R8 puts on the parameters. -/
def Params.legal (p : Params) : Bool :=
  p.nbMax % 32 == 0 && Nat.ble 32 p.nbMax && Nat.ble p.nbMax 262144
    && Nat.ble 1 p.nsMax && Nat.ble p.nsMax 65536 && p.base % 4194304 == 0

/-- The values of R8's column "this spec". BASE is left to the platform; 0 is the model's choice (log 3). -/
def Params.standard : Params := ⟨131072, 65536, 0⟩

namespace Config

/-! Draws. The first argument is the number of the draw (State.draws counts them). -/

/-- rng_state after a hardware reset, or left by an aborted command (R56, R343; log 4, 10). -/
opaque freeRng (draw : Nat) : BitVec 64

/-- A bit-buffer element that a hardware reset or an aborted command leaves unspecified (R52, R53, R343; log 4, 10). -/
opaque freeBit (draw : Nat) (b : BitBuf) (i : Nat) : Bool

/-- Word j of a symbol buffer's storage that a hardware reset or an aborted command leaves unspecified (R54, R55, R343; log 4, 10). -/
opaque freeSymWord (draw : Nat) (b : SymBuf) (j : Nat) : Word

/-- The bits a host read of a running command's write set returns (R267; log 9). -/
opaque freeRead (draw : Nat) : Word

/-- Sign (bit 51) and payload (bits 50 to 0) of the quiet NaN that operation `op` of element `k` produces in the completion of that number (R11; log 7). -/
opaque freeNan (draw k op : Nat) : BitVec 52

/-! The numerics parameters, unconstrained; Machine/Numerics.lean holds them to R16 to R19 (log 8). -/

/-- What the implementation's cosine answers (R16). -/
opaque cosRaw : F64 → F64

/-- What the implementation's sine answers (R17). -/
opaque sinRaw : F64 → F64

/-- What the implementation's natural logarithm answers (R18). -/
opaque lnRaw : F64 → F64

/-- What the implementation's power of ten answers (R19). -/
opaque pow10Raw : F64 → F64

end Config
end Sys2Proof
end

