-- ==== Sys2Proof/Machine/State.lean ====
section
/-! DEFINITION. The state of the modem block (10_state.md R30), the events of its two agents and its reset input (00_scope.md R6, 70_reset_and_hazards.md R340), and the state right after reset. All of it is plain data. -/

namespace Sys2Proof.Machine

/-- Error codes (60_exceptions.md R301). -/
inductive ErrCode where
  | none
  | illegal
  | reserved
  | busy
  | range
  | oddLength
  | lenMismatch
deriving DecidableEq, Repr

/-- STATUS, offset 0x018 (10_state.md R36). Its reserved bits read 0 and take no write, so the fields are all it holds; Machine/Flags.lean packs them into the word the host reads. -/
structure Status where
  busy : Bool
  done : Bool
  err : Bool
  errOvf : Bool
  numerr : Bool
  accOvf : Bool
  wbusy : Bool
  errcode : BitVec 4
  errcmd : Byte
deriving DecidableEq, Repr

/-- STATUS = 0 (R36). -/
def Status.zero : Status := ⟨false, false, false, false, false, false, false, 0#4, 0#8⟩

/-- A buffer's written elements, by index, indexes strictly rising. An index that is not listed has not been written since the last hardware reset (log 4, 5). -/
abbrev Cells (α : Type) := List (Nat × α)

/-- Indexes strictly rising, all at least `lo` and below `cap`. -/
def Cells.wfFrom {α : Type} (cap : Nat) : Nat → Cells α → Bool
  | _, [] => true
  | lo, (i, _) :: rest => Nat.ble lo i && Nat.blt i cap && Cells.wfFrom cap (i + 1) rest

/-- The canonical form of a buffer of `cap` elements: equal contents are equal lists. -/
def Cells.wf {α : Type} (cap : Nat) (c : Cells α) : Bool := Cells.wfFrom cap 0 c

/-- The four buffers (R52 to R55). A symbol buffer is kept by the 32-bit words of its host window, four a symbol: re low, re high, im low, im high (20_memory.md R86, R87). -/
structure Memory where
  txb : Cells Bool
  rxb : Cells Bool
  txs : Cells Word
  rxs : Cells Word
deriving DecidableEq, Repr

/-- Every buffer in canonical form and inside its capacity (R52 to R55). -/
def Memory.wf (p : Params) (m : Memory) : Bool :=
  Cells.wf p.nbMax m.txb && Cells.wf p.nbMax m.rxb
    && Cells.wf (4 * p.nsMax) m.txs && Cells.wf (4 * p.nsMax) m.rxs

/-- A host bus transaction: size in bytes and host byte address, BASE + offset (20_memory.md R81, R82). -/
inductive Transaction where
  /-- MemRead. -/
  | read (size addr : Nat)
  /-- An instruction-fetch-type transaction, where the bus has them (R82). -/
  | fetch (size addr : Nat)
  /-- MemWrite of a word. -/
  | write (size addr : Nat) (v : Word)
deriving DecidableEq, Repr

/-- One step of one of the agents, or of the reset input (log 1, 14). -/
inductive Event where
  /-- The host performs a transaction. -/
  | bus (t : Transaction)
  /-- The engine takes its turn: the completion of the running command, if there is one (44_control.md R264). -/
  | engine
  /-- The reset input is asserted (70_reset_and_hazards.md R340). -/
  | assertReset
  /-- The reset input is released (R340). -/
  | releaseReset
deriving DecidableEq, Repr

/-- The block's answer to a transaction (20_memory.md R81, R82): OKAY or ERROR, and the data of a read; the data is 0 for a write (log 15). -/
structure Response where
  okay : Bool
  data : Word
deriving DecidableEq, Repr

/-- Everything the spec gives the block (R30), and the model's own fields `cfg`, `inputs`, `resp`, `draws` and `epoch`. -/
structure State where
  /-- The parameters of 00_scope.md R8; no step changes them (log 3). -/
  cfg : Params
  /-- STATUS (R36); BUSY of R31 is its bit 0. -/
  status : Status
  /-- IRQ_EN[2:0]: NUM_IE, ERR_IE, DONE_IE (R37). -/
  irqEn : BitVec 3
  /-- TXB_LEN (R38). -/
  txbLen : Word
  /-- TXS_LEN (R38). -/
  txsLen : Word
  /-- RXS_LEN (R38). -/
  rxsLen : Word
  /-- RXB_LEN (R38). -/
  rxbLen : Word
  /-- PHASE_HI:PHASE_LO (R39, R49). -/
  phase : F64
  /-- SNR_HI:SNR_LO (R40, R49). -/
  snr : F64
  /-- EBNO_HI:EBNO_LO (R41, R49). -/
  ebno : F64
  /-- SEED_HI:SEED_LO (R42, R49). -/
  seed : BitVec 64
  /-- rng_state, read as RNG_HI:RNG_LO (R43, R56). -/
  rng : BitVec 64
  /-- ERRCNT (R44). -/
  errcnt : BitVec 64
  /-- BITCNT (R45). -/
  bitcnt : BitVec 64
  /-- LASTCNT (R46). -/
  lastcnt : Word
  /-- BER (R47). -/
  ber : F64
  /-- NSCALE (R48). -/
  nscale : F64
  /-- TXB, RXB, TXS, RXS (R52 to R55). -/
  mem : Memory
  /-- CUR, the command word being executed, meaningful only while BUSY = 1 (R31; log 6). -/
  cur : Word
  /-- The reset input is asserted (70_reset_and_hazards.md R340; log 14). -/
  inReset : Bool
  /-- The events still to come; the next step takes the first (log 1). -/
  inputs : List Event
  /-- The answer to the last transaction, none where it got none (log 1, 11). -/
  resp : Option Response
  /-- The number of the next draw (log 4). -/
  draws : Nat
  /-- The number of the draw that gave the contents of the buffer elements not written since the last hardware reset (log 4). -/
  epoch : Nat
deriving DecidableEq, Repr

/-- The block right after the release of its reset input (70_reset_and_hazards.md R340, 10_state.md R51), draw number `d` giving rng_state and the buffer contents. -/
def State.powerUp (p : Params) (d : Nat) : State where
  cfg := p
  status := Status.zero
  irqEn := 0#3
  txbLen := 0#32
  txsLen := 0#32
  rxsLen := 0#32
  rxbLen := 0#32
  phase := 0#64
  snr := 0#64
  ebno := 0#64
  seed := 0#64
  rng := Config.freeRng d
  errcnt := 0#64
  bitcnt := 0#64
  lastcnt := 0#32
  ber := 0#64
  nscale := 0#64
  mem := ⟨[], [], [], []⟩
  cur := 0#32
  inReset := false
  inputs := []
  resp := .none
  draws := d + 1
  epoch := d

/-- The block right after reset, with the parameter values of R8. -/
def State.reset : State := State.powerUp Params.standard 0

/-- Why the machine stops. No command and no transaction of the spec stops it. -/
inductive Fault where
  /-- Raised by step when the engine takes its turn with BUSY = 1 and an unassigned opcode in CUR. Only an accepted word is latched in CUR (44_control.md R261), so no run reaches such a state and no rule describes it. Safe: the model stops (log 13). -/
  | unacceptedCommand (cur : Word)
deriving DecidableEq, Repr

/-- Why an instruction is turned away. -/
inductive Refusal where
  /-- Raised by exec for an instruction that has no meaning in the model yet; no arm raises it. Safe. -/
  | notModelled (mnemonic : String)
deriving DecidableEq, Repr

end Sys2Proof.Machine
end

