-- ==== Sys2Proof/Machine/Flags.lean ====
section
/-! DEFINITION. STATUS as a word, its write-1-to-clear bits, the numeric and accumulator flags, and the interrupt line (10_state.md R36, R57, 60_exceptions.md R301, R310 to R316). -/

namespace Sys2Proof.Machine

/-- STATUS.ERRCODE of each error (R301). -/
def ErrCode.code : ErrCode → BitVec 4
  | .none => 0#4
  | .illegal => 1#4
  | .reserved => 2#4
  | .busy => 3#4
  | .range => 4#4
  | .oddLength => 5#4
  | .lenMismatch => 6#4

/-- STATUS as the host reads it (R36): ERRCMD in 23:16, ERRCODE in 11:8, the flags in 6:0, reserved bits 0. -/
def Status.word (st : Status) : Word :=
  0#8 ++ st.errcmd ++ 0#4 ++ st.errcode ++ 0#1 ++ BitVec.ofBool st.wbusy ++ BitVec.ofBool st.accOvf
    ++ BitVec.ofBool st.numerr ++ BitVec.ofBool st.errOvf ++ BitVec.ofBool st.err
    ++ BitVec.ofBool st.done ++ BitVec.ofBool st.busy

/-- A host write of v to STATUS (R36): each W1C bit written as 1 is cleared, and clearing ERR clears ERRCODE and ERRCMD. -/
def Status.clear (st : Status) (v : Word) : Status :=
  { st with
    done := st.done && !v.getLsbD 1
    err := st.err && !v.getLsbD 2
    errOvf := st.errOvf && !v.getLsbD 3
    numerr := st.numerr && !v.getLsbD 4
    accOvf := st.accOvf && !v.getLsbD 5
    wbusy := st.wbusy && !v.getLsbD 6
    errcode := if v.getLsbD 2 then 0#4 else st.errcode
    errcmd := if v.getLsbD 2 then 0#8 else st.errcmd }

/-- reject(code, w) on STATUS (R305): the first error is described, a further one sets ERR_OVF only. -/
def Status.reject (st : Status) (code : ErrCode) (w : Word) : Status :=
  if st.err then { st with errOvf := true }
  else { st with err := true, errcode := code.code, errcmd := w.extractLsb' 0 8 }

/-- numerr(v) asks for NUMERR: v is a NaN or an infinity (R310, 00_scope.md R22). -/
def nonFinite (v : F64) : Bool := !fIsFinite v

/-- A component of the symbol is a NaN or an infinity (R310). -/
def symNonFinite (z : Symbol) : Bool := nonFinite z.1 || nonFinite z.2

/-- A component of the symbol is a NaN (41_moddemod.md R176). -/
def symNan (z : Symbol) : Bool := fIsNan z.1 || fIsNan z.2

/-- STATUS.NUMERR set when `b`; sticky (R57, R310). -/
def State.flagNumerr (s : State) (b : Bool) : State :=
  { s with status := { s.status with numerr := s.status.numerr || b } }

/-- STATUS.ACC_OVF set when `b`; sticky (R57, R312). -/
def State.flagAccOvf (s : State) (b : Bool) : State :=
  { s with status := { s.status with accOvf := s.status.accOvf || b } }

/-- STATUS.WBUSY set (R313). -/
def State.flagWbusy (s : State) : State := { s with status := { s.status with wbusy := true } }

/-- IRQ_EN.DONE_IE (R37). -/
def State.doneIe (s : State) : Bool := s.irqEn.getLsbD 0

/-- IRQ_EN.ERR_IE (R37). -/
def State.errIe (s : State) : Bool := s.irqEn.getLsbD 1

/-- IRQ_EN.NUM_IE (R37). -/
def State.numIe (s : State) : Bool := s.irqEn.getLsbD 2

/-- The interrupt output (R315). -/
def State.irq (s : State) : Bool :=
  (s.status.done && s.doneIe)
    || ((s.status.err || s.status.errOvf || s.status.accOvf || s.status.wbusy) && s.errIe)
    || (s.status.numerr && s.numIe)

end Sys2Proof.Machine
end

