-- ==== Sys2Proof/Machine/Ops.lean ====
section
/-! DEFINITION. The named operations over buffers and registers, and the block's one exception: the rejection of a command and its acknowledgement (60_exceptions.md R304 to R307). -/

namespace Sys2Proof.Machine

/-! Buffers. -/

/-- The written element of index i, if there is one. -/
def Cells.get {α : Type} : Cells α → Nat → Option α
  | [], _ => .none
  | (k, v) :: rest, i => if k == i then .some v else Cells.get rest i

/-- The elements of a list, numbered from `lo`. -/
def Cells.number {α : Type} : Nat → List α → Cells α
  | _, [] => []
  | lo, v :: vs => (lo, v) :: Cells.number (lo + 1) vs

/-- The elements from index `lo` on replaced by those of the list, the others kept. -/
def Cells.splice {α : Type} (c : Cells α) (lo : Nat) (vs : List α) : Cells α :=
  c.filter (fun e => Nat.blt e.1 lo) ++ Cells.number lo vs
    ++ c.filter (fun e => Nat.ble (lo + vs.length) e.1)

/-- A bit buffer's written elements. -/
def Memory.bits (m : Memory) : BitBuf → Cells Bool
  | .txb => m.txb
  | .rxb => m.rxb

/-- A symbol buffer's written words. -/
def Memory.words (m : Memory) : SymBuf → Cells Word
  | .txs => m.txs
  | .rxs => m.rxs

/-- TXB[i] or RXB[i] (10_state.md R52, R53). An element not written since the last hardware reset is that reset's draw (log 4). -/
def State.bit (s : State) (b : BitBuf) (i : Nat) : Bool :=
  ((s.mem.bits b).get i).getD (Config.freeBit s.epoch b i)

/-- Word j of a symbol buffer's storage: part j % 4 of symbol j / 4 (20_memory.md R86, R87). -/
def State.symWord (s : State) (b : SymBuf) (j : Nat) : Word :=
  ((s.mem.words b).get j).getD (Config.freeSymWord s.epoch b j)

/-- TXS[k] or RXS[k] (10_state.md R54, R55), from its four words (20_memory.md R86, R87). -/
def State.sym (s : State) (b : SymBuf) (k : Nat) : Symbol :=
  (s.symWord b (4 * k + 1) ++ s.symWord b (4 * k), s.symWord b (4 * k + 3) ++ s.symWord b (4 * k + 2))

/-- The bits of a buffer from index `lo` on replaced by those of the list. -/
def State.putBits (s : State) (b : BitBuf) (lo : Nat) (vs : List Bool) : State :=
  match b with
  | .txb => { s with mem := { s.mem with txb := s.mem.txb.splice lo vs } }
  | .rxb => { s with mem := { s.mem with rxb := s.mem.rxb.splice lo vs } }

/-- The storage words of a symbol buffer from word `lo` on replaced by those of the list. -/
def State.putWords (s : State) (b : SymBuf) (lo : Nat) (vs : List Word) : State :=
  match b with
  | .txs => { s with mem := { s.mem with txs := s.mem.txs.splice lo vs } }
  | .rxs => { s with mem := { s.mem with rxs := s.mem.rxs.splice lo vs } }

/-- Bits 31:0 of a 64-bit value (10_state.md R49). -/
def loHalf (v : BitVec 64) : Word := v.extractLsb' 0 32

/-- Bits 63:32 of a 64-bit value (R49). -/
def hiHalf (v : BitVec 64) : Word := v.extractLsb' 32 32

/-- A 64-bit value with its low half replaced (R49). -/
def setLo (v : BitVec 64) (w : Word) : BitVec 64 := hiHalf v ++ w

/-- A 64-bit value with its high half replaced (R49). -/
def setHi (v : BitVec 64) (w : Word) : BitVec 64 := w ++ loHalf v

/-- The four storage words of a symbol, in window order (20_memory.md R86). -/
def symWords (z : Symbol) : List Word := [loHalf z.1, hiHalf z.1, loHalf z.2, hiHalf z.2]

/-- The storage words of a list of symbols. -/
def allSymWords : List Symbol → List Word
  | [] => []
  | z :: zs => loHalf z.1 :: hiHalf z.1 :: loHalf z.2 :: hiHalf z.2 :: allSymWords zs

/-- Symbols 0 .. of a buffer replaced by those of the list. -/
def State.putSyms (s : State) (b : SymBuf) (zs : List Symbol) : State :=
  s.putWords b 0 (allSymWords zs)

/-- Elements 0 .. n-1 of a bit buffer, in ascending order. -/
def State.bitsUpTo (s : State) (b : BitBuf) (n : Nat) : List Bool := (List.range n).map (s.bit b)

/-- Symbols 0 .. n-1 of a symbol buffer, in ascending order. -/
def State.symsUpTo (s : State) (b : SymBuf) (n : Nat) : List Symbol := (List.range n).map (s.sym b)

/-! The command lifecycle. -/

/-- reject(code, w), the block's exception entry (60_exceptions.md R305): only STATUS changes (R304). -/
def State.reject (s : State) (code : ErrCode) (w : Word) : State :=
  { s with status := s.status.reject code w }

/-- The acknowledgement of errors and flags by a host write to STATUS, the block's return from an exception (R306, 10_state.md R36). -/
def State.acknowledge (s : State) (v : Word) : State := { s with status := s.status.clear v }

/-- An accepted command (44_control.md R261): BUSY <- 1, CUR <- w. -/
def State.accept (s : State) (w : Word) : State :=
  { s with status := { s.status with busy := true }, cur := w }

/-- The end of a completion (44_control.md R264): DONE <- 1, BUSY <- 0. The draws of the completion are spent. -/
def State.complete (s : State) : State :=
  { s with status := { s.status with done := true, busy := false }, draws := s.draws + 1 }

/-- The quiet NaN that operation `op` of element `k` of this completion produces (00_scope.md R11; log 7). -/
def State.nan (s : State) (k op : Nat) : F64 := quietNan (Config.freeNan s.draws k op)

end Sys2Proof.Machine
end

