-- ==== Sys2Proof/WellFormed.lean ====
section
/-! DEFINITION. What R111, R113 and R117 ask of a command word beside its opcode: reserved bits 0, and in format O an order of 1 or 2. Format C has no reserved bits (90_conflicts.md C11). The block answers an ill-formed word with the error RESERVED. -/

namespace Sys2Proof

def Instr.wf : Instr → Bool
  | .nop rsvd => rsvd == 0#24
  | .seed rsvd => rsvd == 0#24
  | .genbits _ => true
  | .genNoise _ => true
  | .modBpsk rsvd => rsvd == 0#24
  | .modQpsk rsvd => rsvd == 0#24
  | .demodBpsk rsvd => rsvd == 0#24
  | .demodQpsk rsvd => rsvd == 0#24
  | .convEbno rsvd ord => rsvd == 0#22 && (ord == 1#2 || ord == 2#2)
  | .addNoise rsvd => rsvd == 0#24
  | .bypass rsvd => rsvd == 0#24
  | .countErr rsvd => rsvd == 0#24
  | .berCalc rsvd => rsvd == 0#24
  | .clrAcc rsvd => rsvd == 0#24

end Sys2Proof
end

