-- ==== Sys2Proof/Machine/Operands.lean ====
section
/-! DEFINITION. The operands of the commands (30_encoding.md R112 to R114), the checks made on them at issue (60_exceptions.md R302, R303) and the write sets they give (44_control.md R266). -/

namespace Sys2Proof.Machine

/-- COUNT = zext_32(w[31:8]), as a number (R114). -/
def countOf (count : BitVec 24) : Nat := count.toNat

/-- The constant of the order: K1 for order 1, K2 otherwise (42_channel.md R203). -/
def orderConstant (ord : BitVec 2) : F64 := if ord == 1#2 then cK1 else cK2

/-- A length register as a number of elements. -/
def lengthOf (w : Word) : Nat := w.toNat

/-- `a > b`, as a check. -/
def exceeds (a b : Nat) : Bool := Nat.blt b a

/-- The first check that fails, in order; NONE where none does (R302). -/
def firstFailing : List (Bool × ErrCode) → ErrCode
  | [] => .none
  | (failed, code) :: rest => if failed then code else firstFailing rest

/-- The command's own checks, in the order of R303. -/
def commandChecks (s : State) : Instr → List (Bool × ErrCode)
  | .nop _ => []
  | .seed _ => []
  | .genbits count => [(exceeds (countOf count) s.cfg.nbMax, .range)]
  | .genNoise count => [(exceeds (countOf count) s.cfg.nsMax, .range)]
  | .modBpsk _ =>
    [(exceeds (lengthOf s.txbLen) s.cfg.nbMax, .range), (exceeds (lengthOf s.txbLen) s.cfg.nsMax, .range)]
  | .modQpsk _ =>
    [(exceeds (lengthOf s.txbLen) s.cfg.nbMax, .range), (lengthOf s.txbLen % 2 == 1, .oddLength),
      (exceeds (lengthOf s.txbLen / 2) s.cfg.nsMax, .range)]
  | .demodBpsk _ =>
    [(exceeds (lengthOf s.rxsLen) s.cfg.nsMax, .range), (exceeds (lengthOf s.rxsLen) s.cfg.nbMax, .range)]
  | .demodQpsk _ =>
    [(exceeds (lengthOf s.rxsLen) s.cfg.nsMax, .range), (exceeds (2 * lengthOf s.rxsLen) s.cfg.nbMax, .range)]
  | .convEbno _ _ => []
  | .addNoise _ => [(exceeds (lengthOf s.txsLen) s.cfg.nsMax, .range)]
  | .bypass _ => [(exceeds (lengthOf s.txsLen) s.cfg.nsMax, .range)]
  | .countErr _ =>
    [(exceeds (lengthOf s.txbLen) s.cfg.nbMax, .range), (exceeds (lengthOf s.rxbLen) s.cfg.nbMax, .range),
      (lengthOf s.txbLen != lengthOf s.rxbLen, .lenMismatch)]
  | .berCalc _ => []
  | .clrAcc _ => []

/-- checks(w) of R302 from its step 3 on: RESERVED, then the command's own checks. -/
def checks (s : State) (i : Instr) : ErrCode :=
  firstFailing ((!i.wf, .reserved) :: commandChecks s i)

/-- checks(w) of R302: ILLEGAL for an unassigned opcode, then the checks of the command. -/
def wordChecks (s : State) (w : Word) : ErrCode :=
  match decode w with
  | .ok i => checks s i
  | .error _ => .illegal

/-- The state a command's completion may change besides STATUS (R266): the number of leading elements of each buffer, and which registers. -/
structure WriteSet where
  txb : Nat := 0
  rxb : Nat := 0
  txs : Nat := 0
  rxs : Nat := 0
  txbLen : Bool := false
  txsLen : Bool := false
  rxsLen : Bool := false
  rxbLen : Bool := false
  snr : Bool := false
  rng : Bool := false
  errcnt : Bool := false
  bitcnt : Bool := false
  lastcnt : Bool := false
  ber : Bool := false
  nscale : Bool := false
deriving DecidableEq, Repr

/-- The table of R266. -/
def writeSet (s : State) : Instr → WriteSet
  | .nop _ => {}
  | .seed _ => { rng := true }
  | .genbits count => { txb := countOf count, txbLen := true, rng := true }
  | .genNoise count => { rxs := countOf count, rxsLen := true, nscale := true, rng := true }
  | .modBpsk _ => { txs := lengthOf s.txbLen, txsLen := true }
  | .modQpsk _ => { txs := lengthOf s.txbLen / 2, txsLen := true }
  | .demodBpsk _ => { rxb := lengthOf s.rxsLen, rxbLen := true }
  | .demodQpsk _ => { rxb := 2 * lengthOf s.rxsLen, rxbLen := true }
  | .convEbno _ _ => { snr := true }
  | .addNoise _ => { rxs := lengthOf s.txsLen, rxsLen := true, nscale := true, rng := true }
  | .bypass _ => { rxs := lengthOf s.txsLen, rxsLen := true }
  | .countErr _ => { lastcnt := true, errcnt := true, bitcnt := true }
  | .berCalc _ => { ber := true }
  | .clrAcc _ => { errcnt := true, bitcnt := true }

/-- The elements a write set holds in a bit buffer. -/
def WriteSet.bits (ws : WriteSet) : BitBuf → Nat
  | .txb => ws.txb
  | .rxb => ws.rxb

/-- The symbols a write set holds in a symbol buffer. -/
def WriteSet.syms (ws : WriteSet) : SymBuf → Nat
  | .txs => ws.txs
  | .rxs => ws.rxs

/-- The write set of the running command; empty while the engine is idle. -/
def runningWriteSet (s : State) : WriteSet :=
  if s.status.busy then
    match decode s.cur with
    | .ok i => writeSet s i
    | .error _ => {}
  else {}

/-- One command, from its operands to its end: a failing check of R302 rejects it (R304, R305); otherwise its effect, and the end of the completion (44_control.md R263, R264). At a completion the checks are those its issue has passed, on the same operands (R263; log 12). -/
def runCommand (i : Instr) (effect : State → State) (s : State) : State :=
  match checks s i with
  | .none => (effect s).complete
  | code => s.reject code (encode i)

end Sys2Proof.Machine
end

