-- ==== Sys2Proof/Machine/Reset.lean ====
section
/-! DEFINITION. The reset input and the soft reset (70_reset_and_hazards.md R340 to R343). -/

namespace Sys2Proof.Machine

/-- What the abandoned command's write set is left with (R343): every buffer element of it a draw, and rng_state a draw where the command replaces or advances it (log 10). -/
def State.abandon (s : State) (ws : WriteSet) : State :=
  let d := s.draws
  let t := s.putBits .txb 0 ((List.range ws.txb).map (Config.freeBit d .txb))
  let t := t.putBits .rxb 0 ((List.range ws.rxb).map (Config.freeBit d .rxb))
  let t := t.putWords .txs 0 ((List.range (4 * ws.txs)).map (Config.freeSymWord d .txs))
  let t := t.putWords .rxs 0 ((List.range (4 * ws.rxs)).map (Config.freeSymWord d .rxs))
  { t with rng := if ws.rng then Config.freeRng d else s.rng, draws := d + 1 }

/-- Every register of 10_state.md R51 but RNG at its reset value, BUSY <- 0 (R342). -/
def State.clearRegisters (s : State) : State :=
  { s with
    status := Status.zero
    irqEn := 0#3
    txbLen := 0#32
    txsLen := 0#32
    rxsLen := 0#32
    rxbLen := 0#32
    phase := 0#64
    snr := 0#64
    ebno := 0#64
    seed := 0#64
    errcnt := 0#64
    bitcnt := 0#64
    lastcnt := 0#32
    ber := 0#64
    nscale := 0#64 }

/-- The soft reset (R342), which abandons a running command (R343). -/
def State.softReset (s : State) : State :=
  if s.status.busy then (s.abandon (runningWriteSet s)).clearRegisters else s.clearRegisters

/-- The reset input asserted (R340): from here on the block answers no transaction and completes no command. -/
def State.assertReset (s : State) : State := { s with inReset := true }

/-- The reset input released (R340): every register at its reset value, rng_state and the buffers drawn anew. Releasing an input that is not asserted is no event for the block (log 14). -/
def State.releaseReset (s : State) : State :=
  if s.inReset then { State.powerUp s.cfg s.draws with inputs := s.inputs } else s

end Sys2Proof.Machine
end

