-- ==== Sys2Proof/Machine/Bus.lean ====
section
/-! DEFINITION. The host's side: the address map (20_memory.md R80 to R89), reads and writes (44_control.md R267 to R270), and the issue of a command (R261). -/

namespace Sys2Proof.Machine

/-- The registers of 10_state.md R51, a 64-bit one by its halves (R49). -/
inductive Reg where
  | id | version | capBits | capSyms | ctrl | cmd | status | irqEn
  | txbLen | txsLen | rxsLen | rxbLen
  | phaseLo | phaseHi | snrLo | snrHi | ebnoLo | ebnoHi | seedLo | seedHi
  | rngLo | rngHi | errcntLo | errcntHi | bitcntLo | bitcntHi | lastcnt
  | berLo | berHi | nscaleLo | nscaleHi
deriving DecidableEq, Repr

/-- What stands at a legal offset (R83). -/
inductive Target where
  | reg (r : Reg)
  /-- Word j of a bit buffer's window (R84, R85). -/
  | bitWord (b : BitBuf) (j : Nat)
  /-- Word j of a symbol buffer's window: part j % 4 of symbol j / 4 (R86, R87). -/
  | symWord (b : SymBuf) (j : Nat)
  /-- A RAZ/WI offset (R83, 10_state.md R50). -/
  | reserved
deriving DecidableEq, Repr

/-- The register at an offset, if a rule assigns one (10_state.md R50, R51). -/
def regAt : Nat → Option Reg
  | 0x000 => .some .id
  | 0x004 => .some .version
  | 0x008 => .some .capBits
  | 0x00C => .some .capSyms
  | 0x010 => .some .ctrl
  | 0x014 => .some .cmd
  | 0x018 => .some .status
  | 0x01C => .some .irqEn
  | 0x020 => .some .txbLen
  | 0x024 => .some .txsLen
  | 0x028 => .some .rxsLen
  | 0x02C => .some .rxbLen
  | 0x030 => .some .phaseLo
  | 0x034 => .some .phaseHi
  | 0x038 => .some .snrLo
  | 0x03C => .some .snrHi
  | 0x040 => .some .ebnoLo
  | 0x044 => .some .ebnoHi
  | 0x048 => .some .seedLo
  | 0x04C => .some .seedHi
  | 0x050 => .some .rngLo
  | 0x054 => .some .rngHi
  | 0x058 => .some .errcntLo
  | 0x05C => .some .errcntHi
  | 0x060 => .some .bitcntLo
  | 0x064 => .some .bitcntHi
  | 0x068 => .some .lastcnt
  | 0x070 => .some .berLo
  | 0x074 => .some .berHi
  | 0x078 => .some .nscaleLo
  | 0x07C => .some .nscaleHi
  | _ => .none

/-- The first offset of a bit buffer's window (R84, R85). -/
def bitWindow : BitBuf → Nat
  | .txb => 0x010000
  | .rxb => 0x018000

/-- The first offset of a symbol buffer's window (R86, R87). -/
def symWindow : SymBuf → Nat
  | .txs => 0x100000
  | .rxs => 0x200000

/-- Word j of a bit window, RAZ/WI beyond the capacity (R84). -/
def bitTarget (p : Params) (b : BitBuf) (j : Nat) : Target :=
  if Nat.blt j (p.nbMax / 32) then .bitWord b j else .reserved

/-- Word j of a symbol window, RAZ/WI beyond the capacity (R86). -/
def symTarget (p : Params) (b : SymBuf) (j : Nat) : Target :=
  if Nat.blt j (4 * p.nsMax) then .symWord b j else .reserved

/-- The address map (R83). -/
def targetAt (p : Params) (off : Nat) : Target :=
  if Nat.blt off 0x010000 then
    match regAt off with
    | .some r => .reg r
    | .none => .reserved
  else if Nat.blt off 0x018000 then bitTarget p .txb ((off - 0x010000) / 4)
  else if Nat.blt off 0x020000 then bitTarget p .rxb ((off - 0x018000) / 4)
  else if Nat.blt off 0x100000 then .reserved
  else if Nat.blt off 0x200000 then symTarget p .txs ((off - 0x100000) / 4)
  else if Nat.blt off 0x300000 then symTarget p .rxs ((off - 0x200000) / 4)
  else .reserved

/-- The offset of a host byte address inside the block's 4 MiB at BASE (R80); none for an address of another device. -/
def offsetOf (p : Params) (addr : Nat) : Option Nat :=
  if Nat.ble p.base addr && Nat.blt addr (p.base + 0x400000) then .some (addr - p.base) else .none

/-- A transaction is legal when its size is 4 bytes and its offset a multiple of 4 (R81). -/
def legalAccess (size off : Nat) : Bool := size == 4 && off % 4 == 0

/-! Reads. -/

/-- The 32-bit value of a register, reserved bits 0 (R269, 10_state.md R32 to R49). -/
def State.readReg (s : State) : Reg → Word
  | .id => 0x4250534B#32
  | .version => 0x00010000#32
  | .capBits => BitVec.ofNat 32 s.cfg.nbMax
  | .capSyms => BitVec.ofNat 32 s.cfg.nsMax
  | .ctrl => 0#32
  | .cmd => 0#32
  | .status => s.status.word
  | .irqEn => s.irqEn.setWidth 32
  | .txbLen => s.txbLen
  | .txsLen => s.txsLen
  | .rxsLen => s.rxsLen
  | .rxbLen => s.rxbLen
  | .phaseLo => loHalf s.phase
  | .phaseHi => hiHalf s.phase
  | .snrLo => loHalf s.snr
  | .snrHi => hiHalf s.snr
  | .ebnoLo => loHalf s.ebno
  | .ebnoHi => hiHalf s.ebno
  | .seedLo => loHalf s.seed
  | .seedHi => hiHalf s.seed
  | .rngLo => loHalf s.rng
  | .rngHi => hiHalf s.rng
  | .errcntLo => loHalf s.errcnt
  | .errcntHi => hiHalf s.errcnt
  | .bitcntLo => loHalf s.bitcnt
  | .bitcntHi => hiHalf s.bitcnt
  | .lastcnt => s.lastcnt
  | .berLo => loHalf s.ber
  | .berHi => hiHalf s.ber
  | .nscaleLo => loHalf s.nscale
  | .nscaleHi => hiHalf s.nscale

/-- Bits 32j to 32j+31 of a bit buffer as a window word (R84). -/
def State.bitWord (s : State) (b : BitBuf) (j : Nat) : Word :=
  BitVec.ofFnLE (fun i : Fin 32 => s.bit b (32 * j + i.val))

/-- The value at a target as the latest step left it (R269). -/
def State.exactRead (s : State) : Target → Word
  | .reg r => s.readReg r
  | .bitWord b j => s.bitWord b j
  | .symWord b j => s.symWord b j
  | .reserved => 0#32

/-- All 32 bits of a word, or none. -/
def wholeWord (inSet : Bool) : Word := if inSet then BitVec.allOnes 32 else 0#32

/-- Whether a register is in a write set (R266). -/
def WriteSet.reg (ws : WriteSet) : Reg → Bool
  | .txbLen => ws.txbLen
  | .txsLen => ws.txsLen
  | .rxsLen => ws.rxsLen
  | .rxbLen => ws.rxbLen
  | .snrLo => ws.snr
  | .snrHi => ws.snr
  | .rngLo => ws.rng
  | .rngHi => ws.rng
  | .errcntLo => ws.errcnt
  | .errcntHi => ws.errcnt
  | .bitcntLo => ws.bitcnt
  | .bitcntHi => ws.bitcnt
  | .lastcnt => ws.lastcnt
  | .berLo => ws.ber
  | .berHi => ws.ber
  | .nscaleLo => ws.nscale
  | .nscaleHi => ws.nscale
  | .id => false
  | .version => false
  | .capBits => false
  | .capSyms => false
  | .ctrl => false
  | .cmd => false
  | .status => false
  | .irqEn => false
  | .phaseLo => false
  | .phaseHi => false
  | .ebnoLo => false
  | .ebnoHi => false
  | .seedLo => false
  | .seedHi => false

/-- The bits of a word that belong to a write set (R267). -/
def WriteSet.mask (ws : WriteSet) : Target → Word
  | .reg r => wholeWord (ws.reg r)
  | .bitWord b j => BitVec.ofFnLE (fun i : Fin 32 => Nat.blt (32 * j + i.val) (ws.bits b))
  | .symWord b j => wholeWord (Nat.blt (j / 4) (ws.syms b))
  | .reserved => 0#32

/-- The bits of a word a read now would draw (R267). -/
def State.drawnBits (s : State) (t : Target) : Word := (runningWriteSet s).mask t

/-- What a host read returns (R267, R269): the exact value, but for the bits of the running command's write set, which are drawn for this read. -/
def State.readValue (s : State) (t : Target) : Word :=
  if s.drawnBits t == 0#32 then s.exactRead t
  else (s.exactRead t &&& ~~~(s.drawnBits t)) ||| (Config.freeRead s.draws &&& s.drawnBits t)

/-- A legal host read: it changes nothing but the answer; a draw it takes is spent (20_memory.md R91, 44_control.md R269). -/
def State.hostRead (s : State) (t : Target) : State :=
  { s with
    resp := .some ⟨true, s.readValue t⟩
    draws := if s.drawnBits t == 0#32 then s.draws else s.draws + 1 }

/-! Writes. -/

/-- issue(w) (44_control.md R261). -/
def State.issue (s : State) (w : Word) : State :=
  if s.status.busy then s.reject .busy w
  else
    match wordChecks s w with
    | .none => s.accept w
    | code => s.reject code w

/-- A host write to a register that busy protection allows (R270, 10_state.md R34 to R51). -/
def State.writeReg (s : State) (v : Word) : Reg → State
  | .ctrl => if v.getLsbD 0 then s.softReset else s
  | .cmd => s.issue v
  | .status => s.acknowledge v
  | .irqEn => { s with irqEn := v.extractLsb' 0 3 }
  | .txbLen => { s with txbLen := v }
  | .txsLen => { s with txsLen := v }
  | .rxsLen => { s with rxsLen := v }
  | .rxbLen => { s with rxbLen := v }
  | .phaseLo => { s with phase := setLo s.phase v }
  | .phaseHi => { s with phase := setHi s.phase v }
  | .snrLo => { s with snr := setLo s.snr v }
  | .snrHi => { s with snr := setHi s.snr v }
  | .ebnoLo => { s with ebno := setLo s.ebno v }
  | .ebnoHi => { s with ebno := setHi s.ebno v }
  | .seedLo => { s with seed := setLo s.seed v }
  | .seedHi => { s with seed := setHi s.seed v }
  | .id => s
  | .version => s
  | .capBits => s
  | .capSyms => s
  | .rngLo => s
  | .rngHi => s
  | .errcntLo => s
  | .errcntHi => s
  | .bitcntLo => s
  | .bitcntHi => s
  | .lastcnt => s
  | .berLo => s
  | .berHi => s
  | .nscaleLo => s
  | .nscaleHi => s

/-- The registers whose host writes are ignored while BUSY = 1 (44_control.md R268). -/
def Reg.busyProtected : Reg → Bool
  | .txbLen | .txsLen | .rxsLen | .rxbLen => true
  | .phaseLo | .phaseHi | .snrLo | .snrHi | .ebnoLo | .ebnoHi | .seedLo | .seedHi => true
  | .id | .version | .capBits | .capSyms | .ctrl | .cmd | .status | .irqEn => false
  | .rngLo | .rngHi | .errcntLo | .errcntHi | .bitcntLo | .bitcntHi | .lastcnt => false
  | .berLo | .berHi | .nscaleLo | .nscaleHi => false

/-- The busy-protected targets (R268): those registers, and every window word inside capacity. -/
def Target.busyProtected : Target → Bool
  | .reg r => r.busyProtected
  | .bitWord _ _ => true
  | .symWord _ _ => true
  | .reserved => false

/-- The 32 bits of a word, least significant first (R84). -/
def wordBits (v : Word) : List Bool := (List.range 32).map v.getLsbD

/-- A host write that busy protection lets through (R270). -/
def State.writeTarget (s : State) (v : Word) : Target → State
  | .reg r => s.writeReg v r
  | .bitWord b j => s.putBits b (32 * j) (wordBits v)
  | .symWord b j => s.putWords b j [v]
  | .reserved => s

/-- A legal host write (R268, R270). -/
def State.hostWrite (s : State) (t : Target) (v : Word) : State :=
  if s.status.busy && t.busyProtected then s.flagWbusy else s.writeTarget v t

/-! Transactions. -/

/-- The size of a transaction in bytes. -/
def Transaction.size : Transaction → Nat
  | .read size _ => size
  | .fetch size _ => size
  | .write size _ _ => size

/-- The host byte address of a transaction. -/
def Transaction.addr : Transaction → Nat
  | .read _ addr => addr
  | .fetch _ addr => addr
  | .write _ addr _ => addr

/-- The effect of a legal transaction at a target, answered OKAY (R83); a fetch is a read (R82). -/
def State.serve (s : State) (tgt : Target) : Transaction → State
  | .read _ _ => s.hostRead tgt
  | .fetch _ _ => s.hostRead tgt
  | .write _ _ v => { s.hostWrite tgt v with resp := .some ⟨true, 0#32⟩ }

/-- A transaction of the host: not answered while the reset input is asserted (70_reset_and_hazards.md R340) or when addressed to another device (R80; log 11); answered ERROR with data 0 and no effect when illegal (R82). -/
def State.transact (s : State) (t : Transaction) : State :=
  if s.inReset then { s with resp := .none }
  else
    match offsetOf s.cfg t.addr with
    | .none => { s with resp := .none }
    | .some off =>
      if legalAccess t.size off then s.serve (targetAt s.cfg off) t
      else { s with resp := .some ⟨false, 0#32⟩ }

end Sys2Proof.Machine
end

