-- ==== Sys2Proof/Machine/Numerics.lean ====
section
/-! DEFINITION. The numerics parameters Cos, Sin, Ln and Pow10 (00_scope.md R16 to R19). Each is the implementation's unconstrained answer wherever that answer has the properties the rule states, and some value with those properties elsewhere. So the four functions have exactly the stated properties, and every choice of functions with those properties is one the model admits (log 8). -/

namespace Sys2Proof.Machine

/-- A quiet NaN with the sign and payload of the given bits. -/
def makeQuiet (x : F64) : F64 := x ||| 0x7FF8000000000000#64

/-- -1.0 <= y <= +1.0 (R16, R17). -/
def inUnit (y : F64) : Bool := Nat.ble (fMag y) (fMag cONE)

/-- 0.5 <= |y|, for y in the unit interval (R17). -/
def atLeastHalf (y : F64) : Bool := Nat.ble 0x3FE0000000000000 (fMag y)

/-- Cos (R16). -/
def mCos (x : F64) : F64 :=
  if fIsFinite x then
    if fIsZero x then cONE
    else if inUnit (Config.cosRaw x) then Config.cosRaw x else cONE
  else makeQuiet (Config.cosRaw x)

/-- Sin (R17), with its joint property: |Cos(x)| >= 0.5 or |Sin(x)| >= 0.5. -/
def mSin (x : F64) : F64 :=
  if fIsFinite x then
    if fIsZero x then x
    else if inUnit (Config.sinRaw x) && (atLeastHalf (mCos x) || atLeastHalf (Config.sinRaw x)) then
      Config.sinRaw x
    else cONE
  else makeQuiet (Config.sinRaw x)

/-- y is finite and -36.8 <= y <= -0 (R18); the encoding is the largest magnitude not above 36.8. -/
def inLnRange (y : F64) : Bool :=
  fIsZero y || (fSign y && Nat.ble (fMag y) 0x4042666666666666)

/-- 2^-53 <= x < 1 (R18). -/
def lnArgument (x : F64) : Bool := Nat.ble cTWO_M53.toNat x.toNat && Nat.blt x.toNat cONE.toNat

/-- Ln (R18). Arguments outside [2^-53, 1] are never requested. -/
def mLn (x : F64) : F64 :=
  if x == cONE then fZero false
  else if lnArgument x then
    if inLnRange (Config.lnRaw x) then Config.lnRaw x else fZero true
  else Config.lnRaw x

/-- Pow10 (R19). -/
def mPow10 (x : F64) : F64 :=
  if fIsNan x then makeQuiet (Config.pow10Raw x)
  else if fIsInf x then (if fSign x then fZero false else x)
  else if fIsZero x then cONE
  else if fIsNan (Config.pow10Raw x) || fSign (Config.pow10Raw x) then cONE
  else Config.pow10Raw x

end Sys2Proof.Machine
end

