-- ==== Sys2Proof/Machine/Random.lean ====
section
/-! DEFINITION. The random source: SplitMix64, the uniform bit, the Box-Muller synthesizer (40_random.md R140 to R148), the noise scale (42_channel.md R200), and the commands SEED, GENBITS and GEN_NOISE (R150 to R152). -/

namespace Sys2Proof.Machine

/-- rng_next() (R141): the word returned and the new rng_state. -/
def rngNext (r : BitVec 64) : BitVec 64 × BitVec 64 :=
  let z0 := r + 0x9E3779B97F4A7C15#64
  let z1 := (z0 ^^^ (z0 >>> 30)) * 0xBF58476D1CE4E5B9#64
  let z2 := (z1 ^^^ (z1 >>> 27)) * 0x94D049BB133111EB#64
  (z2 ^^^ (z2 >>> 31), z0)

/-- rng_bit() (R142). -/
def rngBit (r : BitVec 64) : Bool × BitVec 64 := ((rngNext r).1.getLsbD 63, (rngNext r).2)

/-- n calls of rng_bit() in order, and the rng_state after them (R148). -/
def rngBits : Nat → BitVec 64 → List Bool × BitVec 64
  | 0, r => ([], r)
  | n + 1, r =>
    let (b, r1) := rngBit r
    let (bs, r2) := rngBits n r1
    (b :: bs, r2)

/-- u1 of a generator word (R143): (w[63:11] + 1) * 2^-53, in [2^-53, 1]. -/
def unitOpen (nan : F64) (w : BitVec 64) : F64 := fMul nan (fCvt (w >>> 11 + 1#64)) cTWO_M53

/-- u2 of a generator word (R143): w[63:11] * 2^-53, in [0, 1 - 2^-53]. -/
def unitHalfOpen (nan : F64) (w : BitVec 64) : F64 := fMul nan (fCvt (w >>> 11)) cTWO_M53

/-- The Box-Muller sample of two generator words (R144, R145). `nan op` is the quiet NaN operation `op` would produce. -/
def gaussSample (nan : Nat → F64) (w1 w2 : BitVec 64) : Symbol :=
  let u1 := unitOpen (nan 2) w1
  let u2 := unitHalfOpen (nan 3) w2
  let a := fMul (nan 4) cMTWO (mLn u1)
  let rad := fSqrt (nan 5) a
  let th := fMul (nan 6) cTWO_PI u2
  (fMul (nan 7) rad (mCos th), fMul (nan 8) rad (mSin th))

/-- gauss_pair() (R144 to R146): the sample of the next two generator words, and the rng_state after them. -/
def gaussPair (nan : Nat → F64) (r : BitVec 64) : Symbol × BitVec 64 :=
  let (w1, r1) := rngNext r
  let (w2, r2) := rngNext r1
  (gaussSample nan w1 w2, r2)

/-- gauss_pair() for elements k, k+1, .. in ascending order, n of them, and the rng_state after them (R148). -/
def gaussPairs (nan : Nat → Nat → F64) : Nat → Nat → BitVec 64 → List Symbol × BitVec 64
  | 0, _, r => ([], r)
  | n + 1, k, r =>
    let (g, r1) := gaussPair (nan k) r
    let (gs, r2) := gaussPairs nan n (k + 1) r1
    (g :: gs, r2)

/-- noise_scale(x) (42_channel.md R200). -/
def noiseScale (nan : Nat → F64) (x : F64) : F64 :=
  fDiv (nan 1) (mPow10 (fDiv (nan 0) (fNeg x) cTWENTY)) cSQRT2

/-- scale * g, each component rounded (R152). -/
def scaleSample (nan : Nat → F64) (scale : F64) (g : Symbol) : Symbol :=
  (fMul (nan 9) scale g.1, fMul (nan 10) scale g.2)

/-- A function of the element's number applied along a list whose first element has number k. -/
def mapFrom {α β : Type} (f : Nat → α → β) : Nat → List α → List β
  | _, [] => []
  | k, a :: as => f k a :: mapFrom f (k + 1) as

/-- The end of GEN_NOISE and ADD_NOISE (R152, 42_channel.md R201): RXS, RXS_LEN, NSCALE, rng_state and NUMERR. -/
def State.receive (s : State) (zs : List Symbol) (n : Nat) (scale : F64) (r : BitVec 64) : State :=
  let t := (s.putSyms .rxs zs).flagNumerr (zs.any symNonFinite || nonFinite scale)
  { t with rxsLen := BitVec.ofNat 32 n, nscale := scale, rng := r }

/-- SEED: load the generator state (R150). -/
def execSeed (rsvd : BitVec 24) (s : State) : Host.Outcome State Fault Refusal :=
  .next (runCommand (.seed rsvd) (fun s => { s with rng := s.seed }) s)

/-- The effect of GENBITS (R151). -/
def genbitsEffect (n : Nat) (s : State) : State :=
  let out := rngBits n s.rng
  { s.putBits .txb 0 out.1 with txbLen := BitVec.ofNat 32 n, rng := out.2 }

/-- GENBITS count: generate uniform transmitted bits (R151). -/
def execGenbits (count : BitVec 24) (s : State) : Host.Outcome State Fault Refusal :=
  .next (runCommand (.genbits count) (genbitsEffect (countOf count)) s)

/-- The effect of GEN_NOISE (R152). -/
def genNoiseEffect (n : Nat) (s : State) : State :=
  let scale := noiseScale (s.nan 0) s.snr
  let out := gaussPairs s.nan n 0 s.rng
  s.receive (mapFrom (fun k g => scaleSample (s.nan k) scale g) 0 out.1) n scale out.2

/-- GEN_NOISE count: synthesise scaled complex Gaussian noise into RXS (R152). -/
def execGenNoise (count : BitVec 24) (s : State) : Host.Outcome State Fault Refusal :=
  .next (runCommand (.genNoise count) (genNoiseEffect (countOf count)) s)

end Sys2Proof.Machine
end

