-- ==== Sys2Proof/Machine/Channel.lean ====
section
/-! DEFINITION. The channel model: Eb/N0 conversion, noise addition and the noiseless copy (42_channel.md R200 to R203). -/

namespace Sys2Proof.Machine

/-- The effect of CONV_EBNO (R203). -/
def convEbnoEffect (ord : BitVec 2) (s : State) : State :=
  let v := fAdd (s.nan 0 0) s.ebno (orderConstant ord)
  { s.flagNumerr (nonFinite v) with snr := v }

/-- CONV_EBNO order: convert the per-bit SNR to the per-symbol SNR (R203). -/
def execConvEbno (rsvd : BitVec 22) (ord : BitVec 2) (s : State) : Host.Outcome State Fault Refusal :=
  .next (runCommand (.convEbno rsvd ord) (convEbnoEffect ord) s)

/-- A transmitted symbol plus a noise sample, each component rounded (R201). -/
def addSample (nan : Nat → F64) (z noise : Symbol) : Symbol :=
  (fAdd (nan 11) z.1 noise.1, fAdd (nan 12) z.2 noise.2)

/-- The effect of ADD_NOISE (R201). -/
def addNoiseEffect (s : State) : State :=
  let n := lengthOf s.txsLen
  let scale := noiseScale (s.nan 0) s.snr
  let out := gaussPairs s.nan n 0 s.rng
  let add := fun k g => addSample (s.nan k) (s.sym .txs k) (scaleSample (s.nan k) scale g)
  s.receive (mapFrom add 0 out.1) n scale out.2

/-- ADD_NOISE: form the received symbols as the transmitted symbols plus scaled noise (R201). -/
def execAddNoise (rsvd : BitVec 24) (s : State) : Host.Outcome State Fault Refusal :=
  .next (runCommand (.addNoise rsvd) addNoiseEffect s)

/-- The effect of BYPASS (R202). -/
def bypassEffect (s : State) : State :=
  let n := lengthOf s.txsLen
  let zs := s.symsUpTo .txs n
  { (s.putSyms .rxs zs).flagNumerr (zs.any symNonFinite) with rxsLen := BitVec.ofNat 32 n }

/-- BYPASS: copy the transmitted symbols to the received buffer with no noise (R202). -/
def execBypass (rsvd : BitVec 24) (s : State) : Host.Outcome State Fault Refusal :=
  .next (runCommand (.bypass rsvd) bypassEffect s)

end Sys2Proof.Machine
end

