-- ==== Sys2Proof/Machine/Control.lean ====
section
/-! DEFINITION. NOP (44_control.md R260). -/

namespace Sys2Proof.Machine

/-- NOP: do nothing but complete (R260). -/
def execNop (rsvd : BitVec 24) (s : State) : Host.Outcome State Fault Refusal :=
  .next (runCommand (.nop rsvd) (fun s => s) s)

end Sys2Proof.Machine
end

