-- ==== Sys2Proof/Machine/Metrics.lean ====
section
/-! DEFINITION. The error counter and the BER accumulator (43_metrics.md R230 to R233). -/

namespace Sys2Proof.Machine

/-- The number of positions below n where TXB and RXB differ (R230). -/
def State.mismatches (s : State) (n : Nat) : Nat :=
  (List.range n).countP (fun i => s.bit .txb i != s.bit .rxb i)

/-- The effect of COUNT_ERR (R230): the sums are exact before they wrap. -/
def countErrEffect (s : State) : State :=
  let n := lengthOf s.txbLen
  let m := s.mismatches n
  let e := s.errcnt.toNat + m
  let b := s.bitcnt.toNat + n
  { s.flagAccOvf (Nat.ble (2 ^ 64) e || Nat.ble (2 ^ 64) b) with
    lastcnt := BitVec.ofNat 32 m
    errcnt := BitVec.ofNat 64 e
    bitcnt := BitVec.ofNat 64 b }

/-- COUNT_ERR: count the differing positions and accumulate (R230). -/
def execCountErr (rsvd : BitVec 24) (s : State) : Host.Outcome State Fault Refusal :=
  .next (runCommand (.countErr rsvd) countErrEffect s)

/-- The effect of BER_CALC (R231). -/
def berCalcEffect (s : State) : State :=
  let v := fDiv (s.nan 0 0) (fCvt s.errcnt) (fCvt s.bitcnt)
  { s.flagNumerr (nonFinite v) with ber := v }

/-- BER_CALC: the bit-error rate of the accumulated counts (R231). -/
def execBerCalc (rsvd : BitVec 24) (s : State) : Host.Outcome State Fault Refusal :=
  .next (runCommand (.berCalc rsvd) berCalcEffect s)

/-- CLR_ACC: clear the BER accumulator (R232). -/
def execClrAcc (rsvd : BitVec 24) (s : State) : Host.Outcome State Fault Refusal :=
  .next (runCommand (.clrAcc rsvd) (fun s => { s with errcnt := 0#64, bitcnt := 0#64 }) s)

end Sys2Proof.Machine
end

