-- ==== Sys2Proof/Machine/ModDemod.lean ====
section
/-! DEFINITION. The modulators and hard-decision demodulators (41_moddemod.md R170 to R177). -/

namespace Sys2Proof.Machine

/-- The BPSK symbol of a bit at the rotation (c, s) (R170). -/
def bpskSymbol (c s : F64) (b : Bool) : Symbol := if b then (c, s) else (fNeg c, fNeg s)

/-- The effect of MOD_BPSK (R170). -/
def modBpskEffect (s : State) : State :=
  let n := lengthOf s.txbLen
  let zs := (s.bitsUpTo .txb n).map (bpskSymbol (mCos s.phase) (mSin s.phase))
  { (s.putSyms .txs zs).flagNumerr (zs.any symNonFinite) with txsLen := BitVec.ofNat 32 n }

/-- MOD_BPSK: map each transmitted bit to one BPSK symbol (R170). -/
def execModBpsk (rsvd : BitVec 24) (s : State) : Host.Outcome State Fault Refusal :=
  .next (runCommand (.modBpsk rsvd) modBpskEffect s)

/-- cvt_signed(1 - 2*b) (R172). -/
def antipodal (b : Bool) : F64 :=
  let v : Int := 1 - 2 * (b.toNat : Int)
  fRound (decide (v < 0)) v.natAbs 0

/-- One QPSK component: fl(cvt_signed(v) / SQRT2), v = 1 - 2*b (R172). -/
def qpskComponent (nan : F64) (b : Bool) : F64 := fDiv nan (antipodal b) cSQRT2

/-- The QPSK symbol of bits 2k and 2k+1 of TXB (R172). -/
def State.qpskSymbol (s : State) (k : Nat) : Symbol :=
  (qpskComponent (s.nan k 0) (s.bit .txb (2 * k)), qpskComponent (s.nan k 1) (s.bit .txb (2 * k + 1)))

/-- The effect of MOD_QPSK (R172). -/
def modQpskEffect (s : State) : State :=
  let m := lengthOf s.txbLen / 2
  { s.putSyms .txs ((List.range m).map s.qpskSymbol) with txsLen := BitVec.ofNat 32 m }

/-- MOD_QPSK: map each pair of transmitted bits to one QPSK symbol (R172). -/
def execModQpsk (rsvd : BitVec 24) (s : State) : Host.Outcome State Fault Refusal :=
  .next (runCommand (.modQpsk rsvd) modQpskEffect s)

/-- The projection p of symbol k of RXS (R174). -/
def State.projection (s : State) (k : Nat) : F64 :=
  fAdd (s.nan k 2) (fMul (s.nan k 0) (s.sym .rxs k).2 (mSin s.phase))
    (fMul (s.nan k 1) (s.sym .rxs k).1 (mCos s.phase))

/-- The effect of DEMOD_BPSK (R174). -/
def demodBpskEffect (s : State) : State :=
  let n := lengthOf s.rxsLen
  let ps := (List.range n).map s.projection
  { (s.putBits .rxb 0 (ps.map fGe0)).flagNumerr (ps.any fIsNan) with rxbLen := BitVec.ofNat 32 n }

/-- DEMOD_BPSK: recover one bit per received symbol (R174). -/
def execDemodBpsk (rsvd : BitVec 24) (s : State) : Host.Outcome State Fault Refusal :=
  .next (runCommand (.demodBpsk rsvd) demodBpskEffect s)

/-- The hard decision on one QPSK component (R176): bit 0 when it is > 0. -/
def qpskDecision (x : F64) : Bool := !fGt0 x

/-- The bits of a list of received QPSK symbols, the first bit from the real part (R176). -/
def qpskBits : List Symbol → List Bool
  | [] => []
  | z :: zs => qpskDecision z.1 :: qpskDecision z.2 :: qpskBits zs

/-- The effect of DEMOD_QPSK (R176). -/
def demodQpskEffect (s : State) : State :=
  let m := lengthOf s.rxsLen
  let zs := s.symsUpTo .rxs m
  { (s.putBits .rxb 0 (qpskBits zs)).flagNumerr (zs.any symNan) with rxbLen := BitVec.ofNat 32 (2 * m) }

/-- DEMOD_QPSK: recover two bits per received symbol (R176). -/
def execDemodQpsk (rsvd : BitVec 24) (s : State) : Host.Outcome State Fault Refusal :=
  .next (runCommand (.demodQpsk rsvd) demodQpskEffect s)

end Sys2Proof.Machine
end

