-- ==== Sys2Proof/Machine/Dispatch.lean ====
section
/-! DEFINITION. One arm for each command of 30_encoding.md R115. -/

namespace Sys2Proof.Machine

def exec (i : Instr) (s : State) : Host.Outcome State Fault Refusal :=
  match i with
  | .nop rsvd => Sys2Proof.Machine.execNop rsvd s
  | .seed rsvd => Sys2Proof.Machine.execSeed rsvd s
  | .genbits count => Sys2Proof.Machine.execGenbits count s
  | .genNoise count => Sys2Proof.Machine.execGenNoise count s
  | .modBpsk rsvd => Sys2Proof.Machine.execModBpsk rsvd s
  | .modQpsk rsvd => Sys2Proof.Machine.execModQpsk rsvd s
  | .demodBpsk rsvd => Sys2Proof.Machine.execDemodBpsk rsvd s
  | .demodQpsk rsvd => Sys2Proof.Machine.execDemodQpsk rsvd s
  | .convEbno rsvd ord => Sys2Proof.Machine.execConvEbno rsvd ord s
  | .addNoise rsvd => Sys2Proof.Machine.execAddNoise rsvd s
  | .bypass rsvd => Sys2Proof.Machine.execBypass rsvd s
  | .countErr rsvd => Sys2Proof.Machine.execCountErr rsvd s
  | .berCalc rsvd => Sys2Proof.Machine.execBerCalc rsvd s
  | .clrAcc rsvd => Sys2Proof.Machine.execClrAcc rsvd s

end Sys2Proof.Machine
end

