-- ==== Sys2Proof/Machine/Step.lean ====
section
/-! DEFINITION. One step of the block with its environment (20_memory.md R92): the next event of State.inputs, or, where none is left, the engine's turn (44_control.md R265; log 1). -/

namespace Sys2Proof.Machine

/-- The engine's turn. With BUSY = 1 it is the completion of the command in CUR (44_control.md R264); an idle engine does nothing (60_exceptions.md R323), and so does one held in reset (70_reset_and_hazards.md R340). -/
def engineTurn (s : State) : Host.Outcome State Fault Refusal :=
  if s.inReset || !s.status.busy then .next s
  else
    match decode s.cur with
    | .ok i => exec i s
    | .error _ => .fault (.unacceptedCommand s.cur)

/-- One event. -/
def handle (e : Event) (s : State) : Host.Outcome State Fault Refusal :=
  match e with
  | .bus t => .next (s.transact t)
  | .engine => engineTurn s
  | .assertReset => .next s.assertReset
  | .releaseReset => .next s.releaseReset

/-- One step (R7, R92). -/
def step (s : State) : Host.Outcome State Fault Refusal :=
  match s.inputs with
  | [] => engineTurn s
  | e :: es => handle e { s with inputs := es }

/-- The state in which the block has accepted the word and its completion is the next step: BUSY = 1, CUR the word (44_control.md R262), the engine's turn next, the reset input released (log 2). -/
def State.withFetchWord (s : State) (nbits w : Nat) : State :=
  { s with
    status := { s.status with busy := true }
    cur := tableWord nbits w
    inReset := false
    inputs := .engine :: s.inputs }

end Sys2Proof.Machine
end

