-- ==== Sys2Proof/Safety.lean ====
section
/-! DEFINITION. What the claims call a safe state and a bounded change. -/

namespace Sys2Proof.Machine

/-- STATUS describes an error exactly while ERR = 1, and by a code of 60_exceptions.md R301 that is produced: 1 to 6. -/
def Status.described (st : Status) : Bool :=
  if st.err then Nat.ble 1 st.errcode.toNat && Nat.ble st.errcode.toNat 6
  else st.errcode == 0#4 && st.errcmd == 0#8

/-- While BUSY = 1, CUR holds a word that the checks of its issue accept on the present operands (44_control.md R261 to R263). -/
def State.runningAccepted (s : State) : Bool := !s.status.busy || wordChecks s s.cur == .none

/-- The invariant of the block: legal parameters (00_scope.md R8), buffers in canonical form and inside their capacities (10_state.md R52 to R55), an accepted command in CUR while busy, an error described exactly while ERR = 1, LASTCNT at most NB_MAX (R46), and no draw taken twice (log 4). -/
structure Inv (s : State) : Prop where
  params : s.cfg.legal = true
  buffers : s.mem.wf s.cfg = true
  running : s.runningAccepted = true
  errors : s.status.described = true
  lastcnt : s.lastcnt.toNat ≤ s.cfg.nbMax
  drawn : s.epoch < s.draws

/-- t differs from s at most in STATUS, in the write set `ws` (44_control.md R266), and in the model's counter of draws. -/
structure SameExcept (ws : WriteSet) (s t : State) : Prop where
  cfg : t.cfg = s.cfg
  irqEn : t.irqEn = s.irqEn
  txbLen : ws.txbLen = false → t.txbLen = s.txbLen
  txsLen : ws.txsLen = false → t.txsLen = s.txsLen
  rxsLen : ws.rxsLen = false → t.rxsLen = s.rxsLen
  rxbLen : ws.rxbLen = false → t.rxbLen = s.rxbLen
  phase : t.phase = s.phase
  snr : ws.snr = false → t.snr = s.snr
  ebno : t.ebno = s.ebno
  seed : t.seed = s.seed
  rng : ws.rng = false → t.rng = s.rng
  errcnt : ws.errcnt = false → t.errcnt = s.errcnt
  bitcnt : ws.bitcnt = false → t.bitcnt = s.bitcnt
  lastcnt : ws.lastcnt = false → t.lastcnt = s.lastcnt
  ber : ws.ber = false → t.ber = s.ber
  nscale : ws.nscale = false → t.nscale = s.nscale
  bit : ∀ b i, ws.bits b ≤ i → t.bit b i = s.bit b i
  word : ∀ b j, 4 * ws.syms b ≤ j → t.symWord b j = s.symWord b j
  cur : t.cur = s.cur
  inReset : t.inReset = s.inReset
  inputs : t.inputs = s.inputs
  resp : t.resp = s.resp
  epoch : t.epoch = s.epoch

/-- STATUS after a completion that sets no other flag than DONE (44_control.md R264). -/
def Status.completed (st : Status) : Status := { st with done := true, busy := false }

/-- STATUS after a completion whose numeric validity check found something when `bad` (60_exceptions.md R310). -/
def Status.completedNum (st : Status) (bad : Bool) : Status :=
  { st with done := true, busy := false, numerr := st.numerr || bad }

/-- rng_state after n generator calls from r, in closed form (40_random.md R141: each call adds the same constant). -/
def rngAfter (n : Nat) (r : BitVec 64) : BitVec 64 := r + BitVec.ofNat 64 n * 0x9E3779B97F4A7C15#64

/-- The real number a finite encoding stands for (00_scope.md R9). -/
def fVal (x : F64) : ℚ := (if fSign x then -1 else 1) * (fSig x : ℚ) * (2 : ℚ) ^ fLsb x

/-- A binary64 result is the exact value x rounded to nearest, ties to even (00_scope.md R10): no finite value is nearer, and one equally near is no other value unless the result's last bit is 0. -/
def RoundsTo (r : F64) (x : ℚ) : Prop :=
  ∀ y, fIsFinite y = true →
    |fVal r - x| ≤ |fVal y - x| ∧ (|fVal r - x| = |fVal y - x| → fVal y ≠ fVal r → fFrac r % 2 = 0)

/-- The same of an exact value that need not be rational, as a square root (00_scope.md R14). -/
def RoundsToReal (r : F64) (x : ℝ) : Prop :=
  ∀ y, fIsFinite y = true →
    |((fVal r : ℚ) : ℝ) - x| ≤ |((fVal y : ℚ) : ℝ) - x|
      ∧ (|((fVal r : ℚ) : ℝ) - x| = |((fVal y : ℚ) : ℝ) - x| → fVal y ≠ fVal r → fFrac r % 2 = 0)

/-- The engine has the next turn: no event is left, or the first is the engine's (20_memory.md R92, 44_control.md R265). -/
def State.engineNext (s : State) : Bool := s.inputs.head?.all (· == .engine)

/-- The state whose engine takes the turn: the event is used up. -/
def State.turned (s : State) : State := { s with inputs := s.inputs.tail }

end Sys2Proof.Machine
end

