-- ==== Sys2Proof/Certificates/Slice0/Obligations.lean ====
section
/-! DEFINITION. What is claimed of the model, rule by rule. -/

open Sys2Proof Sys2Proof.Machine

/-! Encoding. -/

/-- Decoding the word of any command gives the command back, every operand and reserved bit at every value (R110 to R115). -/
def Obligations.DecodeOfEncode : Prop := ∀ i : Instr, decode (encode i) = .ok i

/-- A word that decodes is the word of the command it decodes to, and its four byte lanes decode to the same command (R88, R110, R115). -/
def Obligations.EncodeOfDecode : Prop :=
  ∀ (w : Word) (i : Instr), decode w = .ok i → encode i = w ∧ decodeBytes (bytesOfWord w) = .ok i

/-- Words written out from R119 and 95_test_vectors.md 2.1 decode to the commands they stand for. -/
def Obligations.SpecWordsDecode : Prop :=
  decode 0x00000000#32 = .ok (.nop 0) ∧ decode 0x00001402#32 = .ok (.genbits 20)
    ∧ decode 0x00000403#32 = .ok (.genNoise 4) ∧ decode 0x00000010#32 = .ok (.modBpsk 0)
    ∧ decode 0x00000220#32 = .ok (.convEbno 0 2) ∧ decode 0x00000031#32 = .ok (.berCalc 0)
    ∧ decode 0x00000110#32 = .ok (.modBpsk 1) ∧ decode 0x00000004#32 = .error (.illegalOpcode 4)

/-- R116: a CMD write with an unassigned opcode is rejected with ILLEGAL, whatever its other bits. -/
def Obligations.UnassignedOpcodesAreIllegal : Prop :=
  ∀ (s : State) (w : Word), s.status.busy = false →
    w.extractLsb' 0 8 ∉ ([0x00#8, 0x01#8, 0x02#8, 0x03#8, 0x10#8, 0x11#8, 0x18#8, 0x19#8, 0x20#8, 0x21#8,
      0x22#8, 0x30#8, 0x31#8, 0x32#8] : List Byte) →
    s.issue w = s.reject .illegal w

/-- R117: a CMD write with a legal opcode and a reserved bit set (formats N and O), or with ORD 00 or 11 (format O), is rejected with RESERVED. The last clause, that such a word decodes and that exec of it is the same rejection, is the model's choice (log 12, log 18). -/
def Obligations.ReservedFieldsAreRejected : Prop :=
  ∀ (s : State) (w : Word), s.status.busy = false →
    (w.extractLsb' 0 8 ∈ ([0x00#8, 0x01#8, 0x10#8, 0x11#8, 0x18#8, 0x19#8, 0x21#8, 0x22#8, 0x30#8, 0x31#8,
        0x32#8] : List Byte) ∧ w.extractLsb' 8 24 ≠ 0#24
      ∨ w.extractLsb' 0 8 = 0x20#8
        ∧ (w.extractLsb' 10 22 ≠ 0#22 ∨ w.extractLsb' 8 2 = 0#2 ∨ w.extractLsb' 8 2 = 3#2)) →
    s.issue w = s.reject .reserved w
      ∧ ∃ i, decode w = .ok i ∧ exec i s = .next (s.reject .reserved w)

/-! The life of a command. -/

/-- R303: the checks of each well-formed command, in the order of the table. -/
def Obligations.ChecksFollowTheTable : Prop :=
  ∀ s : State,
    (∀ i ∈ ([.nop 0, .seed 0, .convEbno 0 1, .convEbno 0 2, .berCalc 0, .clrAcc 0] : List Instr),
        checks s i = .none)
    ∧ (∀ c, checks s (.genbits c) = if s.cfg.nbMax < c.toNat then .range else .none)
    ∧ (∀ c, checks s (.genNoise c) = if s.cfg.nsMax < c.toNat then .range else .none)
    ∧ (checks s (.modBpsk 0) = if s.cfg.nbMax < s.txbLen.toNat then .range
        else if s.cfg.nsMax < s.txbLen.toNat then .range else .none)
    ∧ (checks s (.modQpsk 0) = if s.cfg.nbMax < s.txbLen.toNat then .range
        else if s.txbLen.getLsbD 0 = true then .oddLength
        else if s.cfg.nsMax < s.txbLen.toNat / 2 then .range else .none)
    ∧ (checks s (.demodBpsk 0) = if s.cfg.nsMax < s.rxsLen.toNat then .range
        else if s.cfg.nbMax < s.rxsLen.toNat then .range else .none)
    ∧ (checks s (.demodQpsk 0) = if s.cfg.nsMax < s.rxsLen.toNat then .range
        else if s.cfg.nbMax < 2 * s.rxsLen.toNat then .range else .none)
    ∧ (checks s (.addNoise 0) = if s.cfg.nsMax < s.txsLen.toNat then .range else .none)
    ∧ (checks s (.bypass 0) = if s.cfg.nsMax < s.txsLen.toNat then .range else .none)
    ∧ (checks s (.countErr 0) = if s.cfg.nbMax < s.txbLen.toNat then .range
        else if s.cfg.nbMax < s.rxbLen.toNat then .range
        else if s.txbLen ≠ s.rxbLen then .lenMismatch else .none)

/-- R261: a CMD write while busy is rejected with BUSY; otherwise the first failing check rejects it, and a word that passes is accepted: BUSY <- 1, CUR <- w, nothing else. The checks read the word, the length registers, NB_MAX and NS_MAX alone. -/
def Obligations.IssueAcceptsOrRejects : Prop :=
  ∀ (s : State) (w : Word),
    (s.status.busy = true → s.issue w = s.reject .busy w)
    ∧ (s.status.busy = false → wordChecks s w ≠ .none → s.issue w = s.reject (wordChecks s w) w)
    ∧ (s.status.busy = false → wordChecks s w = .none →
        s.issue w = { s with status := { s.status with busy := true }, cur := w })
    ∧ (s.inReset = false → s.transact (.write 4 (s.cfg.base + 0x014) w)
        = { s.issue w with resp := .some ⟨true, 0#32⟩ })
    ∧ ∀ t : State, t.cfg.nbMax = s.cfg.nbMax → t.cfg.nsMax = s.cfg.nsMax → t.txbLen = s.txbLen →
        t.txsLen = s.txsLen → t.rxsLen = s.rxsLen → t.rxbLen = s.rxbLen → wordChecks t w = wordChecks s w

/-- R304 and R305: a CMD write that is rejected changes STATUS alone, and of it ERR, ERRCODE and ERRCMD where ERR was 0, ERR_OVF where ERR was 1. The codes are those of R301. -/
def Obligations.RejectionIsPrecise : Prop :=
  ∀ (s : State) (w : Word) (code : BitVec 4),
    (s.status.busy = true ∧ code = 3#4
      ∨ s.status.busy = false ∧ (wordChecks s w, code) ∈ ([(.illegal, 1#4), (.reserved, 2#4), (.range, 4#4),
          (.oddLength, 5#4), (.lenMismatch, 6#4)] : List (ErrCode × BitVec 4))) →
    (s.status.err = false → s.issue w = { s with status := { s.status with
        err := true, errcode := code, errcmd := w.extractLsb' 0 8 } })
    ∧ (s.status.err = true → s.issue w = { s with status := { s.status with errOvf := true } })

/-- The engine's turn runs the command in CUR: where the latched word decodes, the step is exec of the command at that state, the event used up (R262 to R264; the turn itself is log 1). A step with a transaction first performs it and nothing else (R90, R92). -/
def Obligations.StepRunsTheAcceptedCommand : Prop :=
  (∀ (s : State) (i : Instr), s.engineNext = true → s.inReset = false → s.status.busy = true →
    decode s.cur = .ok i → step s = exec i s.turned)
  ∧ ∀ (s : State) (t : Transaction) (es : List Event), s.inputs = .bus t :: es →
    step s = .next ({ s with inputs := es }.transact t)

/-- A word placed for the next step is the command that step runs (log 2). -/
def Obligations.StepRunsThePlacedWord : Prop :=
  ∀ (s : State) (w : Nat) (i : Instr), decodeTableWord 32 w = .some i →
    step (s.withFetchWord 32 w) = exec i { s with
      status := { s.status with busy := true }, cur := encode i, inReset := false }

/-- R265: in a safe state the completion of an accepted command is taken whenever the engine has the turn: DONE is set and BUSY cleared (R264). -/
def Obligations.AcceptedCommandsComplete : Prop :=
  ∀ s : State, Inv s → s.engineNext = true → s.inReset = false → s.status.busy = true →
    ∃ t, step s = .next t ∧ t.status.busy = false ∧ t.status.done = true ∧ t.inputs = s.inputs.tail

/-- An idle engine does nothing until a host write (R323, R341). -/
def Obligations.IdleEngineWaits : Prop :=
  ∀ s : State, s.engineNext = true → s.status.busy = false → step s = .next s.turned

/-- R266: nothing outside the command's write set and STATUS changes at its completion; of STATUS only DONE, BUSY, NUMERR and ACC_OVF do (R264). -/
def Obligations.CompletionStaysInTheWriteSet : Prop :=
  ∀ (i : Instr) (s : State), checks s i = .none →
    ∃ t, exec i s = .next t ∧ SameExcept (writeSet s i) s t
      ∧ ∃ n a, t.status = { s.status with
          done := true, busy := false, numerr := s.status.numerr || n, accOvf := s.status.accOvf || a }

/-- The invariant holds right after reset. -/
def Obligations.InvHoldsAtReset : Prop := Inv State.reset

/-- Every step of a safe state leads to a safe state. -/
def Obligations.StepKeepsInv : Prop := ∀ s t : State, Inv s → step s = .next t → Inv t

/-- A safe state has a next state: no transaction, command or reset event stops the block. -/
def Obligations.SafeStatesGoOn : Prop := ∀ s : State, Inv s → ∃ t, step s = .next t

/-- R262, R263 and R268: while a command runs, a transaction that does not abort it leaves every operand as it stood at the issue: only STATUS, IRQ_EN, the answer and the counter of draws may differ. -/
def Obligations.OperandsAreFrozenWhileBusy : Prop :=
  ∀ (s : State) (t : Transaction), s.status.busy = true → (s.transact t).status.busy = true →
    s.transact t = { s with
      status := (s.transact t).status
      irqEn := (s.transact t).irqEn
      resp := (s.transact t).resp
      draws := (s.transact t).draws }

/-- R57: DONE, ERR, ERR_OVF, NUMERR, ACC_OVF and WBUSY are sticky: a step that clears one is a host write of 1 to its STATUS bit, a soft reset, or the release of the reset input. -/
def Obligations.FlagsAreSticky : Prop :=
  ∀ s t : State, step s = .next t →
    ∀ e ∈ ([(1, Status.done), (2, Status.err), (3, Status.errOvf), (4, Status.numerr), (5, Status.accOvf),
        (6, Status.wbusy)] : List (Nat × (Status → Bool))),
      e.2 s.status = true → e.2 t.status = false →
      s.inputs.head? = .some .releaseReset
        ∨ ∃ addr v, s.inputs.head? = .some (.bus (.write 4 addr v))
            ∧ (addr = s.cfg.base + 0x018 ∧ v.getLsbD e.1 = true
              ∨ addr = s.cfg.base + 0x010 ∧ v.getLsbD 0 = true)

/-- R57: BUSY is set only by an accepting CMD write and cleared only by the completion or a reset. -/
def Obligations.BusyIsTheEngines : Prop :=
  ∀ s t : State, step s = .next t →
    (s.status.busy = false → t.status.busy = true →
      ∃ w, s.inputs.head? = .some (.bus (.write 4 (s.cfg.base + 0x014) w)) ∧ wordChecks s w = .none
        ∧ t.cur = w)
    ∧ (s.status.busy = true → t.status.busy = false →
      s.engineNext = true ∨ s.inputs.head? = .some .releaseReset
        ∨ ∃ v, s.inputs.head? = .some (.bus (.write 4 (s.cfg.base + 0x010) v)) ∧ v.getLsbD 0 = true)

/-- R140: only the four random commands, a soft reset that aborts one of them, and a hardware reset change rng_state. -/
def Obligations.OnlyRandomCommandsMoveTheGenerator : Prop :=
  ∀ s t : State, step s = .next t → t.rng ≠ s.rng →
    s.inputs.head? = .some .releaseReset
      ∨ s.status.busy = true ∧ opcodeField s.cur ∈ ([0x01#8, 0x02#8, 0x03#8, 0x21#8] : List Byte)
        ∧ (s.engineNext = true
          ∨ ∃ v, s.inputs.head? = .some (.bus (.write 4 (s.cfg.base + 0x010) v)) ∧ v.getLsbD 0 = true)

/-- R30: the parameters are fixed for a run. -/
def Obligations.ParametersNeverChange : Prop := ∀ s t : State, step s = .next t → t.cfg = s.cfg

/-! The commands. -/

/-- R260, R150 and R232: NOP has no effect but its completion, SEED loads rng_state from SEED, CLR_ACC clears ERRCNT and BITCNT; nothing else changes, ACC_OVF included. -/
def Obligations.NopSeedAndClrAcc : Prop :=
  ∀ s : State,
    (∃ t, exec (.nop 0) s = .next t ∧ t.status = s.status.completed ∧ SameExcept {} s t)
    ∧ (∃ t, exec (.seed 0) s = .next t ∧ t.rng = s.seed ∧ t.status = s.status.completed
      ∧ SameExcept { rng := true } s t)
    ∧ ∃ t, exec (.clrAcc 0) s = .next t ∧ t.errcnt = 0#64 ∧ t.bitcnt = 0#64
      ∧ t.status = s.status.completed ∧ SameExcept { errcnt := true, bitcnt := true } s t

/-- R151 with R142 and R148: GENBITS writes bit 63 of COUNT successive generator words to TXB, sets TXB_LEN and leaves rng_state COUNT calls on. -/
def Obligations.GenbitsDrawsOneWordPerBit : Prop :=
  ∀ (s : State) (count : BitVec 24), count.toNat ≤ s.cfg.nbMax →
    ∃ t, exec (.genbits count) s = .next t
      ∧ (∀ i < count.toNat, t.bit .txb i = (rngNext (rngAfter i s.rng)).1.getLsbD 63)
      ∧ t.txbLen.toNat = count.toNat ∧ t.rng = rngAfter count.toNat s.rng
      ∧ t.status = s.status.completed
      ∧ SameExcept { txb := count.toNat, txbLen := true, rng := true } s t

/-- R152 with R148: GEN_NOISE writes COUNT scaled Gaussian pairs to RXS, the pair of symbol k from the generator 2k calls on. -/
def Obligations.GenNoiseWritesScaledPairs : Prop :=
  ∀ (s : State) (count : BitVec 24), count.toNat ≤ s.cfg.nsMax →
    ∃ t, exec (.genNoise count) s = .next t
      ∧ t.nscale = noiseScale (s.nan 0) s.snr
      ∧ (∀ k < count.toNat,
          t.sym .rxs k = (fMul (s.nan k 9) t.nscale (gaussPair (s.nan k) (rngAfter (2 * k) s.rng)).1.1,
            fMul (s.nan k 10) t.nscale (gaussPair (s.nan k) (rngAfter (2 * k) s.rng)).1.2))
      ∧ t.rxsLen.toNat = count.toNat ∧ t.rng = rngAfter (2 * count.toNat) s.rng
      ∧ (t.status.numerr = true ↔ s.status.numerr = true ∨ fIsFinite t.nscale = false
          ∨ ∃ k < count.toNat, fIsFinite (t.sym .rxs k).1 = false ∨ fIsFinite (t.sym .rxs k).2 = false)
      ∧ t.status = s.status.completedNum t.status.numerr
      ∧ SameExcept { rxs := count.toNat, rxsLen := true, nscale := true, rng := true } s t

/-- R170: MOD_BPSK maps bit 1 to (Cos PHASE, Sin PHASE) and bit 0 to its negative; NUMERR only for a PHASE that is not finite. -/
def Obligations.ModBpskMapsBits : Prop :=
  ∀ s : State, s.txbLen.toNat ≤ s.cfg.nbMax → s.txbLen.toNat ≤ s.cfg.nsMax →
    ∃ t, exec (.modBpsk 0) s = .next t
      ∧ (∀ i < s.txbLen.toNat, t.sym .txs i = if s.bit .txb i = true then (mCos s.phase, mSin s.phase)
          else (fNeg (mCos s.phase), fNeg (mSin s.phase)))
      ∧ t.txsLen = s.txbLen
      ∧ t.status = s.status.completedNum (decide (0 < s.txbLen.toNat) && !fIsFinite s.phase)
      ∧ SameExcept { txs := s.txbLen.toNat, txsLen := true } s t

/-- R172 and R173: MOD_QPSK maps the pair (b1, b2) to (QA or its negative, QA or its negative). -/
def Obligations.ModQpskMapsPairs : Prop :=
  ∀ s : State, s.txbLen.toNat ≤ s.cfg.nbMax → s.txbLen.toNat % 2 = 0 → s.txbLen.toNat / 2 ≤ s.cfg.nsMax →
    ∃ t, exec (.modQpsk 0) s = .next t
      ∧ (∀ k < s.txbLen.toNat / 2, t.sym .txs k =
          (if s.bit .txb (2 * k) = true then fNeg cQA else cQA,
            if s.bit .txb (2 * k + 1) = true then fNeg cQA else cQA))
      ∧ t.txsLen.toNat = s.txbLen.toNat / 2 ∧ t.status = s.status.completed
      ∧ SameExcept { txs := s.txbLen.toNat / 2, txsLen := true } s t

/-- R174: DEMOD_BPSK decides 1 exactly where the projection is >= 0; NUMERR where a projection is a NaN. -/
def Obligations.DemodBpskDecidesByProjection : Prop :=
  ∀ s : State, s.rxsLen.toNat ≤ s.cfg.nsMax → s.rxsLen.toNat ≤ s.cfg.nbMax →
    ∃ t, exec (.demodBpsk 0) s = .next t ∧ ∃ p : Nat → F64,
      (∀ k, p k = fAdd (s.nan k 2) (fMul (s.nan k 0) (s.sym .rxs k).2 (mSin s.phase))
          (fMul (s.nan k 1) (s.sym .rxs k).1 (mCos s.phase)))
      ∧ (∀ k < s.rxsLen.toNat, t.bit .rxb k = fGe0 (p k))
      ∧ t.rxbLen = s.rxsLen
      ∧ (t.status.numerr = true ↔ s.status.numerr = true ∨ ∃ k < s.rxsLen.toNat, fIsNan (p k) = true)
      ∧ t.status = s.status.completedNum t.status.numerr
      ∧ SameExcept { rxb := s.rxsLen.toNat, rxbLen := true } s t

/-- R176: DEMOD_QPSK decides each component by > 0, the real part giving the first bit; NUMERR where a component is a NaN. -/
def Obligations.DemodQpskDecidesBySigns : Prop :=
  ∀ s : State, s.rxsLen.toNat ≤ s.cfg.nsMax → 2 * s.rxsLen.toNat ≤ s.cfg.nbMax →
    s.cfg.legal = true →
    ∃ t, exec (.demodQpsk 0) s = .next t
      ∧ (∀ k < s.rxsLen.toNat, t.bit .rxb (2 * k) = !fGt0 (s.sym .rxs k).1
          ∧ t.bit .rxb (2 * k + 1) = !fGt0 (s.sym .rxs k).2)
      ∧ t.rxbLen.toNat = 2 * s.rxsLen.toNat
      ∧ (t.status.numerr = true ↔ s.status.numerr = true
          ∨ ∃ k < s.rxsLen.toNat, fIsNan (s.sym .rxs k).1 = true ∨ fIsNan (s.sym .rxs k).2 = true)
      ∧ t.status = s.status.completedNum t.status.numerr
      ∧ SameExcept { rxb := 2 * s.rxsLen.toNat, rxbLen := true } s t

/-- R203: CONV_EBNO writes fl(EBNO + K) to SNR, K1 for order 1 and K2 for order 2; order 1 keeps every EBNO that is no NaN and no -0.0, and turns -0.0 into +0.0. -/
def Obligations.ConvEbnoAddsTheConstant : Prop :=
  ∀ s : State,
    (∃ t, exec (.convEbno 0 1) s = .next t ∧ t.snr = fAdd (s.nan 0 0) s.ebno 0x0000000000000000#64
      ∧ (fIsNan s.ebno = false → t.snr = if s.ebno = 0x8000000000000000#64 then 0#64 else s.ebno)
      ∧ t.status = s.status.completedNum (!fIsFinite t.snr) ∧ SameExcept { snr := true } s t)
    ∧ ∃ t, exec (.convEbno 0 2) s = .next t ∧ t.snr = fAdd (s.nan 0 0) s.ebno 0x4008151824C7587F#64
      ∧ t.status = s.status.completedNum (!fIsFinite t.snr) ∧ SameExcept { snr := true } s t

/-- R201 with R148: ADD_NOISE adds to each transmitted symbol its scaled Gaussian pair, product and sum rounded. -/
def Obligations.AddNoiseAddsScaledPairs : Prop :=
  ∀ s : State, s.txsLen.toNat ≤ s.cfg.nsMax →
    ∃ t, exec (.addNoise 0) s = .next t
      ∧ t.nscale = noiseScale (s.nan 0) s.snr
      ∧ (∀ k < s.txsLen.toNat,
          t.sym .rxs k = (fAdd (s.nan k 11) (s.sym .txs k).1
              (fMul (s.nan k 9) t.nscale (gaussPair (s.nan k) (rngAfter (2 * k) s.rng)).1.1),
            fAdd (s.nan k 12) (s.sym .txs k).2
              (fMul (s.nan k 10) t.nscale (gaussPair (s.nan k) (rngAfter (2 * k) s.rng)).1.2)))
      ∧ t.rxsLen = s.txsLen ∧ t.rng = rngAfter (2 * s.txsLen.toNat) s.rng
      ∧ (t.status.numerr = true ↔ s.status.numerr = true ∨ fIsFinite t.nscale = false
          ∨ ∃ k < s.txsLen.toNat, fIsFinite (t.sym .rxs k).1 = false ∨ fIsFinite (t.sym .rxs k).2 = false)
      ∧ t.status = s.status.completedNum t.status.numerr
      ∧ SameExcept { rxs := s.txsLen.toNat, rxsLen := true, nscale := true, rng := true } s t

/-- R202: BYPASS copies the transmitted symbols bit for bit. -/
def Obligations.BypassCopiesSymbols : Prop :=
  ∀ s : State, s.txsLen.toNat ≤ s.cfg.nsMax →
    ∃ t, exec (.bypass 0) s = .next t
      ∧ (∀ k < s.txsLen.toNat, t.sym .rxs k = s.sym .txs k) ∧ t.rxsLen = s.txsLen
      ∧ (t.status.numerr = true ↔ s.status.numerr = true
          ∨ ∃ k < s.txsLen.toNat, fIsFinite (s.sym .txs k).1 = false ∨ fIsFinite (s.sym .txs k).2 = false)
      ∧ t.status = s.status.completedNum t.status.numerr
      ∧ SameExcept { rxs := s.txsLen.toNat, rxsLen := true } s t

/-- R230: COUNT_ERR counts the differing positions into LASTCNT and adds them and the length to the accumulators, which wrap and then set ACC_OVF. -/
def Obligations.CountErrAccumulates : Prop :=
  ∀ s : State, s.txbLen.toNat ≤ s.cfg.nbMax → s.txbLen = s.rxbLen →
    ∃ t, exec (.countErr 0) s = .next t ∧ ∃ m : Nat,
      m = ((Finset.range s.txbLen.toNat).filter (fun i => s.bit .txb i ≠ s.bit .rxb i)).card
      ∧ t.lastcnt.toNat = m
      ∧ t.errcnt.toNat = (s.errcnt.toNat + m) % 2 ^ 64
      ∧ t.bitcnt.toNat = (s.bitcnt.toNat + s.txbLen.toNat) % 2 ^ 64
      ∧ t.status = { s.status.completed with
          accOvf := s.status.accOvf
            || decide (2 ^ 64 ≤ s.errcnt.toNat + m ∨ 2 ^ 64 ≤ s.bitcnt.toNat + s.txbLen.toNat) }
      ∧ SameExcept { lastcnt := true, errcnt := true, bitcnt := true } s t

/-- R231: BER_CALC writes fl(cvt(ERRCNT) / cvt(BITCNT)); 0/0 is a quiet NaN with NUMERR, x/0 is +inf with NUMERR, 0/x is +0.0. -/
def Obligations.BerCalcDivides : Prop :=
  ∀ s : State, ∃ t, exec (.berCalc 0) s = .next t
    ∧ t.ber = fDiv (s.nan 0 0) (fCvt s.errcnt) (fCvt s.bitcnt)
    ∧ (s.errcnt = 0#64 → s.bitcnt = 0#64 → fIsQuietNan t.ber = true ∧ t.status.numerr = true)
    ∧ (s.errcnt ≠ 0#64 → s.bitcnt = 0#64 → t.ber = fInf false ∧ t.status.numerr = true)
    ∧ (s.errcnt = 0#64 → s.bitcnt ≠ 0#64 → t.ber = 0#64)
    ∧ t.status = s.status.completedNum (!fIsFinite t.ber)
    ∧ SameExcept { ber := true } s t

/-- R233: a COUNT_ERR that leaves ACC_OVF clear keeps ERRCNT <= BITCNT. -/
def Obligations.ErrorsNeverExceedBits : Prop :=
  ∀ s t : State, s.errcnt.toNat ≤ s.bitcnt.toNat → exec (.countErr 0) s = .next t →
    t.status.accOvf = false → t.errcnt.toNat ≤ t.bitcnt.toNat

/-- R175: with any finite PHASE, MOD_BPSK, BYPASS and DEMOD_BPSK give the transmitted bits back; with a PHASE that is a NaN or an infinity every bit comes back 0. -/
def Obligations.BpskRoundTrip : Prop :=
  ∀ s : State, s.txbLen.toNat ≤ s.cfg.nbMax → s.txbLen.toNat ≤ s.cfg.nsMax →
    ∃ t u v, exec (.modBpsk 0) s = .next t ∧ exec (.bypass 0) t = .next u ∧ exec (.demodBpsk 0) u = .next v
      ∧ v.rxbLen = s.txbLen
      ∧ (fIsFinite s.phase = true → ∀ i < s.txbLen.toNat, v.bit .rxb i = s.bit .txb i)
      ∧ (fIsFinite s.phase = false → ∀ i < s.txbLen.toNat, v.bit .rxb i = false)

/-- R177 (b): MOD_QPSK, BYPASS and DEMOD_QPSK give an even number of transmitted bits back. -/
def Obligations.QpskRoundTrip : Prop :=
  ∀ s : State, s.txbLen.toNat % 2 = 0 → s.txbLen.toNat ≤ s.cfg.nbMax → s.txbLen.toNat / 2 ≤ s.cfg.nsMax →
    ∃ t u v, exec (.modQpsk 0) s = .next t ∧ exec (.bypass 0) t = .next u ∧ exec (.demodQpsk 0) u = .next v
      ∧ v.rxbLen = s.txbLen ∧ ∀ i < s.txbLen.toNat, v.bit .rxb i = s.bit .txb i

/-! Numbers. -/

/-- R141: rng_next in arithmetic modulo 2^64, and the rule's example from 0. -/
def Obligations.GeneratorIsSplitMix64 : Prop :=
  rngNext 0#64 = (0xE220A8397B1DCDAF#64, 0x9E3779B97F4A7C15#64) ∧ ∀ r : BitVec 64, ∃ z0 z1 z2 : Nat,
    z0 = (r.toNat + 0x9E3779B97F4A7C15) % 2 ^ 64
    ∧ z1 = ((z0 ^^^ (z0 / 2 ^ 30)) * 0xBF58476D1CE4E5B9) % 2 ^ 64
    ∧ z2 = ((z1 ^^^ (z1 / 2 ^ 27)) * 0x94D049BB133111EB) % 2 ^ 64
    ∧ (rngNext r).2.toNat = z0 ∧ (rngNext r).1.toNat = z2 ^^^ (z2 / 2 ^ 31)

/-- R10: a sum or product of finite values is the exact result rounded to nearest, ties to even: finite exactly where the exact magnitude is below 2^1024 - 2^970, an infinity of the exact result's sign elsewhere. The sign of a zero is IEEE 754's (log 16): the exclusive or of the signs for a product, minus for an exact zero sum of two negative zeros only. -/
def Obligations.SumsAndProductsRoundToNearest : Prop :=
  ∀ nan a b : F64, fIsFinite a = true → fIsFinite b = true →
    (∀ e ∈ ([(fAdd nan a b, fVal a + fVal b), (fMul nan a b, fVal a * fVal b)] : List (F64 × ℚ)),
      if |e.2| < (2 : ℚ) ^ 1024 - (2 : ℚ) ^ 970 then fIsFinite e.1 = true ∧ RoundsTo e.1 e.2
      else e.1 = if e.2 < 0 then 0xFFF0000000000000#64 else 0x7FF0000000000000#64)
    ∧ (fVal a + fVal b ≠ 0 → (fSign (fAdd nan a b) = true ↔ fVal a + fVal b < 0))
    ∧ (fVal a + fVal b = 0 → fAdd nan a b
        = if fSign a = true ∧ fSign b = true then 0x8000000000000000#64 else 0#64)
    ∧ (fSign (fMul nan a b) = true ↔ fSign a ≠ fSign b)

/-- R10: a quotient of finite values, the divisor not zero, is the exact quotient rounded to nearest, ties to even: finite exactly where its magnitude is below 2^1024 - 2^970, an infinity elsewhere; its sign, of a zero too (log 16), is the exclusive or of the signs. -/
def Obligations.QuotientsRoundToNearest : Prop :=
  ∀ nan a b : F64, fIsFinite a = true → fIsFinite b = true → fIsZero b = false →
    (if |fVal a / fVal b| < (2 : ℚ) ^ 1024 - (2 : ℚ) ^ 970 then
        fIsFinite (fDiv nan a b) = true ∧ RoundsTo (fDiv nan a b) (fVal a / fVal b)
      else fDiv nan a b = if fVal a / fVal b < 0 then 0xFFF0000000000000#64 else 0x7FF0000000000000#64)
    ∧ (fSign (fDiv nan a b) = true ↔ fSign a ≠ fSign b)

/-- R15: cvt rounds to nearest, ties to even, and is exact below 2^53. -/
def Obligations.ConversionRoundsToNearest : Prop :=
  ∀ n : BitVec 64, fIsFinite (fCvt n) = true ∧ RoundsTo (fCvt n) (n.toNat : ℚ)
    ∧ (n.toNat < 2 ^ 53 → fVal (fCvt n) = (n.toNat : ℚ))

/-- R14: sqrt of a positive finite value is the real square root rounded to nearest, ties to even; of a zero or +inf it is the operand; of a negative number that is not zero, or of a NaN, it is the quiet NaN the operation draws (log 7). R20 in encodings: sqrt(2.0) = SQRT2 and ONE / SQRT2 = QA; and the energy of a QPSK symbol of R173. -/
def Obligations.NamedConstantsAgree : Prop :=
  ∀ nan : F64,
    (∀ x, fIsFinite x = true → fSign x = false → fIsZero x = false →
      fIsFinite (fSqrt nan x) = true ∧ fSign (fSqrt nan x) = false
        ∧ RoundsToReal (fSqrt nan x) (Real.sqrt ((fVal x : ℚ) : ℝ)))
    ∧ fSqrt nan 0#64 = 0#64 ∧ fSqrt nan 0x8000000000000000#64 = 0x8000000000000000#64
    ∧ fSqrt nan 0x7FF0000000000000#64 = 0x7FF0000000000000#64
    ∧ (∀ x, fIsNan x = true ∨ fSign x = true ∧ fIsZero x = false → fSqrt nan x = nan)
    ∧ fSqrt nan 0x4000000000000000#64 = cSQRT2 ∧ fDiv nan cONE cSQRT2 = cQA
    ∧ fAdd nan (fMul nan cQA cQA) (fMul nan cQA cQA) = 0x3FEFFFFFFFFFFFFE#64

/-- R16 to R19: the properties of Cos, Sin, Ln and Pow10. A value is in [-1, 1] when its magnitude is at most that of 1.0, and so on. -/
def Obligations.NumericsParametersAreAsStated : Prop :=
  (mCos 0#64 = cONE ∧ mCos 0x8000000000000000#64 = cONE
    ∧ ∀ x, if fIsFinite x = true then fIsFinite (mCos x) = true ∧ fMag (mCos x) ≤ 0x3FF0000000000000
      else fIsQuietNan (mCos x) = true)
  ∧ (mSin 0#64 = 0#64 ∧ mSin 0x8000000000000000#64 = 0x8000000000000000#64
    ∧ ∀ x, if fIsFinite x = true then fIsFinite (mSin x) = true ∧ fMag (mSin x) ≤ 0x3FF0000000000000
        ∧ (0x3FE0000000000000 ≤ fMag (mCos x) ∨ 0x3FE0000000000000 ≤ fMag (mSin x))
      else fIsQuietNan (mSin x) = true)
  ∧ (mLn cONE = 0#64
    ∧ ∀ x : F64, 0x3CA0000000000000 ≤ x.toNat → x.toNat < 0x3FF0000000000000 →
      fIsFinite (mLn x) = true ∧ (fSign (mLn x) = true ∨ fIsZero (mLn x) = true)
        ∧ fMag (mLn x) ≤ 0x4042666666666666)
  ∧ (mPow10 0#64 = cONE ∧ mPow10 0x8000000000000000#64 = cONE
    ∧ mPow10 0xFFF0000000000000#64 = 0#64 ∧ mPow10 0x7FF0000000000000#64 = 0x7FF0000000000000#64
    ∧ (∀ x, fIsNan x = true → fIsQuietNan (mPow10 x) = true)
    ∧ ∀ x, fIsFinite x = true → fIsNan (mPow10 x) = false ∧ fSign (mPow10 x) = false)

/-- R200: noise_scale is two divisions, each rounded, around Pow10; and its values that do not depend on Pow10. -/
def Obligations.NoiseScaleValues : Prop :=
  ∀ nan : Nat → F64, (∀ k, fIsQuietNan (nan k) = true) →
    (∀ x, noiseScale nan x = fDiv (nan 1) (mPow10 (fDiv (nan 0) (fNeg x) 0x4034000000000000#64))
      0x3FF6A09E667F3BCD#64)
    ∧ noiseScale nan 0#64 = cQA ∧ noiseScale nan 0x8000000000000000#64 = cQA
    ∧ noiseScale nan 0x7FF0000000000000#64 = 0#64
    ∧ noiseScale nan 0xFFF0000000000000#64 = 0x7FF0000000000000#64
    ∧ ∀ x, fIsNan x = true → fIsQuietNan (noiseScale nan x) = true

/-- R143 to R146: gauss_pair() takes two generator words, w1 then w2, gives u1 = (w1[63:11] + 1) * 2^-53 and u2 = w2[63:11] * 2^-53 exactly, and is (r * Cos th, r * Sin th) with r = sqrt(fl(MTWO * Ln u1)) and th = fl(TWO_PI * u2), each product rounded; R147: it is finite, and its components are zeros when u1 is 1.0. The numbers given to `nan` name the operations (log 7). -/
def Obligations.GaussPairsAreFinite : Prop :=
  ∀ (nan : Nat → F64) (r : BitVec 64),
    (∃ u1 u2 rad th : F64,
      fIsFinite u1 = true ∧ fSign u1 = false ∧ fVal u1 = (((rngNext r).1 >>> 11).toNat + 1 : ℚ) / 2 ^ 53
      ∧ fIsFinite u2 = true ∧ fSign u2 = false
      ∧ fVal u2 = (((rngNext (rngNext r).2).1 >>> 11).toNat : ℚ) / 2 ^ 53
      ∧ rad = fSqrt (nan 5) (fMul (nan 4) 0xC000000000000000#64 (mLn u1))
      ∧ th = fMul (nan 6) 0x401921FB54442D18#64 u2
      ∧ gaussPair nan r = ((fMul (nan 7) rad (mCos th), fMul (nan 8) rad (mSin th)), (rngNext (rngNext r).2).2))
    ∧ fIsFinite (gaussPair nan r).1.1 = true ∧ fIsFinite (gaussPair nan r).1.2 = true
    ∧ ((rngNext r).1 >>> 11 = 0x1FFFFFFFFFFFFF#64 →
        fIsZero (gaussPair nan r).1.1 = true ∧ fIsZero (gaussPair nan r).1.2 = true)

/-- R12 and R13: the comparisons on each class of values, and neg as a change of the sign bit alone. -/
def Obligations.ComparisonsAndNegation : Prop :=
  ∀ x : F64,
    (fGe0 x = true ↔ fIsNan x = false ∧ (x.getLsbD 63 = false ∨ x = 0x8000000000000000#64))
    ∧ (fGt0 x = true ↔ fIsNan x = false ∧ x.getLsbD 63 = false ∧ x ≠ 0#64)
    ∧ (fNeg x).extractLsb' 0 63 = x.extractLsb' 0 63 ∧ (fNeg x).getLsbD 63 = !x.getLsbD 63

/-! The host's side. -/

/-- R82: an illegal transaction is answered ERROR with data 0 and changes nothing; a fetch is a read. -/
def Obligations.IllegalTransactionsChangeNothing : Prop :=
  ∀ (s : State) (t : Transaction) (off : Nat), s.inReset = false → t.addr = s.cfg.base + off → off < 0x400000 →
    (t.size ≠ 4 ∨ off % 4 ≠ 0 → s.transact t = { s with resp := .some ⟨false, 0#32⟩ })
    ∧ s.transact (.fetch t.size t.addr) = s.transact (.read t.size t.addr)

/-- R269 and R51: while idle, each register reads at its offset as the table says, and the read changes nothing but the answer. -/
def Obligations.RegistersReadAtTheirOffsets : Prop :=
  ∀ s : State, s.inReset = false → s.status.busy = false →
    ∀ e ∈ ([(0x000, fun _ => 0x4250534B#32), (0x004, fun _ => 0x00010000#32),
        (0x008, fun s => BitVec.ofNat 32 s.cfg.nbMax), (0x00C, fun s => BitVec.ofNat 32 s.cfg.nsMax),
        (0x010, fun _ => 0#32), (0x014, fun _ => 0#32), (0x018, fun s => s.status.word),
        (0x01C, fun s => s.irqEn.setWidth 32), (0x020, State.txbLen), (0x024, State.txsLen),
        (0x028, State.rxsLen), (0x02C, State.rxbLen),
        (0x030, fun s => s.phase.extractLsb' 0 32), (0x034, fun s => s.phase.extractLsb' 32 32),
        (0x038, fun s => s.snr.extractLsb' 0 32), (0x03C, fun s => s.snr.extractLsb' 32 32),
        (0x040, fun s => s.ebno.extractLsb' 0 32), (0x044, fun s => s.ebno.extractLsb' 32 32),
        (0x048, fun s => s.seed.extractLsb' 0 32), (0x04C, fun s => s.seed.extractLsb' 32 32),
        (0x050, fun s => s.rng.extractLsb' 0 32), (0x054, fun s => s.rng.extractLsb' 32 32),
        (0x058, fun s => s.errcnt.extractLsb' 0 32), (0x05C, fun s => s.errcnt.extractLsb' 32 32),
        (0x060, fun s => s.bitcnt.extractLsb' 0 32), (0x064, fun s => s.bitcnt.extractLsb' 32 32),
        (0x068, State.lastcnt), (0x070, fun s => s.ber.extractLsb' 0 32),
        (0x074, fun s => s.ber.extractLsb' 32 32), (0x078, fun s => s.nscale.extractLsb' 0 32),
        (0x07C, fun s => s.nscale.extractLsb' 32 32)] : List (Nat × (State → Word))),
      s.transact (.read 4 (s.cfg.base + e.1)) = { s with resp := .some ⟨true, e.2 s⟩ }

/-- R37 to R42, R49 and R270: a write to IRQ_EN, busy or not (R268), replaces it and nothing else; while idle, a write to any other RW register replaces that register, or that half of a 64-bit register, and nothing else. -/
def Obligations.WritesReplaceOneRegister : Prop :=
  ∀ (s : State) (v : Word), s.inReset = false →
    s.transact (.write 4 (s.cfg.base + 0x01C) v) = { s with
      irqEn := v.extractLsb' 0 3, resp := .some ⟨true, 0#32⟩ }
    ∧ (s.status.busy = false → ∀ e ∈ ([(0x020, { s with txbLen := v }),
        (0x024, { s with txsLen := v }), (0x028, { s with rxsLen := v }), (0x02C, { s with rxbLen := v }),
        (0x030, { s with phase := s.phase.extractLsb' 32 32 ++ v }),
        (0x034, { s with phase := v ++ s.phase.extractLsb' 0 32 }),
        (0x038, { s with snr := s.snr.extractLsb' 32 32 ++ v }),
        (0x03C, { s with snr := v ++ s.snr.extractLsb' 0 32 }),
        (0x040, { s with ebno := s.ebno.extractLsb' 32 32 ++ v }),
        (0x044, { s with ebno := v ++ s.ebno.extractLsb' 0 32 }),
        (0x048, { s with seed := s.seed.extractLsb' 32 32 ++ v }),
        (0x04C, { s with seed := v ++ s.seed.extractLsb' 0 32 })] : List (Nat × State)),
      s.transact (.write 4 (s.cfg.base + e.1) v) = { e.2 with resp := .some ⟨true, 0#32⟩ })

/-- R50: an offset below 0x10000 that no rule assigns reads 0 and ignores writes, at any time, with an OKAY answer and no WBUSY. The same holds of the reserved regions of R83 and of the windows beyond the capacity (R84 to R87), busy or not (R268); a write to an RO register is ignored the same way (R268, R270). -/
def Obligations.ReservedOffsetsReadZeroAndIgnoreWrites : Prop :=
  ∀ (s : State) (off : Nat) (v : Word), s.inReset = false → off % 4 = 0 →
    ((off = 0x06C ∨ 0x080 ≤ off ∧ off < 0x010000
        ∨ 0x020000 ≤ off ∧ off < 0x100000 ∨ 0x300000 ≤ off ∧ off < 0x400000
        ∨ 0x010000 + 4 * (s.cfg.nbMax / 32) ≤ off ∧ off < 0x018000
        ∨ 0x018000 + 4 * (s.cfg.nbMax / 32) ≤ off ∧ off < 0x020000
        ∨ 0x100000 + 16 * s.cfg.nsMax ≤ off ∧ off < 0x200000
        ∨ 0x200000 + 16 * s.cfg.nsMax ≤ off ∧ off < 0x300000) →
      s.transact (.read 4 (s.cfg.base + off)) = { s with resp := .some ⟨true, 0#32⟩ }
      ∧ s.transact (.write 4 (s.cfg.base + off) v) = { s with resp := .some ⟨true, 0#32⟩ })
    ∧ ((off < 0x010 ∨ 0x050 ≤ off ∧ off < 0x080) →
      s.transact (.write 4 (s.cfg.base + off) v) = { s with resp := .some ⟨true, 0#32⟩ })

/-- R84 and R85: while idle, word j of a bit window reads bits 32j to 32j+31; a write of it sets them and reads back; words at and beyond the capacity read 0 and ignore writes. -/
def Obligations.BitWindowsPackThirtyTwoBits : Prop :=
  ∀ (s : State) (b : BitBuf) (base j : Nat) (v : Word), s.inReset = false → s.status.busy = false →
    s.cfg.legal = true → (b, base) ∈ ([(.txb, 0x010000), (.rxb, 0x018000)] : List (BitBuf × Nat)) → j < 8192 →
    if j < s.cfg.nbMax / 32 then
      (∃ r, s.transact (.read 4 (s.cfg.base + (base + 4 * j))) = { s with resp := .some ⟨true, r⟩ }
        ∧ ∀ i < 32, r.getLsbD i = s.bit b (32 * j + i))
      ∧ ∃ t, s.transact (.write 4 (s.cfg.base + (base + 4 * j)) v) = t
        ∧ t = { s with mem := t.mem, resp := .some ⟨true, 0#32⟩ }
        ∧ (∀ b' i, t.bit b' i = if b' = b ∧ i / 32 = j then v.getLsbD (i % 32) else s.bit b' i)
        ∧ (∀ b' i, t.symWord b' i = s.symWord b' i)
        ∧ (t.transact (.read 4 (s.cfg.base + (base + 4 * j)))).resp = .some ⟨true, v⟩
    else s.transact (.write 4 (s.cfg.base + (base + 4 * j)) v) = { s with resp := .some ⟨true, 0#32⟩ }
      ∧ s.transact (.read 4 (s.cfg.base + (base + 4 * j))) = { s with resp := .some ⟨true, 0#32⟩ }

/-- R86 and R87: while idle, part p of symbol k of a symbol window reads those 32 bits of the symbol; a write of it replaces them and reads back; symbols at and beyond the capacity read 0 and ignore writes. -/
def Obligations.SymbolWindowsHoldFourWords : Prop :=
  ∀ (s : State) (b : SymBuf) (base k p : Nat) (v : Word), s.inReset = false → s.status.busy = false →
    s.cfg.legal = true → (b, base) ∈ ([(.txs, 0x100000), (.rxs, 0x200000)] : List (SymBuf × Nat)) →
    k < 65536 → p < 4 →
    if k < s.cfg.nsMax then
      s.transact (.read 4 (s.cfg.base + (base + 16 * k + 4 * p))) = { s with resp := .some ⟨true,
        if p = 0 then (s.sym b k).1.extractLsb' 0 32 else if p = 1 then (s.sym b k).1.extractLsb' 32 32
        else if p = 2 then (s.sym b k).2.extractLsb' 0 32 else (s.sym b k).2.extractLsb' 32 32⟩ }
      ∧ ∃ t, s.transact (.write 4 (s.cfg.base + (base + 16 * k + 4 * p)) v) = t
        ∧ t = { s with mem := t.mem, resp := .some ⟨true, 0#32⟩ }
        ∧ (∀ b' i, t.bit b' i = s.bit b' i)
        ∧ (∀ b' i, b' ≠ b ∨ i ≠ k → t.sym b' i = s.sym b' i)
        ∧ t.sym b k = (if p = 0 then ((s.sym b k).1.extractLsb' 32 32 ++ v, (s.sym b k).2)
            else if p = 1 then (v ++ (s.sym b k).1.extractLsb' 0 32, (s.sym b k).2)
            else if p = 2 then ((s.sym b k).1, (s.sym b k).2.extractLsb' 32 32 ++ v)
            else ((s.sym b k).1, v ++ (s.sym b k).2.extractLsb' 0 32))
        ∧ (t.transact (.read 4 (s.cfg.base + (base + 16 * k + 4 * p)))).resp = .some ⟨true, v⟩
    else s.transact (.write 4 (s.cfg.base + (base + 16 * k + 4 * p)) v) = { s with resp := .some ⟨true, 0#32⟩ }
      ∧ s.transact (.read 4 (s.cfg.base + (base + 16 * k + 4 * p))) = { s with resp := .some ⟨true, 0#32⟩ }

/-- R268: while BUSY = 1 a host write to a busy-protected place is ignored, sets WBUSY and is answered OKAY. -/
def Obligations.BusyProtectedWritesAreIgnored : Prop :=
  ∀ (s : State) (off : Nat) (v : Word), s.inReset = false → s.status.busy = true → s.cfg.legal = true →
    off % 4 = 0 →
    (0x020 ≤ off ∧ off < 0x050
      ∨ 0x010000 ≤ off ∧ off < 0x010000 + s.cfg.nbMax / 8 ∨ 0x018000 ≤ off ∧ off < 0x018000 + s.cfg.nbMax / 8
      ∨ 0x100000 ≤ off ∧ off < 0x100000 + 16 * s.cfg.nsMax
      ∨ 0x200000 ≤ off ∧ off < 0x200000 + 16 * s.cfg.nsMax) →
    s.transact (.write 4 (s.cfg.base + off) v) = { s with
      status := { s.status with wbusy := true }, resp := .some ⟨true, 0#32⟩ }

/-- R91: no read has a side effect: it changes only the answer and, where it draws, the counter of draws; while idle it draws nothing. -/
def Obligations.ReadsHaveNoSideEffect : Prop :=
  ∀ (s : State) (size addr : Nat), ∃ r d, s.transact (.read size addr) = { s with resp := r, draws := d }
    ∧ (s.status.busy = false → d = s.draws)

/-- R267 with the table of R266: while a command runs, a read is exact, bit by bit, outside the command's write set and drawn inside it (a free value, log 9); while idle it is exact. What a read answers is readValue at the target of its offset, and the exact value of a target is that of the idle block, which RegistersReadAtTheirOffsets and the window statements give. -/
def Obligations.BusyReadsAreExactOutsideTheWriteSet : Prop :=
  ∀ (s : State) (t : Target) (i : Nat),
    (s.readValue t).getLsbD i = (if (s.drawnBits t).getLsbD i = true then (Config.freeRead s.draws).getLsbD i
      else (s.exactRead t).getLsbD i)
    ∧ (s.status.busy = false → (s.drawnBits t).getLsbD i = false)
    ∧ (s.status.busy = true → ∀ w, decode s.cur = .ok w → i < 32 →
        (∀ b j, t = .bitWord b j → ((s.drawnBits t).getLsbD i = true ↔ 32 * j + i < match w, b with
          | .genbits c, .txb => c.toNat
          | .demodBpsk _, .rxb => s.rxsLen.toNat
          | .demodQpsk _, .rxb => 2 * s.rxsLen.toNat
          | _, _ => 0))
        ∧ (∀ b j, t = .symWord b j → ((s.drawnBits t).getLsbD i = true ↔ j / 4 < match w, b with
          | .genNoise c, .rxs => c.toNat
          | .modBpsk _, .txs => s.txbLen.toNat
          | .modQpsk _, .txs => s.txbLen.toNat / 2
          | .addNoise _, .rxs => s.txsLen.toNat
          | .bypass _, .rxs => s.txsLen.toNat
          | _, _ => 0))
        ∧ (∀ r, t = .reg r → ((s.drawnBits t).getLsbD i = true ↔ r ∈ (match w with
          | .nop _ => []
          | .seed _ => [.rngLo, .rngHi]
          | .genbits _ => [.txbLen, .rngLo, .rngHi]
          | .genNoise _ => [.rxsLen, .nscaleLo, .nscaleHi, .rngLo, .rngHi]
          | .modBpsk _ => [.txsLen]
          | .modQpsk _ => [.txsLen]
          | .demodBpsk _ => [.rxbLen]
          | .demodQpsk _ => [.rxbLen]
          | .convEbno _ _ => [.snrLo, .snrHi]
          | .addNoise _ => [.rxsLen, .nscaleLo, .nscaleHi, .rngLo, .rngHi]
          | .bypass _ => [.rxsLen]
          | .countErr _ => [.lastcnt, .errcntLo, .errcntHi, .bitcntLo, .bitcntHi]
          | .berCalc _ => [.berLo, .berHi]
          | .clrAcc _ => [.errcntLo, .errcntHi, .bitcntLo, .bitcntHi] : List Reg)))
        ∧ (t = .reserved → (s.drawnBits t).getLsbD i = false))
    ∧ (∀ off, s.inReset = false → off < 0x400000 → off % 4 = 0 → ∃ d,
        s.transact (.read 4 (s.cfg.base + off)) = { s with
          resp := .some ⟨true, s.readValue (targetAt s.cfg off)⟩, draws := d })
    ∧ s.exactRead t = (if t = .reg .status then s.status.word
        else { s with status := { s.status with busy := false } }.exactRead t)
    ∧ (∀ e ∈ ([(0x000, .id), (0x004, .version), (0x008, .capBits), (0x00C, .capSyms), (0x010, .ctrl),
        (0x014, .cmd), (0x018, .status), (0x01C, .irqEn), (0x020, .txbLen), (0x024, .txsLen), (0x028, .rxsLen),
        (0x02C, .rxbLen), (0x030, .phaseLo), (0x034, .phaseHi), (0x038, .snrLo), (0x03C, .snrHi),
        (0x040, .ebnoLo), (0x044, .ebnoHi), (0x048, .seedLo), (0x04C, .seedHi), (0x050, .rngLo),
        (0x054, .rngHi), (0x058, .errcntLo), (0x05C, .errcntHi), (0x060, .bitcntLo), (0x064, .bitcntHi),
        (0x068, .lastcnt), (0x070, .berLo), (0x074, .berHi), (0x078, .nscaleLo), (0x07C, .nscaleHi)]
          : List (Nat × Reg)), targetAt s.cfg e.1 = .reg e.2)
    ∧ (∀ j, j < s.cfg.nbMax / 32 → j < 8192 → targetAt s.cfg (0x010000 + 4 * j) = .bitWord .txb j
        ∧ targetAt s.cfg (0x018000 + 4 * j) = .bitWord .rxb j)
    ∧ (∀ j, j < 4 * s.cfg.nsMax → j < 262144 → targetAt s.cfg (0x100000 + 4 * j) = .symWord .txs j
        ∧ targetAt s.cfg (0x200000 + 4 * j) = .symWord .rxs j)

/-- R306 with R36: a STATUS write of 1 to ERR clears ERR, ERRCODE and ERRCMD in one step, a 1 in another W1C bit clears that bit, and nothing else changes. -/
def Obligations.StatusWritesClearWhatTheyName : Prop :=
  ∀ (s : State) (v : Word), s.inReset = false →
    s.transact (.write 4 (s.cfg.base + 0x018) v) = { s with
      resp := .some ⟨true, 0#32⟩
      status := {
        busy := s.status.busy
        done := if v.getLsbD 1 = true then false else s.status.done
        err := if v.getLsbD 2 = true then false else s.status.err
        errOvf := if v.getLsbD 3 = true then false else s.status.errOvf
        numerr := if v.getLsbD 4 = true then false else s.status.numerr
        accOvf := if v.getLsbD 5 = true then false else s.status.accOvf
        wbusy := if v.getLsbD 6 = true then false else s.status.wbusy
        errcode := if v.getLsbD 2 = true then 0#4 else s.status.errcode
        errcmd := if v.getLsbD 2 = true then 0#8 else s.status.errcmd } }

/-- R36: where each field of STATUS stands in the word the host reads, and that the reserved bits read 0. -/
def Obligations.StatusWordLayout : Prop :=
  ∀ st : Status, st.word.getLsbD 0 = st.busy ∧ st.word.getLsbD 1 = st.done ∧ st.word.getLsbD 2 = st.err
    ∧ st.word.getLsbD 3 = st.errOvf ∧ st.word.getLsbD 4 = st.numerr ∧ st.word.getLsbD 5 = st.accOvf
    ∧ st.word.getLsbD 6 = st.wbusy ∧ st.word.getLsbD 7 = false ∧ st.word.extractLsb' 8 4 = st.errcode
    ∧ st.word.extractLsb' 12 4 = 0#4 ∧ st.word.extractLsb' 16 8 = st.errcmd ∧ st.word.extractLsb' 24 8 = 0#8

/-- R315: the interrupt output in terms of the STATUS word and IRQ_EN. -/
def Obligations.InterruptLine : Prop :=
  ∀ s : State, (s.irq = true ↔
    (s.status.word.getLsbD 1 = true ∧ s.irqEn.getLsbD 0 = true)
    ∨ ((s.status.word.getLsbD 2 = true ∨ s.status.word.getLsbD 3 = true ∨ s.status.word.getLsbD 5 = true
        ∨ s.status.word.getLsbD 6 = true) ∧ s.irqEn.getLsbD 1 = true)
    ∨ (s.status.word.getLsbD 4 = true ∧ s.irqEn.getLsbD 2 = true))

/-! Reset. -/

/-- R342: a CTRL write with bit 0 set while idle resets every register but RNG and keeps rng_state and the buffers; with bit 0 clear it does nothing (R34). -/
def Obligations.SoftResetKeepsGeneratorAndBuffers : Prop :=
  ∀ (s : State) (v : Word), s.inReset = false →
    (v.getLsbD 0 = true → s.status.busy = false →
      s.transact (.write 4 (s.cfg.base + 0x010) v) = { s with
        status := Status.zero, irqEn := 0#3, txbLen := 0#32, txsLen := 0#32, rxsLen := 0#32, rxbLen := 0#32
        phase := 0#64, snr := 0#64, ebno := 0#64, seed := 0#64, errcnt := 0#64, bitcnt := 0#64, lastcnt := 0#32
        ber := 0#64, nscale := 0#64, resp := .some ⟨true, 0#32⟩ })
    ∧ (v.getLsbD 0 = false →
      s.transact (.write 4 (s.cfg.base + 0x010) v) = { s with resp := .some ⟨true, 0#32⟩ })

/-- R343: a soft reset while busy abandons the command: every register is reset, DONE is not set, the buffer elements and the rng_state of its write set are draws, everything else of them is kept. The form of the draws and their counter (log 4), the one draw for the whole write set (log 10), CUR kept (log 6) and the data of the answer (log 15) are the model's choices. -/
def Obligations.SoftResetAbandonsTheCommand : Prop :=
  ∀ (s : State) (v : Word) (i : Instr), s.inReset = false → v.getLsbD 0 = true → s.status.busy = true →
    decode s.cur = .ok i →
    ∃ t, s.transact (.write 4 (s.cfg.base + 0x010) v) = t
      ∧ t = { s with
          status := Status.zero, irqEn := 0#3, txbLen := 0#32, txsLen := 0#32, rxsLen := 0#32, rxbLen := 0#32
          phase := 0#64, snr := 0#64, ebno := 0#64, seed := 0#64, errcnt := 0#64, bitcnt := 0#64
          lastcnt := 0#32, ber := 0#64, nscale := 0#64, resp := .some ⟨true, 0#32⟩
          mem := t.mem, draws := s.draws + 1
          rng := if (writeSet s i).rng = true then Config.freeRng s.draws else s.rng }
      ∧ (∀ b k, t.bit b k = if k < (writeSet s i).bits b then Config.freeBit s.draws b k else s.bit b k)
      ∧ ∀ b k, t.symWord b k = if k < 4 * (writeSet s i).syms b then Config.freeSymWord s.draws b k
          else s.symWord b k

/-- R340: while the reset input is asserted no transaction is answered and no command completes; its release gives every register its reset value and draws rng_state and every buffer element anew. -/
def Obligations.HardwareResetDrawsAnew : Prop :=
  ∀ s : State, s.inReset = true →
    (∀ t, s.transact t = { s with resp := .none }) ∧ (s.engineNext = true → step s = .next s.turned)
    ∧ ∀ es, s.inputs = .releaseReset :: es → ∃ t, step s = .next t
      ∧ t = { cfg := s.cfg, status := Status.zero, irqEn := 0#3, txbLen := 0#32, txsLen := 0#32, rxsLen := 0#32
              rxbLen := 0#32, phase := 0#64, snr := 0#64, ebno := 0#64, seed := 0#64
              rng := Config.freeRng s.draws, errcnt := 0#64, bitcnt := 0#64, lastcnt := 0#32, ber := 0#64
              nscale := 0#64, mem := t.mem, cur := t.cur, inReset := false, inputs := es, resp := .none
              draws := s.draws + 1, epoch := s.draws }
      ∧ (∀ b i, t.bit b i = Config.freeBit s.draws b i)
      ∧ (∀ b j, t.symWord b j = Config.freeSymWord s.draws b j) ∧ t.irq = false
end

