-- ==== Sys2Proof/Laws/State.lean ====
section
/-! SUPPORT. One lemma for each field of State under each named update, so that no proof unfolds an update. -/

namespace Sys2Proof.Machine
section flagNumerr
variable (s : State) (b : Bool)
@[simp] theorem flagNumerr_cfg : (s.flagNumerr b).cfg = s.cfg := rfl
@[simp] theorem flagNumerr_status : (s.flagNumerr b).status = { s.status with numerr := s.status.numerr || b } := rfl
@[simp] theorem flagNumerr_irqEn : (s.flagNumerr b).irqEn = s.irqEn := rfl
@[simp] theorem flagNumerr_txbLen : (s.flagNumerr b).txbLen = s.txbLen := rfl
@[simp] theorem flagNumerr_txsLen : (s.flagNumerr b).txsLen = s.txsLen := rfl
@[simp] theorem flagNumerr_rxsLen : (s.flagNumerr b).rxsLen = s.rxsLen := rfl
@[simp] theorem flagNumerr_rxbLen : (s.flagNumerr b).rxbLen = s.rxbLen := rfl
@[simp] theorem flagNumerr_phase : (s.flagNumerr b).phase = s.phase := rfl
@[simp] theorem flagNumerr_snr : (s.flagNumerr b).snr = s.snr := rfl
@[simp] theorem flagNumerr_ebno : (s.flagNumerr b).ebno = s.ebno := rfl
@[simp] theorem flagNumerr_seed : (s.flagNumerr b).seed = s.seed := rfl
@[simp] theorem flagNumerr_rng : (s.flagNumerr b).rng = s.rng := rfl
@[simp] theorem flagNumerr_errcnt : (s.flagNumerr b).errcnt = s.errcnt := rfl
@[simp] theorem flagNumerr_bitcnt : (s.flagNumerr b).bitcnt = s.bitcnt := rfl
@[simp] theorem flagNumerr_lastcnt : (s.flagNumerr b).lastcnt = s.lastcnt := rfl
@[simp] theorem flagNumerr_ber : (s.flagNumerr b).ber = s.ber := rfl
@[simp] theorem flagNumerr_nscale : (s.flagNumerr b).nscale = s.nscale := rfl
@[simp] theorem flagNumerr_mem : (s.flagNumerr b).mem = s.mem := rfl
@[simp] theorem flagNumerr_cur : (s.flagNumerr b).cur = s.cur := rfl
@[simp] theorem flagNumerr_inReset : (s.flagNumerr b).inReset = s.inReset := rfl
@[simp] theorem flagNumerr_inputs : (s.flagNumerr b).inputs = s.inputs := rfl
@[simp] theorem flagNumerr_resp : (s.flagNumerr b).resp = s.resp := rfl
@[simp] theorem flagNumerr_draws : (s.flagNumerr b).draws = s.draws := rfl
@[simp] theorem flagNumerr_epoch : (s.flagNumerr b).epoch = s.epoch := rfl
end flagNumerr

section flagAccOvf
variable (s : State) (b : Bool)
@[simp] theorem flagAccOvf_cfg : (s.flagAccOvf b).cfg = s.cfg := rfl
@[simp] theorem flagAccOvf_status : (s.flagAccOvf b).status = { s.status with accOvf := s.status.accOvf || b } := rfl
@[simp] theorem flagAccOvf_irqEn : (s.flagAccOvf b).irqEn = s.irqEn := rfl
@[simp] theorem flagAccOvf_txbLen : (s.flagAccOvf b).txbLen = s.txbLen := rfl
@[simp] theorem flagAccOvf_txsLen : (s.flagAccOvf b).txsLen = s.txsLen := rfl
@[simp] theorem flagAccOvf_rxsLen : (s.flagAccOvf b).rxsLen = s.rxsLen := rfl
@[simp] theorem flagAccOvf_rxbLen : (s.flagAccOvf b).rxbLen = s.rxbLen := rfl
@[simp] theorem flagAccOvf_phase : (s.flagAccOvf b).phase = s.phase := rfl
@[simp] theorem flagAccOvf_snr : (s.flagAccOvf b).snr = s.snr := rfl
@[simp] theorem flagAccOvf_ebno : (s.flagAccOvf b).ebno = s.ebno := rfl
@[simp] theorem flagAccOvf_seed : (s.flagAccOvf b).seed = s.seed := rfl
@[simp] theorem flagAccOvf_rng : (s.flagAccOvf b).rng = s.rng := rfl
@[simp] theorem flagAccOvf_errcnt : (s.flagAccOvf b).errcnt = s.errcnt := rfl
@[simp] theorem flagAccOvf_bitcnt : (s.flagAccOvf b).bitcnt = s.bitcnt := rfl
@[simp] theorem flagAccOvf_lastcnt : (s.flagAccOvf b).lastcnt = s.lastcnt := rfl
@[simp] theorem flagAccOvf_ber : (s.flagAccOvf b).ber = s.ber := rfl
@[simp] theorem flagAccOvf_nscale : (s.flagAccOvf b).nscale = s.nscale := rfl
@[simp] theorem flagAccOvf_mem : (s.flagAccOvf b).mem = s.mem := rfl
@[simp] theorem flagAccOvf_cur : (s.flagAccOvf b).cur = s.cur := rfl
@[simp] theorem flagAccOvf_inReset : (s.flagAccOvf b).inReset = s.inReset := rfl
@[simp] theorem flagAccOvf_inputs : (s.flagAccOvf b).inputs = s.inputs := rfl
@[simp] theorem flagAccOvf_resp : (s.flagAccOvf b).resp = s.resp := rfl
@[simp] theorem flagAccOvf_draws : (s.flagAccOvf b).draws = s.draws := rfl
@[simp] theorem flagAccOvf_epoch : (s.flagAccOvf b).epoch = s.epoch := rfl
end flagAccOvf

section flagWbusy
variable (s : State) 
@[simp] theorem flagWbusy_cfg : (s.flagWbusy).cfg = s.cfg := rfl
@[simp] theorem flagWbusy_status : (s.flagWbusy).status = { s.status with wbusy := true } := rfl
@[simp] theorem flagWbusy_irqEn : (s.flagWbusy).irqEn = s.irqEn := rfl
@[simp] theorem flagWbusy_txbLen : (s.flagWbusy).txbLen = s.txbLen := rfl
@[simp] theorem flagWbusy_txsLen : (s.flagWbusy).txsLen = s.txsLen := rfl
@[simp] theorem flagWbusy_rxsLen : (s.flagWbusy).rxsLen = s.rxsLen := rfl
@[simp] theorem flagWbusy_rxbLen : (s.flagWbusy).rxbLen = s.rxbLen := rfl
@[simp] theorem flagWbusy_phase : (s.flagWbusy).phase = s.phase := rfl
@[simp] theorem flagWbusy_snr : (s.flagWbusy).snr = s.snr := rfl
@[simp] theorem flagWbusy_ebno : (s.flagWbusy).ebno = s.ebno := rfl
@[simp] theorem flagWbusy_seed : (s.flagWbusy).seed = s.seed := rfl
@[simp] theorem flagWbusy_rng : (s.flagWbusy).rng = s.rng := rfl
@[simp] theorem flagWbusy_errcnt : (s.flagWbusy).errcnt = s.errcnt := rfl
@[simp] theorem flagWbusy_bitcnt : (s.flagWbusy).bitcnt = s.bitcnt := rfl
@[simp] theorem flagWbusy_lastcnt : (s.flagWbusy).lastcnt = s.lastcnt := rfl
@[simp] theorem flagWbusy_ber : (s.flagWbusy).ber = s.ber := rfl
@[simp] theorem flagWbusy_nscale : (s.flagWbusy).nscale = s.nscale := rfl
@[simp] theorem flagWbusy_mem : (s.flagWbusy).mem = s.mem := rfl
@[simp] theorem flagWbusy_cur : (s.flagWbusy).cur = s.cur := rfl
@[simp] theorem flagWbusy_inReset : (s.flagWbusy).inReset = s.inReset := rfl
@[simp] theorem flagWbusy_inputs : (s.flagWbusy).inputs = s.inputs := rfl
@[simp] theorem flagWbusy_resp : (s.flagWbusy).resp = s.resp := rfl
@[simp] theorem flagWbusy_draws : (s.flagWbusy).draws = s.draws := rfl
@[simp] theorem flagWbusy_epoch : (s.flagWbusy).epoch = s.epoch := rfl
end flagWbusy

section reject
variable (s : State) (code : ErrCode) (w : Word)
@[simp] theorem reject_cfg : (s.reject code w).cfg = s.cfg := rfl
@[simp] theorem reject_status : (s.reject code w).status = s.status.reject code w := rfl
@[simp] theorem reject_irqEn : (s.reject code w).irqEn = s.irqEn := rfl
@[simp] theorem reject_txbLen : (s.reject code w).txbLen = s.txbLen := rfl
@[simp] theorem reject_txsLen : (s.reject code w).txsLen = s.txsLen := rfl
@[simp] theorem reject_rxsLen : (s.reject code w).rxsLen = s.rxsLen := rfl
@[simp] theorem reject_rxbLen : (s.reject code w).rxbLen = s.rxbLen := rfl
@[simp] theorem reject_phase : (s.reject code w).phase = s.phase := rfl
@[simp] theorem reject_snr : (s.reject code w).snr = s.snr := rfl
@[simp] theorem reject_ebno : (s.reject code w).ebno = s.ebno := rfl
@[simp] theorem reject_seed : (s.reject code w).seed = s.seed := rfl
@[simp] theorem reject_rng : (s.reject code w).rng = s.rng := rfl
@[simp] theorem reject_errcnt : (s.reject code w).errcnt = s.errcnt := rfl
@[simp] theorem reject_bitcnt : (s.reject code w).bitcnt = s.bitcnt := rfl
@[simp] theorem reject_lastcnt : (s.reject code w).lastcnt = s.lastcnt := rfl
@[simp] theorem reject_ber : (s.reject code w).ber = s.ber := rfl
@[simp] theorem reject_nscale : (s.reject code w).nscale = s.nscale := rfl
@[simp] theorem reject_mem : (s.reject code w).mem = s.mem := rfl
@[simp] theorem reject_cur : (s.reject code w).cur = s.cur := rfl
@[simp] theorem reject_inReset : (s.reject code w).inReset = s.inReset := rfl
@[simp] theorem reject_inputs : (s.reject code w).inputs = s.inputs := rfl
@[simp] theorem reject_resp : (s.reject code w).resp = s.resp := rfl
@[simp] theorem reject_draws : (s.reject code w).draws = s.draws := rfl
@[simp] theorem reject_epoch : (s.reject code w).epoch = s.epoch := rfl
end reject

section acknowledge
variable (s : State) (v : Word)
@[simp] theorem acknowledge_cfg : (s.acknowledge v).cfg = s.cfg := rfl
@[simp] theorem acknowledge_status : (s.acknowledge v).status = s.status.clear v := rfl
@[simp] theorem acknowledge_irqEn : (s.acknowledge v).irqEn = s.irqEn := rfl
@[simp] theorem acknowledge_txbLen : (s.acknowledge v).txbLen = s.txbLen := rfl
@[simp] theorem acknowledge_txsLen : (s.acknowledge v).txsLen = s.txsLen := rfl
@[simp] theorem acknowledge_rxsLen : (s.acknowledge v).rxsLen = s.rxsLen := rfl
@[simp] theorem acknowledge_rxbLen : (s.acknowledge v).rxbLen = s.rxbLen := rfl
@[simp] theorem acknowledge_phase : (s.acknowledge v).phase = s.phase := rfl
@[simp] theorem acknowledge_snr : (s.acknowledge v).snr = s.snr := rfl
@[simp] theorem acknowledge_ebno : (s.acknowledge v).ebno = s.ebno := rfl
@[simp] theorem acknowledge_seed : (s.acknowledge v).seed = s.seed := rfl
@[simp] theorem acknowledge_rng : (s.acknowledge v).rng = s.rng := rfl
@[simp] theorem acknowledge_errcnt : (s.acknowledge v).errcnt = s.errcnt := rfl
@[simp] theorem acknowledge_bitcnt : (s.acknowledge v).bitcnt = s.bitcnt := rfl
@[simp] theorem acknowledge_lastcnt : (s.acknowledge v).lastcnt = s.lastcnt := rfl
@[simp] theorem acknowledge_ber : (s.acknowledge v).ber = s.ber := rfl
@[simp] theorem acknowledge_nscale : (s.acknowledge v).nscale = s.nscale := rfl
@[simp] theorem acknowledge_mem : (s.acknowledge v).mem = s.mem := rfl
@[simp] theorem acknowledge_cur : (s.acknowledge v).cur = s.cur := rfl
@[simp] theorem acknowledge_inReset : (s.acknowledge v).inReset = s.inReset := rfl
@[simp] theorem acknowledge_inputs : (s.acknowledge v).inputs = s.inputs := rfl
@[simp] theorem acknowledge_resp : (s.acknowledge v).resp = s.resp := rfl
@[simp] theorem acknowledge_draws : (s.acknowledge v).draws = s.draws := rfl
@[simp] theorem acknowledge_epoch : (s.acknowledge v).epoch = s.epoch := rfl
end acknowledge

section accept
variable (s : State) (w : Word)
@[simp] theorem accept_cfg : (s.accept w).cfg = s.cfg := rfl
@[simp] theorem accept_status : (s.accept w).status = { s.status with busy := true } := rfl
@[simp] theorem accept_irqEn : (s.accept w).irqEn = s.irqEn := rfl
@[simp] theorem accept_txbLen : (s.accept w).txbLen = s.txbLen := rfl
@[simp] theorem accept_txsLen : (s.accept w).txsLen = s.txsLen := rfl
@[simp] theorem accept_rxsLen : (s.accept w).rxsLen = s.rxsLen := rfl
@[simp] theorem accept_rxbLen : (s.accept w).rxbLen = s.rxbLen := rfl
@[simp] theorem accept_phase : (s.accept w).phase = s.phase := rfl
@[simp] theorem accept_snr : (s.accept w).snr = s.snr := rfl
@[simp] theorem accept_ebno : (s.accept w).ebno = s.ebno := rfl
@[simp] theorem accept_seed : (s.accept w).seed = s.seed := rfl
@[simp] theorem accept_rng : (s.accept w).rng = s.rng := rfl
@[simp] theorem accept_errcnt : (s.accept w).errcnt = s.errcnt := rfl
@[simp] theorem accept_bitcnt : (s.accept w).bitcnt = s.bitcnt := rfl
@[simp] theorem accept_lastcnt : (s.accept w).lastcnt = s.lastcnt := rfl
@[simp] theorem accept_ber : (s.accept w).ber = s.ber := rfl
@[simp] theorem accept_nscale : (s.accept w).nscale = s.nscale := rfl
@[simp] theorem accept_mem : (s.accept w).mem = s.mem := rfl
@[simp] theorem accept_cur : (s.accept w).cur = w := rfl
@[simp] theorem accept_inReset : (s.accept w).inReset = s.inReset := rfl
@[simp] theorem accept_inputs : (s.accept w).inputs = s.inputs := rfl
@[simp] theorem accept_resp : (s.accept w).resp = s.resp := rfl
@[simp] theorem accept_draws : (s.accept w).draws = s.draws := rfl
@[simp] theorem accept_epoch : (s.accept w).epoch = s.epoch := rfl
end accept

section complete
variable (s : State) 
@[simp] theorem complete_cfg : (s.complete).cfg = s.cfg := rfl
@[simp] theorem complete_status : (s.complete).status = { s.status with done := true, busy := false } := rfl
@[simp] theorem complete_irqEn : (s.complete).irqEn = s.irqEn := rfl
@[simp] theorem complete_txbLen : (s.complete).txbLen = s.txbLen := rfl
@[simp] theorem complete_txsLen : (s.complete).txsLen = s.txsLen := rfl
@[simp] theorem complete_rxsLen : (s.complete).rxsLen = s.rxsLen := rfl
@[simp] theorem complete_rxbLen : (s.complete).rxbLen = s.rxbLen := rfl
@[simp] theorem complete_phase : (s.complete).phase = s.phase := rfl
@[simp] theorem complete_snr : (s.complete).snr = s.snr := rfl
@[simp] theorem complete_ebno : (s.complete).ebno = s.ebno := rfl
@[simp] theorem complete_seed : (s.complete).seed = s.seed := rfl
@[simp] theorem complete_rng : (s.complete).rng = s.rng := rfl
@[simp] theorem complete_errcnt : (s.complete).errcnt = s.errcnt := rfl
@[simp] theorem complete_bitcnt : (s.complete).bitcnt = s.bitcnt := rfl
@[simp] theorem complete_lastcnt : (s.complete).lastcnt = s.lastcnt := rfl
@[simp] theorem complete_ber : (s.complete).ber = s.ber := rfl
@[simp] theorem complete_nscale : (s.complete).nscale = s.nscale := rfl
@[simp] theorem complete_mem : (s.complete).mem = s.mem := rfl
@[simp] theorem complete_cur : (s.complete).cur = s.cur := rfl
@[simp] theorem complete_inReset : (s.complete).inReset = s.inReset := rfl
@[simp] theorem complete_inputs : (s.complete).inputs = s.inputs := rfl
@[simp] theorem complete_resp : (s.complete).resp = s.resp := rfl
@[simp] theorem complete_draws : (s.complete).draws = s.draws + 1 := rfl
@[simp] theorem complete_epoch : (s.complete).epoch = s.epoch := rfl
end complete

section putBits
variable (s : State) (b : BitBuf) (lo : Nat) (vs : List Bool)
@[simp] theorem putBits_cfg : (s.putBits b lo vs).cfg = s.cfg := by cases b <;> rfl
@[simp] theorem putBits_status : (s.putBits b lo vs).status = s.status := by cases b <;> rfl
@[simp] theorem putBits_irqEn : (s.putBits b lo vs).irqEn = s.irqEn := by cases b <;> rfl
@[simp] theorem putBits_txbLen : (s.putBits b lo vs).txbLen = s.txbLen := by cases b <;> rfl
@[simp] theorem putBits_txsLen : (s.putBits b lo vs).txsLen = s.txsLen := by cases b <;> rfl
@[simp] theorem putBits_rxsLen : (s.putBits b lo vs).rxsLen = s.rxsLen := by cases b <;> rfl
@[simp] theorem putBits_rxbLen : (s.putBits b lo vs).rxbLen = s.rxbLen := by cases b <;> rfl
@[simp] theorem putBits_phase : (s.putBits b lo vs).phase = s.phase := by cases b <;> rfl
@[simp] theorem putBits_snr : (s.putBits b lo vs).snr = s.snr := by cases b <;> rfl
@[simp] theorem putBits_ebno : (s.putBits b lo vs).ebno = s.ebno := by cases b <;> rfl
@[simp] theorem putBits_seed : (s.putBits b lo vs).seed = s.seed := by cases b <;> rfl
@[simp] theorem putBits_rng : (s.putBits b lo vs).rng = s.rng := by cases b <;> rfl
@[simp] theorem putBits_errcnt : (s.putBits b lo vs).errcnt = s.errcnt := by cases b <;> rfl
@[simp] theorem putBits_bitcnt : (s.putBits b lo vs).bitcnt = s.bitcnt := by cases b <;> rfl
@[simp] theorem putBits_lastcnt : (s.putBits b lo vs).lastcnt = s.lastcnt := by cases b <;> rfl
@[simp] theorem putBits_ber : (s.putBits b lo vs).ber = s.ber := by cases b <;> rfl
@[simp] theorem putBits_nscale : (s.putBits b lo vs).nscale = s.nscale := by cases b <;> rfl
@[simp] theorem putBits_cur : (s.putBits b lo vs).cur = s.cur := by cases b <;> rfl
@[simp] theorem putBits_inReset : (s.putBits b lo vs).inReset = s.inReset := by cases b <;> rfl
@[simp] theorem putBits_inputs : (s.putBits b lo vs).inputs = s.inputs := by cases b <;> rfl
@[simp] theorem putBits_resp : (s.putBits b lo vs).resp = s.resp := by cases b <;> rfl
@[simp] theorem putBits_draws : (s.putBits b lo vs).draws = s.draws := by cases b <;> rfl
@[simp] theorem putBits_epoch : (s.putBits b lo vs).epoch = s.epoch := by cases b <;> rfl
end putBits

section putWords
variable (s : State) (b : SymBuf) (lo : Nat) (vs : List Word)
@[simp] theorem putWords_cfg : (s.putWords b lo vs).cfg = s.cfg := by cases b <;> rfl
@[simp] theorem putWords_status : (s.putWords b lo vs).status = s.status := by cases b <;> rfl
@[simp] theorem putWords_irqEn : (s.putWords b lo vs).irqEn = s.irqEn := by cases b <;> rfl
@[simp] theorem putWords_txbLen : (s.putWords b lo vs).txbLen = s.txbLen := by cases b <;> rfl
@[simp] theorem putWords_txsLen : (s.putWords b lo vs).txsLen = s.txsLen := by cases b <;> rfl
@[simp] theorem putWords_rxsLen : (s.putWords b lo vs).rxsLen = s.rxsLen := by cases b <;> rfl
@[simp] theorem putWords_rxbLen : (s.putWords b lo vs).rxbLen = s.rxbLen := by cases b <;> rfl
@[simp] theorem putWords_phase : (s.putWords b lo vs).phase = s.phase := by cases b <;> rfl
@[simp] theorem putWords_snr : (s.putWords b lo vs).snr = s.snr := by cases b <;> rfl
@[simp] theorem putWords_ebno : (s.putWords b lo vs).ebno = s.ebno := by cases b <;> rfl
@[simp] theorem putWords_seed : (s.putWords b lo vs).seed = s.seed := by cases b <;> rfl
@[simp] theorem putWords_rng : (s.putWords b lo vs).rng = s.rng := by cases b <;> rfl
@[simp] theorem putWords_errcnt : (s.putWords b lo vs).errcnt = s.errcnt := by cases b <;> rfl
@[simp] theorem putWords_bitcnt : (s.putWords b lo vs).bitcnt = s.bitcnt := by cases b <;> rfl
@[simp] theorem putWords_lastcnt : (s.putWords b lo vs).lastcnt = s.lastcnt := by cases b <;> rfl
@[simp] theorem putWords_ber : (s.putWords b lo vs).ber = s.ber := by cases b <;> rfl
@[simp] theorem putWords_nscale : (s.putWords b lo vs).nscale = s.nscale := by cases b <;> rfl
@[simp] theorem putWords_cur : (s.putWords b lo vs).cur = s.cur := by cases b <;> rfl
@[simp] theorem putWords_inReset : (s.putWords b lo vs).inReset = s.inReset := by cases b <;> rfl
@[simp] theorem putWords_inputs : (s.putWords b lo vs).inputs = s.inputs := by cases b <;> rfl
@[simp] theorem putWords_resp : (s.putWords b lo vs).resp = s.resp := by cases b <;> rfl
@[simp] theorem putWords_draws : (s.putWords b lo vs).draws = s.draws := by cases b <;> rfl
@[simp] theorem putWords_epoch : (s.putWords b lo vs).epoch = s.epoch := by cases b <;> rfl
end putWords

section putSyms
variable (s : State) (b : SymBuf) (zs : List Symbol)
@[simp] theorem putSyms_cfg : (s.putSyms b zs).cfg = s.cfg := by cases b <;> rfl
@[simp] theorem putSyms_status : (s.putSyms b zs).status = s.status := by cases b <;> rfl
@[simp] theorem putSyms_irqEn : (s.putSyms b zs).irqEn = s.irqEn := by cases b <;> rfl
@[simp] theorem putSyms_txbLen : (s.putSyms b zs).txbLen = s.txbLen := by cases b <;> rfl
@[simp] theorem putSyms_txsLen : (s.putSyms b zs).txsLen = s.txsLen := by cases b <;> rfl
@[simp] theorem putSyms_rxsLen : (s.putSyms b zs).rxsLen = s.rxsLen := by cases b <;> rfl
@[simp] theorem putSyms_rxbLen : (s.putSyms b zs).rxbLen = s.rxbLen := by cases b <;> rfl
@[simp] theorem putSyms_phase : (s.putSyms b zs).phase = s.phase := by cases b <;> rfl
@[simp] theorem putSyms_snr : (s.putSyms b zs).snr = s.snr := by cases b <;> rfl
@[simp] theorem putSyms_ebno : (s.putSyms b zs).ebno = s.ebno := by cases b <;> rfl
@[simp] theorem putSyms_seed : (s.putSyms b zs).seed = s.seed := by cases b <;> rfl
@[simp] theorem putSyms_rng : (s.putSyms b zs).rng = s.rng := by cases b <;> rfl
@[simp] theorem putSyms_errcnt : (s.putSyms b zs).errcnt = s.errcnt := by cases b <;> rfl
@[simp] theorem putSyms_bitcnt : (s.putSyms b zs).bitcnt = s.bitcnt := by cases b <;> rfl
@[simp] theorem putSyms_lastcnt : (s.putSyms b zs).lastcnt = s.lastcnt := by cases b <;> rfl
@[simp] theorem putSyms_ber : (s.putSyms b zs).ber = s.ber := by cases b <;> rfl
@[simp] theorem putSyms_nscale : (s.putSyms b zs).nscale = s.nscale := by cases b <;> rfl
@[simp] theorem putSyms_cur : (s.putSyms b zs).cur = s.cur := by cases b <;> rfl
@[simp] theorem putSyms_inReset : (s.putSyms b zs).inReset = s.inReset := by cases b <;> rfl
@[simp] theorem putSyms_inputs : (s.putSyms b zs).inputs = s.inputs := by cases b <;> rfl
@[simp] theorem putSyms_resp : (s.putSyms b zs).resp = s.resp := by cases b <;> rfl
@[simp] theorem putSyms_draws : (s.putSyms b zs).draws = s.draws := by cases b <;> rfl
@[simp] theorem putSyms_epoch : (s.putSyms b zs).epoch = s.epoch := by cases b <;> rfl
end putSyms

section assertReset
variable (s : State) 
@[simp] theorem assertReset_cfg : (s.assertReset).cfg = s.cfg := rfl
@[simp] theorem assertReset_status : (s.assertReset).status = s.status := rfl
@[simp] theorem assertReset_irqEn : (s.assertReset).irqEn = s.irqEn := rfl
@[simp] theorem assertReset_txbLen : (s.assertReset).txbLen = s.txbLen := rfl
@[simp] theorem assertReset_txsLen : (s.assertReset).txsLen = s.txsLen := rfl
@[simp] theorem assertReset_rxsLen : (s.assertReset).rxsLen = s.rxsLen := rfl
@[simp] theorem assertReset_rxbLen : (s.assertReset).rxbLen = s.rxbLen := rfl
@[simp] theorem assertReset_phase : (s.assertReset).phase = s.phase := rfl
@[simp] theorem assertReset_snr : (s.assertReset).snr = s.snr := rfl
@[simp] theorem assertReset_ebno : (s.assertReset).ebno = s.ebno := rfl
@[simp] theorem assertReset_seed : (s.assertReset).seed = s.seed := rfl
@[simp] theorem assertReset_rng : (s.assertReset).rng = s.rng := rfl
@[simp] theorem assertReset_errcnt : (s.assertReset).errcnt = s.errcnt := rfl
@[simp] theorem assertReset_bitcnt : (s.assertReset).bitcnt = s.bitcnt := rfl
@[simp] theorem assertReset_lastcnt : (s.assertReset).lastcnt = s.lastcnt := rfl
@[simp] theorem assertReset_ber : (s.assertReset).ber = s.ber := rfl
@[simp] theorem assertReset_nscale : (s.assertReset).nscale = s.nscale := rfl
@[simp] theorem assertReset_mem : (s.assertReset).mem = s.mem := rfl
@[simp] theorem assertReset_cur : (s.assertReset).cur = s.cur := rfl
@[simp] theorem assertReset_inReset : (s.assertReset).inReset = true := rfl
@[simp] theorem assertReset_inputs : (s.assertReset).inputs = s.inputs := rfl
@[simp] theorem assertReset_resp : (s.assertReset).resp = s.resp := rfl
@[simp] theorem assertReset_draws : (s.assertReset).draws = s.draws := rfl
@[simp] theorem assertReset_epoch : (s.assertReset).epoch = s.epoch := rfl
end assertReset

section clearRegisters
variable (s : State) 
@[simp] theorem clearRegisters_cfg : (s.clearRegisters).cfg = s.cfg := rfl
@[simp] theorem clearRegisters_status : (s.clearRegisters).status = Status.zero := rfl
@[simp] theorem clearRegisters_irqEn : (s.clearRegisters).irqEn = 0#3 := rfl
@[simp] theorem clearRegisters_txbLen : (s.clearRegisters).txbLen = 0#32 := rfl
@[simp] theorem clearRegisters_txsLen : (s.clearRegisters).txsLen = 0#32 := rfl
@[simp] theorem clearRegisters_rxsLen : (s.clearRegisters).rxsLen = 0#32 := rfl
@[simp] theorem clearRegisters_rxbLen : (s.clearRegisters).rxbLen = 0#32 := rfl
@[simp] theorem clearRegisters_phase : (s.clearRegisters).phase = 0#64 := rfl
@[simp] theorem clearRegisters_snr : (s.clearRegisters).snr = 0#64 := rfl
@[simp] theorem clearRegisters_ebno : (s.clearRegisters).ebno = 0#64 := rfl
@[simp] theorem clearRegisters_seed : (s.clearRegisters).seed = 0#64 := rfl
@[simp] theorem clearRegisters_rng : (s.clearRegisters).rng = s.rng := rfl
@[simp] theorem clearRegisters_errcnt : (s.clearRegisters).errcnt = 0#64 := rfl
@[simp] theorem clearRegisters_bitcnt : (s.clearRegisters).bitcnt = 0#64 := rfl
@[simp] theorem clearRegisters_lastcnt : (s.clearRegisters).lastcnt = 0#32 := rfl
@[simp] theorem clearRegisters_ber : (s.clearRegisters).ber = 0#64 := rfl
@[simp] theorem clearRegisters_nscale : (s.clearRegisters).nscale = 0#64 := rfl
@[simp] theorem clearRegisters_mem : (s.clearRegisters).mem = s.mem := rfl
@[simp] theorem clearRegisters_cur : (s.clearRegisters).cur = s.cur := rfl
@[simp] theorem clearRegisters_inReset : (s.clearRegisters).inReset = s.inReset := rfl
@[simp] theorem clearRegisters_inputs : (s.clearRegisters).inputs = s.inputs := rfl
@[simp] theorem clearRegisters_resp : (s.clearRegisters).resp = s.resp := rfl
@[simp] theorem clearRegisters_draws : (s.clearRegisters).draws = s.draws := rfl
@[simp] theorem clearRegisters_epoch : (s.clearRegisters).epoch = s.epoch := rfl
end clearRegisters

section abandon
variable (s : State) (ws : WriteSet)
@[simp] theorem abandon_cfg : (s.abandon ws).cfg = s.cfg := by simp [State.abandon]
@[simp] theorem abandon_status : (s.abandon ws).status = s.status := by simp [State.abandon]
@[simp] theorem abandon_irqEn : (s.abandon ws).irqEn = s.irqEn := by simp [State.abandon]
@[simp] theorem abandon_txbLen : (s.abandon ws).txbLen = s.txbLen := by simp [State.abandon]
@[simp] theorem abandon_txsLen : (s.abandon ws).txsLen = s.txsLen := by simp [State.abandon]
@[simp] theorem abandon_rxsLen : (s.abandon ws).rxsLen = s.rxsLen := by simp [State.abandon]
@[simp] theorem abandon_rxbLen : (s.abandon ws).rxbLen = s.rxbLen := by simp [State.abandon]
@[simp] theorem abandon_phase : (s.abandon ws).phase = s.phase := by simp [State.abandon]
@[simp] theorem abandon_snr : (s.abandon ws).snr = s.snr := by simp [State.abandon]
@[simp] theorem abandon_ebno : (s.abandon ws).ebno = s.ebno := by simp [State.abandon]
@[simp] theorem abandon_seed : (s.abandon ws).seed = s.seed := by simp [State.abandon]
@[simp] theorem abandon_rng : (s.abandon ws).rng = if ws.rng then Config.freeRng s.draws else s.rng := by simp [State.abandon]
@[simp] theorem abandon_errcnt : (s.abandon ws).errcnt = s.errcnt := by simp [State.abandon]
@[simp] theorem abandon_bitcnt : (s.abandon ws).bitcnt = s.bitcnt := by simp [State.abandon]
@[simp] theorem abandon_lastcnt : (s.abandon ws).lastcnt = s.lastcnt := by simp [State.abandon]
@[simp] theorem abandon_ber : (s.abandon ws).ber = s.ber := by simp [State.abandon]
@[simp] theorem abandon_nscale : (s.abandon ws).nscale = s.nscale := by simp [State.abandon]
@[simp] theorem abandon_cur : (s.abandon ws).cur = s.cur := by simp [State.abandon]
@[simp] theorem abandon_inReset : (s.abandon ws).inReset = s.inReset := by simp [State.abandon]
@[simp] theorem abandon_inputs : (s.abandon ws).inputs = s.inputs := by simp [State.abandon]
@[simp] theorem abandon_resp : (s.abandon ws).resp = s.resp := by simp [State.abandon]
@[simp] theorem abandon_draws : (s.abandon ws).draws = s.draws + 1 := by simp [State.abandon]
@[simp] theorem abandon_epoch : (s.abandon ws).epoch = s.epoch := by simp [State.abandon]
end abandon

section receive
variable (s : State) (zs : List Symbol) (n : Nat) (scale : F64) (r : BitVec 64)
@[simp] theorem receive_cfg : (s.receive zs n scale r).cfg = s.cfg := by simp [State.receive]
@[simp] theorem receive_status : (s.receive zs n scale r).status = { s.status with numerr := s.status.numerr || (zs.any symNonFinite || nonFinite scale) } := by simp [State.receive]
@[simp] theorem receive_irqEn : (s.receive zs n scale r).irqEn = s.irqEn := by simp [State.receive]
@[simp] theorem receive_txbLen : (s.receive zs n scale r).txbLen = s.txbLen := by simp [State.receive]
@[simp] theorem receive_txsLen : (s.receive zs n scale r).txsLen = s.txsLen := by simp [State.receive]
@[simp] theorem receive_rxsLen : (s.receive zs n scale r).rxsLen = BitVec.ofNat 32 n := by simp [State.receive]
@[simp] theorem receive_rxbLen : (s.receive zs n scale r).rxbLen = s.rxbLen := by simp [State.receive]
@[simp] theorem receive_phase : (s.receive zs n scale r).phase = s.phase := by simp [State.receive]
@[simp] theorem receive_snr : (s.receive zs n scale r).snr = s.snr := by simp [State.receive]
@[simp] theorem receive_ebno : (s.receive zs n scale r).ebno = s.ebno := by simp [State.receive]
@[simp] theorem receive_seed : (s.receive zs n scale r).seed = s.seed := by simp [State.receive]
@[simp] theorem receive_rng : (s.receive zs n scale r).rng = r := by simp [State.receive]
@[simp] theorem receive_errcnt : (s.receive zs n scale r).errcnt = s.errcnt := by simp [State.receive]
@[simp] theorem receive_bitcnt : (s.receive zs n scale r).bitcnt = s.bitcnt := by simp [State.receive]
@[simp] theorem receive_lastcnt : (s.receive zs n scale r).lastcnt = s.lastcnt := by simp [State.receive]
@[simp] theorem receive_ber : (s.receive zs n scale r).ber = s.ber := by simp [State.receive]
@[simp] theorem receive_nscale : (s.receive zs n scale r).nscale = scale := by simp [State.receive]
@[simp] theorem receive_cur : (s.receive zs n scale r).cur = s.cur := by simp [State.receive]
@[simp] theorem receive_inReset : (s.receive zs n scale r).inReset = s.inReset := by simp [State.receive]
@[simp] theorem receive_inputs : (s.receive zs n scale r).inputs = s.inputs := by simp [State.receive]
@[simp] theorem receive_resp : (s.receive zs n scale r).resp = s.resp := by simp [State.receive]
@[simp] theorem receive_draws : (s.receive zs n scale r).draws = s.draws := by simp [State.receive]
@[simp] theorem receive_epoch : (s.receive zs n scale r).epoch = s.epoch := by simp [State.receive]
end receive

end Sys2Proof.Machine
end

