-- ==== Sys2Proof/Laws/Buffers.lean ====
section
/-! SUPPORT. What the buffer operations read back, and that they keep the canonical form. -/

namespace Sys2Proof.Machine

/-! One element of a buffer. -/

theorem get_append {α : Type} (c d : Cells α) (i : Nat) :
    Cells.get (c ++ d) i = (Cells.get c i).or (Cells.get d i) := by
  induction c with
  | nil => simp [Cells.get]
  | cons e c ih =>
    obtain ⟨k, v⟩ := e
    by_cases h : k = i <;> simp [Cells.get, h, ih]

theorem get_filter {α : Type} (p : Nat → Bool) (c : Cells α) (i : Nat) :
    Cells.get (c.filter (fun e => p e.1)) i = if p i then Cells.get c i else .none := by
  induction c with
  | nil => simp [Cells.get]
  | cons e c ih =>
    obtain ⟨k, v⟩ := e
    by_cases hk : k = i
    · subst hk
      by_cases hp : p k <;> simp [Cells.get, hp, ih]
    · by_cases hp : p k <;> simp [Cells.get, hp, hk, ih]

theorem get_number {α : Type} (lo : Nat) (vs : List α) (i : Nat) :
    Cells.get (Cells.number lo vs) i = if lo ≤ i then vs[i - lo]? else .none := by
  induction vs generalizing lo with
  | nil => simp [Cells.number, Cells.get]
  | cons v vs ih =>
    simp only [Cells.number, Cells.get, ih]
    rcases Nat.lt_trichotomy lo i with h | h | h
    · have : i - lo = i - (lo + 1) + 1 := by omega
      simp [Nat.ne_of_lt h, Nat.le_of_lt h, this, Nat.succ_le_of_lt h]
    · simp [h]
    · simp [Nat.ne_of_gt h, Nat.not_le_of_gt h]
      omega

/-- What a splice reads back. -/
theorem get_splice {α : Type} (c : Cells α) (lo : Nat) (vs : List α) (i : Nat) :
    Cells.get (c.splice lo vs) i = if lo ≤ i ∧ i < lo + vs.length then vs[i - lo]? else Cells.get c i := by
  simp only [Cells.splice, get_append, get_filter (fun k => Nat.blt k lo), get_number,
    get_filter (fun k => Nat.ble (lo + vs.length) k)]
  rcases Nat.lt_or_ge i lo with h | h
  · have h1 : ¬ lo ≤ i := by omega
    have h2 : ¬ lo + vs.length ≤ i := by omega
    simp [h, h1, h2]
  · rcases Nat.lt_or_ge i (lo + vs.length) with h' | h'
    · have h1 : ¬ i < lo := by omega
      have h2 : ¬ lo + vs.length ≤ i := by omega
      simp [h, h', h1, h2]
    · have h1 : ¬ i < lo := by omega
      have h3 : vs[i - lo]? = none := by simp; omega
      simp [h, h', h1, h3, Nat.not_lt_of_ge h']

/-! The canonical form. -/

theorem wfFrom_mono {α : Type} {cap lo lo' : Nat} {c : Cells α} (h : Cells.wfFrom cap lo c = true)
    (hl : lo' ≤ lo) : Cells.wfFrom cap lo' c = true := by
  cases c with
  | nil => rfl
  | cons e c =>
    obtain ⟨k, v⟩ := e
    simp only [Cells.wfFrom, Bool.and_eq_true, Nat.ble_eq] at h ⊢
    exact ⟨⟨by omega, h.1.2⟩, h.2⟩

theorem wfFrom_filter {α : Type} {cap lo : Nat} {c : Cells α} (p : Nat × α → Bool)
    (h : Cells.wfFrom cap lo c = true) : Cells.wfFrom cap lo (c.filter p) = true := by
  induction c generalizing lo with
  | nil => simp [Cells.wfFrom]
  | cons e c ih =>
    obtain ⟨k, v⟩ := e
    simp only [Cells.wfFrom, Bool.and_eq_true, Nat.ble_eq, Nat.blt_eq] at h
    have hk := ih h.2
    by_cases hp : p (k, v)
    · simp [List.filter, hp, Cells.wfFrom, h.1.1, h.1.2, hk]
    · simp only [List.filter, hp]
      exact wfFrom_mono hk (by omega)

theorem wfFrom_drop {α : Type} {cap lo m : Nat} {c : Cells α} (h : Cells.wfFrom cap lo c = true) :
    Cells.wfFrom cap m (c.filter (fun e => Nat.ble m e.1)) = true := by
  induction c generalizing lo with
  | nil => simp [Cells.wfFrom]
  | cons e c ih =>
    obtain ⟨k, v⟩ := e
    simp only [Cells.wfFrom, Bool.and_eq_true, Nat.ble_eq, Nat.blt_eq] at h
    by_cases hk : m ≤ k
    · simp [hk, Cells.wfFrom, h.1.2, wfFrom_filter _ h.2]
    · simpa [List.filter_cons, hk] using ih h.2

theorem wfFrom_number_append {α : Type} {cap lo : Nat} (vs : List α) {c : Cells α}
    (hcap : lo + vs.length ≤ cap) (h : Cells.wfFrom cap (lo + vs.length) c = true) :
    Cells.wfFrom cap lo (Cells.number lo vs ++ c) = true := by
  induction vs generalizing lo with
  | nil => simpa [Cells.number] using h
  | cons v vs ih =>
    simp only [List.length_cons] at hcap h
    simp only [Cells.number, List.cons_append, Cells.wfFrom, Bool.and_eq_true, Nat.ble_eq, Nat.blt_eq,
      Nat.le_refl, true_and]
    exact ⟨by omega, ih (by omega) (by rwa [show lo + 1 + vs.length = lo + (vs.length + 1) by omega])⟩

theorem wfFrom_take_append {α : Type} {cap lo m : Nat} {c d : Cells α} (hlo : lo ≤ m)
    (h : Cells.wfFrom cap lo c = true) (hd : Cells.wfFrom cap m d = true) :
    Cells.wfFrom cap lo (c.filter (fun e => Nat.blt e.1 m) ++ d) = true := by
  induction c generalizing lo with
  | nil => simpa using wfFrom_mono hd hlo
  | cons e c ih =>
    obtain ⟨k, v⟩ := e
    simp only [Cells.wfFrom, Bool.and_eq_true, Nat.ble_eq, Nat.blt_eq] at h
    by_cases hk : k < m
    · simp only [List.filter, Nat.blt_eq.mpr hk, List.cons_append, Cells.wfFrom, Bool.and_eq_true,
        Nat.ble_eq, Nat.blt_eq]
      exact ⟨h.1, ih hk h.2⟩
    · have : Nat.blt k m = false := by rw [← Bool.not_eq_true, Nat.blt_eq]; exact hk
      simp only [List.filter, this]
      exact wfFrom_mono (ih (lo := lo) hlo (wfFrom_mono h.2 (by omega))) (Nat.le_refl _)

/-- A splice inside the capacity keeps the canonical form. -/
theorem wf_splice {α : Type} {cap : Nat} {c : Cells α} (lo : Nat) (vs : List α)
    (h : Cells.wf cap c = true) (hcap : lo + vs.length ≤ cap) :
    Cells.wf cap (c.splice lo vs) = true := by
  unfold Cells.wf Cells.splice
  rw [List.append_assoc]
  exact wfFrom_take_append (Nat.zero_le _) h (wfFrom_number_append vs hcap (wfFrom_drop h))

/-! The buffers of a state. -/

theorem bits_putBits (s : State) (b b' : BitBuf) (lo : Nat) (vs : List Bool) :
    (s.putBits b lo vs).mem.bits b' = if b' = b then (s.mem.bits b').splice lo vs else s.mem.bits b' := by
  cases b <;> cases b' <;> rfl

@[simp] theorem words_putBits (s : State) (b : BitBuf) (b' : SymBuf) (lo : Nat) (vs : List Bool) :
    (s.putBits b lo vs).mem.words b' = s.mem.words b' := by
  cases b <;> cases b' <;> rfl

theorem words_putWords (s : State) (b b' : SymBuf) (lo : Nat) (vs : List Word) :
    (s.putWords b lo vs).mem.words b' = if b' = b then (s.mem.words b').splice lo vs else s.mem.words b' := by
  cases b <;> cases b' <;> rfl

@[simp] theorem bits_putWords (s : State) (b : SymBuf) (b' : BitBuf) (lo : Nat) (vs : List Word) :
    (s.putWords b lo vs).mem.bits b' = s.mem.bits b' := by
  cases b <;> cases b' <;> rfl

/-- What a bit reads as after a write of bits. -/
theorem bit_putBits (s : State) (b b' : BitBuf) (lo : Nat) (vs : List Bool) (i : Nat) :
    (s.putBits b lo vs).bit b' i
      = if b' = b ∧ lo ≤ i ∧ i < lo + vs.length then (vs[i - lo]?).getD false else s.bit b' i := by
  by_cases hb : b' = b
  · subst hb
    by_cases h : lo ≤ i ∧ i < lo + vs.length
    · have hl : i - lo < vs.length := by omega
      simp [State.bit, bits_putBits, get_splice, h, hl]
    · simp only [State.bit, bits_putBits, get_splice, h, if_true, if_false, and_false, putBits_epoch]
  · simp [State.bit, bits_putBits, hb]

/-- What a storage word reads as after a write of words. -/
theorem symWord_putWords (s : State) (b b' : SymBuf) (lo : Nat) (vs : List Word) (j : Nat) :
    (s.putWords b lo vs).symWord b' j
      = if b' = b ∧ lo ≤ j ∧ j < lo + vs.length then (vs[j - lo]?).getD 0#32 else s.symWord b' j := by
  by_cases hb : b' = b
  · subst hb
    by_cases h : lo ≤ j ∧ j < lo + vs.length
    · have hl : j - lo < vs.length := by omega
      simp [State.symWord, words_putWords, get_splice, h, hl]
    · simp only [State.symWord, words_putWords, get_splice, h, if_true, if_false, and_false, putWords_epoch]
  · simp [State.symWord, words_putWords, hb]

@[simp] theorem symWord_putBits (s : State) (b : BitBuf) (lo : Nat) (vs : List Bool) (b' : SymBuf) (j : Nat) :
    (s.putBits b lo vs).symWord b' j = s.symWord b' j := by
  simp [State.symWord]

@[simp] theorem bit_putWords (s : State) (b : SymBuf) (lo : Nat) (vs : List Word) (b' : BitBuf) (i : Nat) :
    (s.putWords b lo vs).bit b' i = s.bit b' i := by
  simp [State.bit]

@[simp] theorem bit_putSyms (s : State) (b : SymBuf) (zs : List Symbol) (b' : BitBuf) (i : Nat) :
    (s.putSyms b zs).bit b' i = s.bit b' i := by
  simp [State.putSyms]

theorem allSymWords_length (zs : List Symbol) : (allSymWords zs).length = 4 * zs.length := by
  induction zs with
  | nil => rfl
  | cons z zs ih => simp [allSymWords, ih]; omega

theorem allSymWords_getElem? (zs : List Symbol) (k p : Nat) (hp : p < 4) :
    (allSymWords zs)[4 * k + p]? = (zs[k]?).bind (fun z => (symWords z)[p]?) := by
  induction zs generalizing k with
  | nil => simp [allSymWords]
  | cons z zs ih =>
    cases k with
    | zero =>
      have : p = 0 ∨ p = 1 ∨ p = 2 ∨ p = 3 := by omega
      rcases this with rfl | rfl | rfl | rfl <;> simp [allSymWords, symWords]
    | succ k =>
      have : 4 * (k + 1) + p = (4 * k + p) + 4 := by omega
      rw [this]
      simpa [allSymWords] using ih k

theorem hi_append_lo (v : BitVec 64) : hiHalf v ++ loHalf v = v := by
  unfold hiHalf loHalf
  ext i hi
  simp only [BitVec.getElem_append, BitVec.getElem_extractLsb']
  split
  · simp [BitVec.getLsbD_eq_getElem hi]
  · rw [show 32 + (i - 32) = i by omega]
    simp [BitVec.getLsbD_eq_getElem hi]

/-- What a symbol reads as after a write of symbols 0 to zs.length - 1. -/
theorem sym_putSyms (s : State) (b b' : SymBuf) (zs : List Symbol) (k : Nat) :
    (s.putSyms b zs).sym b' k = if b' = b ∧ k < zs.length then (zs[k]?).getD (0, 0) else s.sym b' k := by
  unfold State.putSyms State.sym
  simp only [symWord_putWords, allSymWords_length, Nat.zero_le, true_and, Nat.zero_add, Nat.sub_zero]
  by_cases hb : b' = b
  · subst hb
    by_cases hk : k < zs.length
    · have e0 := allSymWords_getElem? zs k 0 (by omega)
      have e1 := allSymWords_getElem? zs k 1 (by omega)
      have e2 := allSymWords_getElem? zs k 2 (by omega)
      have e3 := allSymWords_getElem? zs k 3 (by omega)
      rw [Nat.add_zero] at e0
      have hz : zs[k]? = some zs[k] := List.getElem?_eq_getElem hk
      rw [hz] at e0 e1 e2 e3
      have b0 : 4 * k < 4 * zs.length := by omega
      have b1 : 4 * k + 1 < 4 * zs.length := by omega
      have b2 : 4 * k + 2 < 4 * zs.length := by omega
      have b3 : 4 * k + 3 < 4 * zs.length := by omega
      simp [hk, b0, b1, b2, b3, e0, e1, e2, e3, symWords, hi_append_lo]
    · have b0 : ¬ 4 * k < 4 * zs.length := by omega
      have b1 : ¬ 4 * k + 1 < 4 * zs.length := by omega
      have b2 : ¬ 4 * k + 2 < 4 * zs.length := by omega
      have b3 : ¬ 4 * k + 3 < 4 * zs.length := by omega
      simp [hk, b0, b1, b2, b3]
  · simp [hb]

/-- Words outside the symbols written are kept. -/
theorem symWord_putSyms_of_le (s : State) (b b' : SymBuf) (zs : List Symbol) (j : Nat)
    (h : b' = b → 4 * zs.length ≤ j) : (s.putSyms b zs).symWord b' j = s.symWord b' j := by
  unfold State.putSyms
  rw [symWord_putWords, allSymWords_length, if_neg]
  rintro ⟨hb, -, hj⟩
  have := h hb
  omega

/-! Every write of elements inside the capacity keeps Memory.wf. -/

theorem wf_putBits {p : Params} {s : State} (b : BitBuf) (lo : Nat) (vs : List Bool)
    (h : s.mem.wf p = true) (hcap : lo + vs.length ≤ p.nbMax) : (s.putBits b lo vs).mem.wf p = true := by
  simp only [Memory.wf, Bool.and_eq_true] at h ⊢
  obtain ⟨⟨⟨h1, h2⟩, h3⟩, h4⟩ := h
  cases b
  · exact ⟨⟨⟨wf_splice lo vs h1 hcap, h2⟩, h3⟩, h4⟩
  · exact ⟨⟨⟨h1, wf_splice lo vs h2 hcap⟩, h3⟩, h4⟩

theorem wf_putWords {p : Params} {s : State} (b : SymBuf) (lo : Nat) (vs : List Word)
    (h : s.mem.wf p = true) (hcap : lo + vs.length ≤ 4 * p.nsMax) :
    (s.putWords b lo vs).mem.wf p = true := by
  simp only [Memory.wf, Bool.and_eq_true] at h ⊢
  obtain ⟨⟨⟨h1, h2⟩, h3⟩, h4⟩ := h
  cases b
  · exact ⟨⟨⟨h1, h2⟩, wf_splice lo vs h3 hcap⟩, h4⟩
  · exact ⟨⟨⟨h1, h2⟩, h3⟩, wf_splice lo vs h4 hcap⟩

theorem wf_putSyms {p : Params} {s : State} (b : SymBuf) (zs : List Symbol)
    (h : s.mem.wf p = true) (hcap : zs.length ≤ p.nsMax) : (s.putSyms b zs).mem.wf p = true :=
  wf_putWords b 0 _ h (by rw [allSymWords_length]; omega)

end Sys2Proof.Machine
end

