-- ==== Sys2Proof/Laws/Commands.lean ====
section
/-! SUPPORT. What running a command can do: it is rejected by its first failing check, or its effect is followed by the end of the completion. -/

namespace Sys2Proof.Machine

/-- The effect of each command. -/
def effectOf : Instr → State → State
  | .nop _ => fun s => s
  | .seed _ => fun s => { s with rng := s.seed }
  | .genbits count => genbitsEffect (countOf count)
  | .genNoise count => genNoiseEffect (countOf count)
  | .modBpsk _ => modBpskEffect
  | .modQpsk _ => modQpskEffect
  | .demodBpsk _ => demodBpskEffect
  | .demodQpsk _ => demodQpskEffect
  | .convEbno _ ord => convEbnoEffect ord
  | .addNoise _ => addNoiseEffect
  | .bypass _ => bypassEffect
  | .countErr _ => countErrEffect
  | .berCalc _ => berCalcEffect
  | .clrAcc _ => fun s => { s with errcnt := 0#64, bitcnt := 0#64 }

/-- Every arm of exec runs its command's effect. -/
theorem exec_eq_runCommand (i : Instr) (s : State) :
    exec i s = .next (runCommand i (effectOf i) s) := by
  cases i <;> rfl

theorem runCommand_of_none {i : Instr} {s : State} (f : State → State) (h : checks s i = .none) :
    runCommand i f s = (f s).complete := by
  simp [runCommand, h]

theorem runCommand_of_ne {i : Instr} {s : State} (f : State → State) (h : checks s i ≠ .none) :
    runCommand i f s = s.reject (checks s i) (encode i) := by
  unfold runCommand
  split
  · contradiction
  · rfl

/-- A command whose checks pass runs its effect and completes. -/
theorem exec_of_none {i : Instr} {s : State} (h : checks s i = .none) :
    exec i s = .next (effectOf i s).complete := by
  rw [exec_eq_runCommand, runCommand_of_none _ h]

/-- A command one of whose checks fails is rejected with the code of the first. -/
theorem exec_of_ne {i : Instr} {s : State} (h : checks s i ≠ .none) :
    exec i s = .next (s.reject (checks s i) (encode i)) := by
  rw [exec_eq_runCommand, runCommand_of_ne _ h]

/-- Everything exec can answer. -/
theorem exec_cases {i : Instr} {s t : State} (h : exec i s = .next t) :
    (checks s i = .none ∧ t = (effectOf i s).complete)
      ∨ (checks s i ≠ .none ∧ t = s.reject (checks s i) (encode i)) := by
  by_cases hc : checks s i = .none
  · rw [exec_of_none hc] at h
    exact .inl ⟨hc, by injection h with h; exact h.symm⟩
  · rw [exec_of_ne hc] at h
    exact .inr ⟨hc, by injection h with h; exact h.symm⟩

/-! The elements of a state depend on its buffers and its epoch alone. -/

theorem bit_congr {s t : State} (hm : t.mem = s.mem) (he : t.epoch = s.epoch) (b : BitBuf) (i : Nat) :
    t.bit b i = s.bit b i := by
  simp [State.bit, hm, he]

theorem symWord_congr {s t : State} (hm : t.mem = s.mem) (he : t.epoch = s.epoch) (b : SymBuf) (j : Nat) :
    t.symWord b j = s.symWord b j := by
  simp [State.symWord, hm, he]

theorem sym_congr {s t : State} (hm : t.mem = s.mem) (he : t.epoch = s.epoch) (b : SymBuf) (k : Nat) :
    t.sym b k = s.sym b k := by
  simp [State.sym, symWord_congr hm he]

@[simp] theorem bit_complete (s : State) (b : BitBuf) (i : Nat) : s.complete.bit b i = s.bit b i :=
  bit_congr rfl rfl b i

@[simp] theorem symWord_complete (s : State) (b : SymBuf) (j : Nat) :
    s.complete.symWord b j = s.symWord b j :=
  symWord_congr rfl rfl b j

@[simp] theorem sym_complete (s : State) (b : SymBuf) (k : Nat) : s.complete.sym b k = s.sym b k :=
  sym_congr rfl rfl b k

/-- What a bit reads as after a command that writes leading bits of a buffer. -/
theorem bit_of_putBits {s t u : State} (hm : t.mem = u.mem) (he : t.epoch = u.epoch) {b : BitBuf}
    {vs : List Bool} (hu : u = s.putBits b 0 vs) (b' : BitBuf) (i : Nat) :
    t.bit b' i = if b' = b ∧ i < vs.length then (vs[i]?).getD false else s.bit b' i := by
  rw [bit_congr hm he, hu, bit_putBits]
  simp

/-- What a symbol reads as after a command that writes leading symbols of a buffer. -/
theorem sym_of_putSyms {s t u : State} (hm : t.mem = u.mem) (he : t.epoch = u.epoch) {b : SymBuf}
    {zs : List Symbol} (hu : u = s.putSyms b zs) (b' : SymBuf) (k : Nat) :
    t.sym b' k = if b' = b ∧ k < zs.length then (zs[k]?).getD (0, 0) else s.sym b' k := by
  rw [sym_congr hm he, hu, sym_putSyms]

/-! Checks. -/

@[simp] theorem exceeds_eq_false {a b : Nat} : exceeds a b = false ↔ a ≤ b := by
  unfold exceeds
  rw [← Bool.not_eq_true, Nat.blt_eq]
  omega

@[simp] theorem exceeds_eq_true {a b : Nat} : exceeds a b = true ↔ b < a := by
  simp [exceeds, Nat.blt_eq]

/-- firstFailing answers NONE exactly when no check fails. -/
theorem firstFailing_none {l : List (Bool × ErrCode)} (hl : ∀ e ∈ l, e.2 ≠ .none) :
    firstFailing l = .none ↔ ∀ e ∈ l, e.1 = false := by
  induction l with
  | nil => simp [firstFailing]
  | cons e l ih =>
    obtain ⟨b, c⟩ := e
    have hc : c ≠ .none := hl (b, c) (by simp)
    have ih := ih (fun e he => hl e (by simp [he]))
    cases b <;> simp [firstFailing, hc, ih]

/-- The checks read the length registers, the parameters and the command, nothing else (44_control.md R261). -/
theorem checks_congr {s t : State} (i : Instr) (hcfg : t.cfg = s.cfg) (h1 : t.txbLen = s.txbLen)
    (h2 : t.txsLen = s.txsLen) (h3 : t.rxsLen = s.rxsLen) (h4 : t.rxbLen = s.rxbLen) :
    checks t i = checks s i := by
  cases i <;> simp [checks, commandChecks, hcfg, h1, h2, h3, h4]

theorem wordChecks_congr {s t : State} (w : Word) (hcfg : t.cfg = s.cfg) (h1 : t.txbLen = s.txbLen)
    (h2 : t.txsLen = s.txsLen) (h3 : t.rxsLen = s.rxsLen) (h4 : t.rxbLen = s.rxbLen) :
    wordChecks t w = wordChecks s w := by
  unfold wordChecks
  split
  · exact checks_congr _ hcfg h1 h2 h3 h4
  · rfl

/-- A word the checks accept is a command the checks accept. -/
theorem wordChecks_none {s : State} {w : Word} (h : wordChecks s w = .none) :
    ∃ i, decode w = .ok i ∧ checks s i = .none := by
  unfold wordChecks at h
  split at h
  · exact ⟨_, by assumption, h⟩
  · contradiction

/-! Lengths of what the element loops produce. -/

@[simp] theorem rngBits_length (n : Nat) (r : BitVec 64) : (rngBits n r).1.length = n := by
  induction n generalizing r with
  | zero => rfl
  | succ n ih => simp [rngBits, ih]

@[simp] theorem gaussPairs_length (nan : Nat → Nat → F64) (n k : Nat) (r : BitVec 64) :
    (gaussPairs nan n k r).1.length = n := by
  induction n generalizing k r with
  | zero => rfl
  | succ n ih => simp [gaussPairs, ih]

@[simp] theorem mapFrom_length {α β : Type} (f : Nat → α → β) (k : Nat) (l : List α) :
    (mapFrom f k l).length = l.length := by
  induction l generalizing k with
  | nil => rfl
  | cons a l ih => simp [mapFrom, ih]

theorem mapFrom_getElem? {α β : Type} (f : Nat → α → β) (k : Nat) (l : List α) (i : Nat) :
    (mapFrom f k l)[i]? = (l[i]?).map (f (k + i)) := by
  induction l generalizing k i with
  | nil => simp [mapFrom]
  | cons a l ih =>
    cases i with
    | zero => simp [mapFrom]
    | succ i => simp [mapFrom, ih, Nat.add_right_comm, Nat.add_assoc]

@[simp] theorem qpskBits_length (zs : List Symbol) : (qpskBits zs).length = 2 * zs.length := by
  induction zs with
  | nil => rfl
  | cons z zs ih => simp [qpskBits, ih]; omega

@[simp] theorem bitsUpTo_length (s : State) (b : BitBuf) (n : Nat) : (s.bitsUpTo b n).length = n := by
  simp [State.bitsUpTo]

@[simp] theorem symsUpTo_length (s : State) (b : SymBuf) (n : Nat) : (s.symsUpTo b n).length = n := by
  simp [State.symsUpTo]

@[simp] theorem wordBits_length (v : Word) : (wordBits v).length = 32 := by
  simp [wordBits]

end Sys2Proof.Machine
end

