-- ==== Sys2Proof/Laws/Steps.lean ====
section
/-! SUPPORT. Everything a step, a transaction and an issue can do, said once. -/

namespace Sys2Proof.Machine

/-- Everything the engine's turn can do. -/
theorem engineTurn_cases {s t : State} (h : engineTurn s = .next t) :
    ((s.inReset = true ∨ s.status.busy = false) ∧ t = s)
      ∨ (s.inReset = false ∧ s.status.busy = true ∧ ∃ i, decode s.cur = .ok i ∧ exec i s = .next t) := by
  unfold engineTurn at h
  split at h
  · rename_i hc
    refine .inl ⟨by simpa using hc, by injection h with h; exact h.symm⟩
  · rename_i hc
    simp only [Bool.or_eq_true, Bool.not_eq_true', not_or] at hc
    split at h
    · rename_i i hi
      exact .inr ⟨by simpa using hc.1, by simpa using hc.2, i, hi, h⟩
    · cases h

/-- Everything a step can do: an event of its list, or the engine's turn where none is left. -/
theorem step_cases {s t : State} (h : step s = .next t) :
    (s.inputs = [] ∧ engineTurn s = .next t)
      ∨ ∃ e es, s.inputs = e :: es ∧ handle e { s with inputs := es } = .next t := by
  unfold step at h
  split at h
  · exact .inl ⟨by assumption, h⟩
  · exact .inr ⟨_, _, by assumption, h⟩

/-- A busy engine's turn runs the command in CUR. -/
theorem engineTurn_of_busy {s : State} {i : Instr} (hr : s.inReset = false) (hb : s.status.busy = true)
    (hd : decode s.cur = .ok i) : engineTurn s = exec i s := by
  simp [engineTurn, hr, hb, hd]

/-- Everything an issue can do (44_control.md R261). -/
theorem issue_cases (s : State) (w : Word) :
    (s.status.busy = true ∧ s.issue w = s.reject .busy w)
      ∨ (s.status.busy = false ∧ wordChecks s w = .none ∧ s.issue w = s.accept w)
      ∨ (s.status.busy = false ∧ wordChecks s w ≠ .none ∧ s.issue w = s.reject (wordChecks s w) w) := by
  unfold State.issue
  cases hb : s.status.busy
  · by_cases hc : wordChecks s w = .none
    · simp [hc]
    · refine .inr (.inr ⟨rfl, hc, ?_⟩)
      cases h : wordChecks s w <;> first | contradiction | simp
  · simp

/-- Everything a transaction can do (20_memory.md R81, R82). -/
theorem transact_cases (s : State) (t : Transaction) :
    s.transact t = { s with resp := .none }
      ∨ s.transact t = { s with resp := .some ⟨false, 0#32⟩ }
      ∨ (s.inReset = false ∧ ∃ off, offsetOf s.cfg t.addr = .some off ∧ legalAccess t.size off = true
          ∧ s.transact t = s.serve (targetAt s.cfg off) t) := by
  unfold State.transact
  split
  · exact .inl rfl
  · rename_i hr
    split
    · exact .inl rfl
    · rename_i off hoff
      split
      · rename_i hl
        exact .inr (.inr ⟨by simpa using hr, off, hoff, hl, rfl⟩)
      · exact .inr (.inl rfl)

theorem bitTarget_cases (p : Params) (b : BitBuf) (j : Nat) :
    (j < p.nbMax / 32 ∧ bitTarget p b j = .bitWord b j) ∨ bitTarget p b j = .reserved := by
  unfold bitTarget
  by_cases h : j < p.nbMax / 32
  · exact .inl ⟨h, if_pos (Nat.blt_eq.mpr h)⟩
  · exact .inr (if_neg (by rw [Nat.blt_eq]; exact h))

theorem symTarget_cases (p : Params) (b : SymBuf) (j : Nat) :
    (j < 4 * p.nsMax ∧ symTarget p b j = .symWord b j) ∨ symTarget p b j = .reserved := by
  unfold symTarget
  by_cases h : j < 4 * p.nsMax
  · exact .inl ⟨h, if_pos (Nat.blt_eq.mpr h)⟩
  · exact .inr (if_neg (by rw [Nat.blt_eq]; exact h))

/-- Everything that can stand at an offset (20_memory.md R83); a window word lies inside its buffer's capacity (R84, R86). -/
theorem targetAt_cases (p : Params) (off : Nat) :
    (∃ r, targetAt p off = .reg r) ∨ targetAt p off = .reserved
      ∨ (∃ b j, j < p.nbMax / 32 ∧ targetAt p off = .bitWord b j)
      ∨ ∃ b j, j < 4 * p.nsMax ∧ targetAt p off = .symWord b j := by
  unfold targetAt
  split
  · split
    · exact .inl ⟨_, rfl⟩
    · exact .inr (.inl rfl)
  split
  · rcases bitTarget_cases p .txb ((off - 0x010000) / 4) with ⟨h, e⟩ | e
    · exact .inr (.inr (.inl ⟨_, _, h, e⟩))
    · exact .inr (.inl e)
  split
  · rcases bitTarget_cases p .rxb ((off - 0x018000) / 4) with ⟨h, e⟩ | e
    · exact .inr (.inr (.inl ⟨_, _, h, e⟩))
    · exact .inr (.inl e)
  split
  · exact .inr (.inl rfl)
  split
  · rcases symTarget_cases p .txs ((off - 0x100000) / 4) with ⟨h, e⟩ | e
    · exact .inr (.inr (.inr ⟨_, _, h, e⟩))
    · exact .inr (.inl e)
  split
  · rcases symTarget_cases p .rxs ((off - 0x200000) / 4) with ⟨h, e⟩ | e
    · exact .inr (.inr (.inr ⟨_, _, h, e⟩))
    · exact .inr (.inl e)
  · exact .inr (.inl rfl)

end Sys2Proof.Machine
end

