-- ==== Sys2Proof/Laws/Bus.lean ====
section
/-! SUPPORT. What a transaction at an offset of the block does, said once (20_memory.md R80 to R83, 44_control.md R267 to R270). -/

namespace Sys2Proof.Machine

theorem offsetOf_base (p : Params) {off : Nat} (h : off < 0x400000) : offsetOf p (p.base + off) = .some off := by
  unfold offsetOf
  rw [if_pos]
  · congr 1
    omega
  · simp only [Bool.and_eq_true, Nat.ble_eq, Nat.blt_eq]
    omega

/-- A transaction addressed to the block. -/
theorem transact_at {s : State} {t : Transaction} {off : Nat} (hr : s.inReset = false)
    (ha : t.addr = s.cfg.base + off) (h : off < 0x400000) :
    s.transact t = if legalAccess t.size off then s.serve (targetAt s.cfg off) t
      else { s with resp := .some ⟨false, 0#32⟩ } := by
  unfold State.transact
  rw [ha, offsetOf_base _ h]
  simp [hr]

theorem legalAccess_word {off : Nat} (h4 : off % 4 = 0) : legalAccess 4 off = true := by
  simp [legalAccess, h4]

/-- A word write at an aligned offset. -/
theorem write_at {s : State} {off : Nat} (v : Word) (hr : s.inReset = false) (h : off < 0x400000)
    (h4 : off % 4 = 0) : s.transact (.write 4 (s.cfg.base + off) v)
      = { s.hostWrite (targetAt s.cfg off) v with resp := .some ⟨true, 0#32⟩ } := by
  rw [transact_at hr rfl h, if_pos (by exact legalAccess_word h4)]
  rfl

/-- A word read at an aligned offset. -/
theorem read_at {s : State} {off : Nat} (hr : s.inReset = false) (h : off < 0x400000) (h4 : off % 4 = 0) :
    s.transact (.read 4 (s.cfg.base + off)) = s.hostRead (targetAt s.cfg off) := by
  rw [transact_at hr rfl h, if_pos (by exact legalAccess_word h4)]
  rfl

/-- No rule assigns an offset at or beyond 0x080 to a register (10_state.md R50). -/
theorem regAt_none {off : Nat} (h : 0x080 ≤ off) : regAt off = .none := by
  obtain ⟨k, rfl⟩ : ∃ k, off = k + 0x80 := ⟨off - 0x80, by omega⟩
  cases hr : regAt (k + 0x80) with
  | none => rfl
  | some r => simp [regAt] at hr

/-- The offset of each register (10_state.md R51). -/
def regOffset : Reg → Nat
  | .id => 0x000
  | .version => 0x004
  | .capBits => 0x008
  | .capSyms => 0x00C
  | .ctrl => 0x010
  | .cmd => 0x014
  | .status => 0x018
  | .irqEn => 0x01C
  | .txbLen => 0x020
  | .txsLen => 0x024
  | .rxsLen => 0x028
  | .rxbLen => 0x02C
  | .phaseLo => 0x030
  | .phaseHi => 0x034
  | .snrLo => 0x038
  | .snrHi => 0x03C
  | .ebnoLo => 0x040
  | .ebnoHi => 0x044
  | .seedLo => 0x048
  | .seedHi => 0x04C
  | .rngLo => 0x050
  | .rngHi => 0x054
  | .errcntLo => 0x058
  | .errcntHi => 0x05C
  | .bitcntLo => 0x060
  | .bitcntHi => 0x064
  | .lastcnt => 0x068
  | .berLo => 0x070
  | .berHi => 0x074
  | .nscaleLo => 0x078
  | .nscaleHi => 0x07C

/-- A register stands at its offset only. -/
theorem regAt_offset {off : Nat} {r : Reg} (h : regAt off = .some r) : regOffset r = off := by
  have hlt : off < 0x80 := by
    by_contra hn
    rw [regAt_none (by omega)] at h
    cases h
  have key : ∀ o, o < 0x80 → (regAt o).all (fun r => regOffset r == o) = true := by decide
  have := key off hlt
  rw [h] at this
  simpa using this

/-- The offsets of a bit buffer's window (R84, R85). -/
theorem targetAt_bitWindow (p : Params) (b : BitBuf) {j : Nat} (h : j < 8192) :
    targetAt p (bitWindow b + 4 * j) = bitTarget p b j := by
  unfold targetAt
  simp only [Nat.blt_eq]
  cases b
  · rw [bitWindow, if_neg (by omega), if_pos (by omega), show (65536 + 4 * j - 65536) / 4 = j by omega]
  · rw [bitWindow, if_neg (by omega), if_neg (by omega), if_pos (by omega),
      show (98304 + 4 * j - 98304) / 4 = j by omega]

/-- The offsets of a symbol buffer's window (R86, R87). -/
theorem targetAt_symWindow (p : Params) (b : SymBuf) {j : Nat} (h : j < 262144) :
    targetAt p (symWindow b + 4 * j) = symTarget p b j := by
  unfold targetAt
  simp only [Nat.blt_eq]
  cases b
  · rw [symWindow, if_neg (by omega), if_neg (by omega), if_neg (by omega), if_neg (by omega),
      if_pos (by omega), show (1048576 + 4 * j - 1048576) / 4 = j by omega]
  · rw [symWindow, if_neg (by omega), if_neg (by omega), if_neg (by omega), if_neg (by omega),
      if_neg (by omega), if_pos (by omega), show (2097152 + 4 * j - 2097152) / 4 = j by omega]

/-- Bit i of a window word (R84). -/
theorem bitWord_getLsbD (s : State) (b : BitBuf) (j : Nat) {i : Nat} (hi : i < 32) :
    (s.bitWord b j).getLsbD i = s.bit b (32 * j + i) := by
  simp [State.bitWord, hi]

/-- An idle engine has an empty write set. -/
theorem runningWriteSet_idle {s : State} (hb : s.status.busy = false) : runningWriteSet s = {} := by
  simp [runningWriteSet, hb]

/-- The running command's write set (44_control.md R266). -/
theorem runningWriteSet_busy {s : State} {i : Instr} (hb : s.status.busy = true) (hd : decode s.cur = .ok i) :
    runningWriteSet s = writeSet s i := by
  simp [runningWriteSet, hb, hd]

/-- A mask of a whole word. -/
theorem wholeWord_getLsbD (b : Bool) {i : Nat} (hi : i < 32) : (wholeWord b).getLsbD i = b := by
  cases b
  · simp [wholeWord]
  · rw [wholeWord, if_pos rfl, BitVec.getLsbD_allOnes, decide_eq_true hi]

/-- A reserved offset is never drawn (R267). -/
theorem drawnBits_reserved (s : State) : s.drawnBits .reserved = 0#32 := rfl

/-- A reserved offset reads 0, busy or not (R83). -/
theorem hostRead_reserved (s : State) : s.hostRead .reserved = { s with resp := .some ⟨true, 0#32⟩ } := by
  simp [State.hostRead, State.readValue, drawnBits_reserved, State.exactRead]

/-- While idle no bit of a read is drawn. -/
theorem drawnBits_idle {s : State} (hb : s.status.busy = false) (t : Target) : s.drawnBits t = 0#32 := by
  rw [State.drawnBits, runningWriteSet_idle hb]
  cases t with
  | reg r => cases r <;> rfl
  | bitWord b j =>
    ext i hi
    cases b <;> simp [WriteSet.mask, WriteSet.bits, Bool.eq_false_iff, Nat.blt_eq]
  | symWord b j => cases b <;> simp [WriteSet.mask, WriteSet.syms, wholeWord]
  | reserved => rfl

/-- While idle a read answers the exact value and changes nothing else. -/
theorem hostRead_idle {s : State} (hb : s.status.busy = false) (t : Target) :
    s.hostRead t = { s with resp := .some ⟨true, s.exactRead t⟩ } := by
  simp [State.hostRead, State.readValue, drawnBits_idle hb]

/-- A write that busy protection does not stop. -/
theorem hostWrite_of_open {s : State} {t : Target} (v : Word)
    (h : s.status.busy = false ∨ t.busyProtected = false) : s.hostWrite t v = s.writeTarget v t := by
  unfold State.hostWrite
  rcases h with h | h <;> simp [h]

/-- A write to a reserved offset does nothing, busy or not (R83, R268). -/
theorem hostWrite_reserved (s : State) (v : Word) : s.hostWrite .reserved v = s :=
  hostWrite_of_open v (.inr rfl)

/-- A write that busy protection stops sets WBUSY alone (R268). -/
theorem hostWrite_of_protected {s : State} {t : Target} (v : Word) (hb : s.status.busy = true)
    (h : t.busyProtected = true) : s.hostWrite t v = s.flagWbusy := by
  simp [State.hostWrite, hb, h]

/-- The release of the reset input gives every buffer an empty list, which is canonical. -/
theorem wf_powerUp (p : Params) (d : Nat) : (State.powerUp p d).mem.wf p = true := by
  simp [State.powerUp, Memory.wf, Cells.wf, Cells.wfFrom]

/-- The memory right after reset is canonical. -/
theorem wf_reset : State.reset.mem.wf State.reset.cfg = true := wf_powerUp Params.standard 0

/-- An abandoned command leaves the buffers canonical when its write set lies inside them (70_reset_and_hazards.md R343). -/
theorem wf_abandon {p : Params} {s : State} {ws : WriteSet} (h : s.mem.wf p = true) (h1 : ws.txb ≤ p.nbMax)
    (h2 : ws.rxb ≤ p.nbMax) (h3 : ws.txs ≤ p.nsMax) (h4 : ws.rxs ≤ p.nsMax) :
    (s.abandon ws).mem.wf p = true := by
  unfold State.abandon
  apply wf_putWords _ _ _ _ (by simp; omega)
  apply wf_putWords _ _ _ _ (by simp; omega)
  apply wf_putBits _ _ _ _ (by simp; omega)
  exact wf_putBits _ _ _ h (by simp; omega)

end Sys2Proof.Machine
end

