-- ==== Sys2Proof/Laws/Codec.lean ====
section
/-! SUPPORT. The fields of a command word put together from its parts. -/

namespace Sys2Proof

/-- The low part of a concatenation. -/
theorem extract_append_low {n m : Nat} (u : BitVec n) (o : BitVec m) : (u ++ o).extractLsb' 0 m = o := by
  ext i hi
  simp [BitVec.getLsbD_append, hi]

/-- A field of the high part of a concatenation. -/
theorem extract_append_field {n m : Nat} (u : BitVec n) (o : BitVec m) (k l : Nat) :
    (u ++ o).extractLsb' (m + k) l = u.extractLsb' k l := by
  ext i hi
  have h1 : ¬ m + k + i < m := by omega
  have h2 : m + k + i - m = k + i := by omega
  simp [BitVec.getLsbD_append, h1, h2]

/-- Two neighbouring fields make one. -/
theorem append_fields {w : Nat} (v : BitVec w) (lo m n : Nat) :
    v.extractLsb' (lo + m) n ++ v.extractLsb' lo m = v.extractLsb' lo (n + m) := by
  ext i hi
  by_cases h : i < m
  · simp [BitVec.getElem_append, h]
  · have : lo + m + (i - m) = lo + i := by omega
    simp [BitVec.getElem_append, h, this]

@[simp] theorem opcodeField_append (u : BitVec 24) (o : Byte) : opcodeField (u ++ o) = o :=
  extract_append_low u o

@[simp] theorem upperField_append (u : BitVec 24) (o : Byte) : upperField (u ++ o) = u :=
  (extract_append_field u o 0 24).trans BitVec.extractLsb'_eq_self

@[simp] theorem orderField_append (u : BitVec 24) (o : Byte) : orderField (u ++ o) = u.extractLsb' 0 2 :=
  extract_append_field u o 0 2

@[simp] theorem orderRsvdField_append (u : BitVec 24) (o : Byte) :
    orderRsvdField (u ++ o) = u.extractLsb' 2 22 :=
  extract_append_field u o 2 22

/-- A word is its upper field and its opcode. -/
theorem upperField_append_opcodeField (w : Word) : upperField w ++ opcodeField w = w :=
  (append_fields w 0 8 24).trans BitVec.extractLsb'_eq_self

/-- The upper field of a format O word is its reserved bits and its ORD. -/
theorem orderRsvdField_append_orderField (w : Word) : orderRsvdField w ++ orderField w = upperField w :=
  append_fields w 8 2 22

@[simp] theorem opcodeField_encode (i : Instr) : opcodeField (encode i) = i.opcode :=
  opcodeField_append i.upper i.opcode

@[simp] theorem upperField_encode (i : Instr) : upperField (encode i) = i.upper :=
  upperField_append i.upper i.opcode

end Sys2Proof
end

