-- ==== Sys2Proof/Laws/Random.lean ====
section
/-! SUPPORT. The generator's consumption (40_random.md R148): which words a command draws, and where it leaves rng_state. -/

namespace Sys2Proof.Machine

@[simp] theorem rngAfter_zero (r : BitVec 64) : rngAfter 0 r = r := by simp [rngAfter]

theorem rngAfter_add (a b : Nat) (r : BitVec 64) : rngAfter a (rngAfter b r) = rngAfter (b + a) r := by
  unfold rngAfter
  rw [BitVec.ofNat_add, BitVec.add_mul, BitVec.add_assoc]

/-- A generator call leaves the state one call on. -/
theorem rngNext_eq (r : BitVec 64) : rngNext r = ((rngNext r).1, rngAfter 1 r) := by
  simp only [rngNext, rngAfter, BitVec.one_mul]

theorem rngBits_succ (n : Nat) (r : BitVec 64) : rngBits (n + 1) r
    = ((rngNext r).1.getLsbD 63 :: (rngBits n (rngAfter 1 r)).1, (rngBits n (rngAfter 1 r)).2) := by
  rw [rngBits, rngBit, rngNext_eq]

/-- A Gaussian pair leaves the state two calls on. -/
theorem gaussPair_eq (nan : Nat → F64) (r : BitVec 64) :
    gaussPair nan r = ((gaussPair nan r).1, rngAfter 2 r) := by
  simp only [gaussPair]
  rw [rngNext_eq r]
  simp only []
  rw [rngNext_eq (rngAfter 1 r), rngAfter_add]

theorem gaussPairs_succ (nan : Nat → Nat → F64) (n k : Nat) (r : BitVec 64) :
    gaussPairs nan (n + 1) k r = ((gaussPair (nan k) r).1 :: (gaussPairs nan n (k + 1) (rngAfter 2 r)).1,
      (gaussPairs nan n (k + 1) (rngAfter 2 r)).2) := by
  rw [gaussPairs, gaussPair_eq]

/-- n calls of rng_bit(): the words drawn and the rng_state left (R142, R148). -/
theorem rngBits_spec (n : Nat) (r : BitVec 64) :
    (rngBits n r).2 = rngAfter n r
      ∧ ∀ i < n, (rngBits n r).1[i]? = .some ((rngNext (rngAfter i r)).1.getLsbD 63) := by
  induction n generalizing r with
  | zero => exact ⟨by rw [rngBits, rngAfter_zero], by omega⟩
  | succ n ih =>
    obtain ⟨hs, hw⟩ := ih (rngAfter 1 r)
    rw [rngBits_succ]
    constructor
    · rw [hs, rngAfter_add, Nat.add_comm]
    · intro i hi
      cases i with
      | zero => rw [List.getElem?_cons_zero, rngAfter_zero]
      | succ i => rw [List.getElem?_cons_succ, hw i (by omega), rngAfter_add, Nat.add_comm 1 i]

/-- n calls of gauss_pair(): the pairs drawn and the rng_state left (R146, R148). -/
theorem gaussPairs_spec (nan : Nat → Nat → F64) (n k : Nat) (r : BitVec 64) :
    (gaussPairs nan n k r).2 = rngAfter (2 * n) r
      ∧ ∀ i < n, (gaussPairs nan n k r).1[i]? = .some (gaussPair (nan (k + i)) (rngAfter (2 * i) r)).1 := by
  induction n generalizing k r with
  | zero => exact ⟨by rw [gaussPairs, Nat.mul_zero, rngAfter_zero], by omega⟩
  | succ n ih =>
    obtain ⟨hs, hw⟩ := ih (k + 1) (rngAfter 2 r)
    rw [gaussPairs_succ]
    constructor
    · rw [hs, rngAfter_add, show 2 + 2 * n = 2 * (n + 1) by omega]
    · intro i hi
      cases i with
      | zero => rw [List.getElem?_cons_zero, Nat.mul_zero, rngAfter_zero, Nat.add_zero]
      | succ i =>
        rw [List.getElem?_cons_succ, hw i (by omega), rngAfter_add, show k + 1 + i = k + (i + 1) by omega,
          show 2 + 2 * i = 2 * (i + 1) by omega]

end Sys2Proof.Machine
end

