-- ==== Sys2Proof/Laws/Effects.lean ====
section
/-! SUPPORT. What the effects of the commands write and what they keep, one lemma for each kind of state. -/

namespace Sys2Proof.Machine

/-- Fields that no command's effect writes. -/
theorem effectOf_frame (i : Instr) (s : State) :
    (effectOf i s).cfg = s.cfg ∧ (effectOf i s).irqEn = s.irqEn ∧ (effectOf i s).phase = s.phase
      ∧ (effectOf i s).ebno = s.ebno ∧ (effectOf i s).seed = s.seed ∧ (effectOf i s).cur = s.cur
      ∧ (effectOf i s).inReset = s.inReset ∧ (effectOf i s).inputs = s.inputs
      ∧ (effectOf i s).resp = s.resp ∧ (effectOf i s).draws = s.draws ∧ (effectOf i s).epoch = s.epoch := by
  cases i <;> simp [effectOf, genbitsEffect, genNoiseEffect, modBpskEffect, modQpskEffect, demodBpskEffect,
    demodQpskEffect, convEbnoEffect, addNoiseEffect, bypassEffect, countErrEffect, berCalcEffect, State.receive]

/-- An effect sets at most NUMERR and ACC_OVF of STATUS (60_exceptions.md R310, R312). -/
theorem effectOf_status (i : Instr) (s : State) : ∃ n a, (effectOf i s).status
    = { s.status with numerr := s.status.numerr || n, accOvf := s.status.accOvf || a } := by
  cases i
  case nop | seed | clrAcc => exact ⟨false, false, by simp [effectOf]⟩
  case genbits => exact ⟨false, false, by simp [effectOf, genbitsEffect]⟩
  case modQpsk => exact ⟨false, false, by simp [effectOf, modQpskEffect]⟩
  case countErr =>
    exact ⟨false, _, by simp only [effectOf, countErrEffect, flagAccOvf_status, Bool.or_false]; rfl⟩
  all_goals
    exact ⟨_, false, by
      simp only [effectOf, genNoiseEffect, modBpskEffect, demodBpskEffect, demodQpskEffect, convEbnoEffect,
        addNoiseEffect, bypassEffect, berCalcEffect, State.receive, flagNumerr_status, putSyms_status,
        putBits_status, Bool.or_false]
      rfl⟩

theorem receive_mem (s : State) (zs : List Symbol) (n : Nat) (scale : F64) (r : BitVec 64) :
    (s.receive zs n scale r).mem = (s.putSyms .rxs zs).mem := rfl

/-- An effect writes leading bits of one bit buffer, or leading symbols of one symbol buffer, or no buffer: those of its write set (44_control.md R266). -/
theorem effectOf_mem (i : Instr) (s : State) :
    (∃ b vs, (effectOf i s).mem = (s.putBits b 0 vs).mem ∧ vs.length = (writeSet s i).bits b
        ∧ (∀ b', b' ≠ b → (writeSet s i).bits b' = 0) ∧ ∀ b', (writeSet s i).syms b' = 0)
      ∨ (∃ b zs, (effectOf i s).mem = (s.putSyms b zs).mem ∧ zs.length = (writeSet s i).syms b
        ∧ (∀ b', b' ≠ b → (writeSet s i).syms b' = 0) ∧ ∀ b', (writeSet s i).bits b' = 0)
      ∨ (effectOf i s).mem = s.mem := by
  cases i
  case genbits =>
    exact .inl ⟨.txb, _, rfl, by simp [writeSet, WriteSet.bits],
      by intro b' h; cases b' <;> simp_all [writeSet, WriteSet.bits], by intro b'; cases b' <;> rfl⟩
  case demodBpsk | demodQpsk =>
    exact .inl ⟨.rxb, _, rfl, by simp [writeSet, WriteSet.bits],
      by intro b' h; cases b' <;> simp_all [writeSet, WriteSet.bits], by intro b'; cases b' <;> rfl⟩
  case modBpsk | modQpsk =>
    exact .inr (.inl ⟨.txs, _, rfl, by simp [writeSet, WriteSet.syms],
      by intro b' h; cases b' <;> simp_all [writeSet, WriteSet.syms], by intro b'; cases b' <;> rfl⟩)
  case bypass =>
    exact .inr (.inl ⟨.rxs, _, rfl, by simp [writeSet, WriteSet.syms],
      by intro b' h; cases b' <;> simp_all [writeSet, WriteSet.syms], by intro b'; cases b' <;> rfl⟩)
  case genNoise | addNoise =>
    exact .inr (.inl ⟨.rxs, _, receive_mem _ _ _ _ _, by simp [writeSet, WriteSet.syms],
      by intro b' h; cases b' <;> simp_all [writeSet, WriteSet.syms], by intro b'; cases b' <;> rfl⟩)
  all_goals exact .inr (.inr rfl)

/-- The write set of a command whose checks pass lies inside the buffers (60_exceptions.md R303). -/
theorem writeSet_fits {i : Instr} {s : State} (h : checks s i = .none) :
    (writeSet s i).txb ≤ s.cfg.nbMax ∧ (writeSet s i).rxb ≤ s.cfg.nbMax
      ∧ (writeSet s i).txs ≤ s.cfg.nsMax ∧ (writeSet s i).rxs ≤ s.cfg.nsMax := by
  cases i <;> simp [checks, commandChecks, firstFailing, writeSet] at h ⊢
  all_goals (repeat (split at h; · exact absurd h (by decide)))
  all_goals (revert h; simp; omega)

/-- Every effect keeps the canonical form of the buffers. -/
theorem wf_effectOf {i : Instr} {s : State} (h : checks s i = .none) (hm : s.mem.wf s.cfg = true) :
    (effectOf i s).mem.wf s.cfg = true := by
  obtain ⟨c1, c2, c3, c4⟩ := writeSet_fits h
  rcases effectOf_mem i s with ⟨b, vs, e, hl, -⟩ | ⟨b, zs, e, hl, -⟩ | e
  · rw [e]
    apply wf_putBits _ _ _ hm
    cases b <;> simp only [WriteSet.bits] at hl <;> omega
  · rw [e]
    apply wf_putSyms _ _ hm
    cases b <;> simp only [WriteSet.syms] at hl <;> omega
  · rw [e]
    exact hm

end Sys2Proof.Machine
end

