-- ==== Sys2Proof/Laws/Numbers.lean ====
section
/-! SUPPORT. Facts of binary64 encodings: drawn NaNs, and the fields of packed and rounded values (00_scope.md R9 to R11). -/

namespace Sys2Proof.Machine

/-- The bits of a drawn NaN: a sign, twelve ones, a payload. -/
theorem quietNan_toNat (c : BitVec 52) : ∃ s p, s < 2 ∧ p < 2 ^ 51
    ∧ (quietNan c).toNat = s * 2 ^ 63 + 4095 * 2 ^ 51 + p := by
  refine ⟨(c.extractLsb' 51 1).toNat, (c.extractLsb' 0 51).toNat, (c.extractLsb' 51 1).isLt,
    (c.extractLsb' 0 51).isLt, ?_⟩
  have h1 := (c.extractLsb' 51 1).isLt
  have h2 := (c.extractLsb' 0 51).isLt
  unfold quietNan
  rw [BitVec.toNat_append, ← Nat.shiftLeft_add_eq_or_of_lt h2, BitVec.toNat_append,
    ← Nat.shiftLeft_add_eq_or_of_lt (by decide), Nat.shiftLeft_eq, Nat.shiftLeft_eq]
  simp only [BitVec.toNat_ofNat]
  omega

/-- A drawn NaN is a quiet NaN (00_scope.md R11). -/
theorem quietNan_isQuiet (c : BitVec 52) : fIsQuietNan (quietNan c) = true := by
  obtain ⟨s, p, hs, hp, h⟩ := quietNan_toNat c
  simp only [fIsQuietNan, fExp, fFrac, h, Bool.and_eq_true, beq_iff_eq, Nat.ble_eq]
  omega

/-- A quiet NaN is a NaN. -/
theorem isNan_of_isQuiet {x : F64} (h : fIsQuietNan x = true) : fIsNan x = true := by
  simp only [fIsQuietNan, fIsNan, Bool.and_eq_true, beq_iff_eq, Nat.ble_eq, bne_iff_ne] at h ⊢
  omega

/-- A quiet NaN is not finite. -/
theorem not_finite_of_isQuiet {x : F64} (h : fIsQuietNan x = true) : fIsFinite x = false := by
  simp only [fIsQuietNan, fIsFinite, Bool.and_eq_true, beq_iff_eq] at h ⊢
  simp [h.1]

/-- The NaN an operation of a completion draws is quiet. -/
theorem nan_isQuiet (s : State) (k op : Nat) : fIsQuietNan (s.nan k op) = true := quietNan_isQuiet _

theorem fPack_toNat (s : Bool) {m : Nat} (h : m < 2 ^ 63) :
    (fPack s m).toNat = (if s then 2 ^ 63 else 0) + m := by
  unfold fPack
  rw [BitVec.toNat_ofNat, Nat.mod_eq_of_lt]
  split <;> omega

theorem fMag_fPack (s : Bool) {m : Nat} (h : m < 2 ^ 63) : fMag (fPack s m) = m := by
  rw [fMag, fPack_toNat s h]
  split <;> omega

theorem fSign_fPack (s : Bool) {m : Nat} (h : m < 2 ^ 63) : fSign (fPack s m) = s := by
  rw [fSign, fPack_toNat s h, Bool.eq_iff_iff, Nat.ble_eq]
  cases s
  · simp
    omega
  · simp

/-- A rounded value is a magnitude up to that of infinity, with the sign given. -/
theorem fRound_eq_pack (s : Bool) (m : Nat) (e : Int) : ∃ k ≤ fInfMag, fRound s m e = fPack s k := by
  unfold fRound
  split
  · exact ⟨0, Nat.zero_le _, rfl⟩
  · exact ⟨_, Nat.min_le_right _ _, rfl⟩

/-- Magnitudes up to that of infinity are no NaN. -/
theorem fPack_not_nan (s : Bool) {k : Nat} (h : k ≤ fInfMag) : fIsNan (fPack s k) = false := by
  have hk : k ≤ 9218868437227405312 := h
  have ht := fPack_toNat s (m := k) (by omega)
  by_cases hi : k < 9218868437227405312
  · have : fExp (fPack s k) ≠ 2047 := by
      rw [fExp, ht]
      split <;> omega
    simp [fIsNan, this]
  · have : fFrac (fPack s k) = 0 := by
      rw [fFrac, ht]
      split <;> omega
    simp [fIsNan, this]

/-- Rounding never gives a NaN, and keeps the sign (R10). -/
theorem fRound_not_nan (s : Bool) (m : Nat) (e : Int) :
    fIsNan (fRound s m e) = false ∧ fSign (fRound s m e) = s := by
  obtain ⟨k, hk, h⟩ := fRound_eq_pack s m e
  have hk' : k ≤ 9218868437227405312 := hk
  rw [h]
  exact ⟨fPack_not_nan s hk, fSign_fPack s (by omega)⟩

end Sys2Proof.Machine
end

