-- ==== Sys2Proof/Machine/Assembler.lean ====
section
/-! DEFINITION. The written form of a command: its mnemonic and, for formats C and O, one number (30_encoding.md R119). -/

namespace Sys2Proof.Machine

/-- The mnemonic of a command (30_encoding.md R115). -/
def mnemonicOf : Instr → String
  | .nop _ => "NOP"
  | .seed _ => "SEED"
  | .genbits _ => "GENBITS"
  | .genNoise _ => "GEN_NOISE"
  | .modBpsk _ => "MOD_BPSK"
  | .modQpsk _ => "MOD_QPSK"
  | .demodBpsk _ => "DEMOD_BPSK"
  | .demodQpsk _ => "DEMOD_QPSK"
  | .convEbno _ _ => "CONV_EBNO"
  | .addNoise _ => "ADD_NOISE"
  | .bypass _ => "BYPASS"
  | .countErr _ => "COUNT_ERR"
  | .berCalc _ => "BER_CALC"
  | .clrAcc _ => "CLR_ACC"

/-- The number written after the mnemonic, where the format has one (R119). -/
def writtenOperand : Instr → Option Nat
  | .genbits count => .some count.toNat
  | .genNoise count => .some count.toNat
  | .convEbno _ ord => .some ord.toNat
  | .nop _ | .seed _ | .modBpsk _ | .modQpsk _ | .demodBpsk _ | .demodQpsk _ => .none
  | .addNoise _ | .bypass _ | .countErr _ | .berCalc _ | .clrAcc _ => .none

/-- The command written as a mnemonic and an optional number; none where it cannot be written: an unknown mnemonic, a missing or superfluous number, a count above 16777215, an order other than 1 or 2 (R119). -/
def assemble (name : String) (operand : Option Nat) : Option Instr :=
  match operand with
  | .none =>
    if name == "NOP" then .some (.nop 0)
    else if name == "SEED" then .some (.seed 0)
    else if name == "MOD_BPSK" then .some (.modBpsk 0)
    else if name == "MOD_QPSK" then .some (.modQpsk 0)
    else if name == "DEMOD_BPSK" then .some (.demodBpsk 0)
    else if name == "DEMOD_QPSK" then .some (.demodQpsk 0)
    else if name == "ADD_NOISE" then .some (.addNoise 0)
    else if name == "BYPASS" then .some (.bypass 0)
    else if name == "COUNT_ERR" then .some (.countErr 0)
    else if name == "BER_CALC" then .some (.berCalc 0)
    else if name == "CLR_ACC" then .some (.clrAcc 0)
    else .none
  | .some n =>
    if name == "GENBITS" && Nat.ble n 16777215 then .some (.genbits (BitVec.ofNat 24 n))
    else if name == "GEN_NOISE" && Nat.ble n 16777215 then .some (.genNoise (BitVec.ofNat 24 n))
    else if name == "CONV_EBNO" && (n == 1 || n == 2) then .some (.convEbno 0 (BitVec.ofNat 2 n))
    else .none

/-- A digit's value, when it is a digit of the base. -/
def digitValue (base : Nat) (c : Char) : Option Nat :=
  let n := c.toNat
  let v :=
    if Nat.ble 48 n && Nat.ble n 57 then n - 48
    else if Nat.ble 97 n && Nat.ble n 102 then n - 87
    else if Nat.ble 65 n && Nat.ble n 70 then n - 55
    else base
  if Nat.blt v base then .some v else .none

/-- The number the digits stand for, `acc` being the value of those before them. -/
def digitsValue (base : Nat) : Nat → List Char → Option Nat
  | acc, [] => .some acc
  | acc, c :: cs =>
    match digitValue base c with
    | .some v => digitsValue base (acc * base + v) cs
    | .none => .none

/-- A number in decimal, or in hexadecimal with 0x (R119). -/
def numeralValue : List Char → Option Nat
  | [] => .none
  | '0' :: 'x' :: c :: cs => digitsValue 16 0 (c :: cs)
  | cs => digitsValue 10 0 cs

/-- The words of a line, separated by spaces; `cur` is the word being read, backwards. -/
def wordsOf : List Char → List Char → List (List Char)
  | cur, [] => if cur.isEmpty then [] else [cur.reverse]
  | cur, c :: cs =>
    if c == ' ' then (if cur.isEmpty then wordsOf [] cs else cur.reverse :: wordsOf [] cs)
    else wordsOf (c :: cur) cs

/-- A written line as a command (R119): a mnemonic, and one number for formats C and O; the order is written 1 or 2. -/
def assembleLine (line : String) : Option Instr :=
  match wordsOf [] line.toList with
  | [name] => assemble (String.ofList name) .none
  | [name, number] =>
    if String.ofList name == "CONV_EBNO" && number != ['1'] && number != ['2'] then .none
    else
      match numeralValue number with
      | .some n => assemble (String.ofList name) (.some n)
      | .none => .none
  | _ => .none

end Sys2Proof.Machine
end

