-- ==== Sys2Proof/Laws/PerInstr.lean ====
section
/-! SUPPORT. Facts made for each command. Assembles: every well-formed command can be written, and its written form reads back as it (30_encoding.md R119). -/

namespace Sys2Proof.Laws.Assembles

def Statement (i : Instr) : Prop :=
  i.wf = true → Machine.assemble (Machine.mnemonicOf i) (Machine.writtenOperand i) = .some i

theorem count_le (count : BitVec 24) : Nat.ble count.toNat 16777215 = true := by
  rw [Nat.ble_eq]
  have := count.isLt
  omega

/-- The reserved bits of a well-formed command of format N. -/
theorem zero_of_wf {rsvd : BitVec 24} (h : (rsvd == 0#24) = true) : rsvd = 0#24 := eq_of_beq h

theorem nop (rsvd : BitVec 24) : Statement (.nop rsvd) := by
  intro h; obtain rfl := zero_of_wf h; decide

theorem seed (rsvd : BitVec 24) : Statement (.seed rsvd) := by
  intro h; obtain rfl := zero_of_wf h; decide

theorem genbits (count : BitVec 24) : Statement (.genbits count) := by
  intro _; simp [Machine.assemble, Machine.mnemonicOf, Machine.writtenOperand, count_le]

theorem genNoise (count : BitVec 24) : Statement (.genNoise count) := by
  intro _; simp [Machine.assemble, Machine.mnemonicOf, Machine.writtenOperand, count_le]

theorem modBpsk (rsvd : BitVec 24) : Statement (.modBpsk rsvd) := by
  intro h; obtain rfl := zero_of_wf h; decide

theorem modQpsk (rsvd : BitVec 24) : Statement (.modQpsk rsvd) := by
  intro h; obtain rfl := zero_of_wf h; decide

theorem demodBpsk (rsvd : BitVec 24) : Statement (.demodBpsk rsvd) := by
  intro h; obtain rfl := zero_of_wf h; decide

theorem demodQpsk (rsvd : BitVec 24) : Statement (.demodQpsk rsvd) := by
  intro h; obtain rfl := zero_of_wf h; decide

theorem convEbno (rsvd : BitVec 22) (ord : BitVec 2) : Statement (.convEbno rsvd ord) := by
  intro h
  simp only [Instr.wf, Bool.and_eq_true, Bool.or_eq_true, beq_iff_eq] at h
  obtain ⟨rfl, rfl | rfl⟩ := h <;> decide

theorem addNoise (rsvd : BitVec 24) : Statement (.addNoise rsvd) := by
  intro h; obtain rfl := zero_of_wf h; decide

theorem bypass (rsvd : BitVec 24) : Statement (.bypass rsvd) := by
  intro h; obtain rfl := zero_of_wf h; decide

theorem countErr (rsvd : BitVec 24) : Statement (.countErr rsvd) := by
  intro h; obtain rfl := zero_of_wf h; decide

theorem berCalc (rsvd : BitVec 24) : Statement (.berCalc rsvd) := by
  intro h; obtain rfl := zero_of_wf h; decide

theorem clrAcc (rsvd : BitVec 24) : Statement (.clrAcc rsvd) := by
  intro h; obtain rfl := zero_of_wf h; decide

end Sys2Proof.Laws.Assembles
end

