-- ==== Sys2Proof/Laws/Rounding.lean ====
section
/-! SUPPORT. What fRound answers, said once: the nearest finite value, ties to even, or an infinity (00_scope.md R10). A sum, a product, a quotient, a square root and cvt all end in it. -/

namespace Sys2Proof.Machine

/-- An integer within one half of q is nearest to it; another is as near only on a tie. -/
theorem nearest_int {n : ℤ} {q : ℝ} (h : |(n : ℝ) - q| ≤ 1 / 2) (ht : |(n : ℝ) - q| = 1 / 2 → n % 2 = 0)
    (k : ℤ) : |(n : ℝ) - q| ≤ |(k : ℝ) - q| ∧ (|(n : ℝ) - q| = |(k : ℝ) - q| → k ≠ n → n % 2 = 0) := by
  by_cases hk : k = n
  · subst hk
    exact ⟨le_rfl, fun _ hne => absurd rfl hne⟩
  · have h1 : (1 : ℝ) ≤ |(k : ℝ) - n| := by
      have : (1 : ℤ) ≤ |k - n| := Int.one_le_abs (sub_ne_zero.mpr hk)
      exact_mod_cast this
    have h2 : |(k : ℝ) - n| ≤ |(k : ℝ) - q| + |(n : ℝ) - q| := by
      have := abs_sub_le (k : ℝ) q n
      rwa [abs_sub_comm q (n : ℝ)] at this
    exact ⟨by linarith, fun he _ => ht (by linarith)⟩

/-- Quotient and remainder of a division by 2^d, and which way it rounds. -/
theorem divPow2Even_cases (m d : Nat) : ∃ Q r : Nat, m = 2 ^ d * Q + r ∧ r < 2 ^ d ∧
    ((divPow2Even m d = Q + 1 ∧ (2 ^ d < 2 * r ∨ 2 * r = 2 ^ d ∧ Q % 2 = 1))
      ∨ (divPow2Even m d = Q ∧ (2 * r < 2 ^ d ∨ 2 * r = 2 ^ d ∧ Q % 2 = 0))) := by
  refine ⟨m / 2 ^ d, m % 2 ^ d, (Nat.div_add_mod m (2 ^ d)).symm, Nat.mod_lt _ (by positivity), ?_⟩
  unfold divPow2Even
  simp only
  split
  · rename_i h
    simp only [Bool.or_eq_true, Nat.blt_eq, Bool.and_eq_true, beq_iff_eq] at h
    exact .inl ⟨rfl, h⟩
  · rename_i h
    simp only [Bool.or_eq_true, Nat.blt_eq, Bool.and_eq_true, beq_iff_eq, not_or, not_and] at h
    exact .inr ⟨rfl, by omega⟩

/-- What divPow2Even answers is nearest to m / 2^d, ties to even. -/
theorem divPow2Even_exact (m d : Nat) :
    |(divPow2Even m d : ℝ) - m / 2 ^ d| ≤ 1 / 2
      ∧ (|(divPow2Even m d : ℝ) - m / 2 ^ d| = 1 / 2 → divPow2Even m d % 2 = 0) := by
  obtain ⟨Q, r, hm, hr, h⟩ := divPow2Even_cases m d
  have hp : (0 : ℝ) < 2 ^ d := by positivity
  have hmR : (m : ℝ) / 2 ^ d = Q + r / 2 ^ d := by
    rw [hm]; push_cast; field_simp
  have hr0 : (0 : ℝ) ≤ (r : ℝ) / 2 ^ d := by positivity
  have hr1 : (r : ℝ) / 2 ^ d < 1 := by
    rw [div_lt_one hp]; exact_mod_cast hr
  rw [hmR]
  rcases h with ⟨e, h⟩ | ⟨e, h⟩
  · have hge : (1 : ℝ) / 2 ≤ (r : ℝ) / 2 ^ d := by
      rw [div_le_div_iff₀ (by norm_num) hp]
      have : 2 ^ d ≤ 2 * r := by omega
      have : (2 ^ d : ℝ) ≤ 2 * r := by exact_mod_cast this
      linarith
    rw [e]; push_cast
    have : ((Q : ℝ) + 1 - (Q + r / 2 ^ d)) = 1 - r / 2 ^ d := by ring
    rw [this, abs_of_nonneg (by linarith)]
    refine ⟨by linarith, fun he => ?_⟩
    have : (2 * r : ℝ) = 2 ^ d := by
      have : (r : ℝ) / 2 ^ d = 1 / 2 := by linarith
      rw [div_eq_div_iff hp.ne' (by norm_num)] at this
      linarith
    have : 2 * r = 2 ^ d := by exact_mod_cast this
    omega
  · have hge : (r : ℝ) / 2 ^ d ≤ (1 : ℝ) / 2 := by
      rw [div_le_div_iff₀ hp (by norm_num)]
      have : 2 * r ≤ 2 ^ d := by omega
      have : (2 * r : ℝ) ≤ 2 ^ d := by exact_mod_cast this
      linarith
    rw [e]
    have : ((Q : ℝ) - (Q + r / 2 ^ d)) = -(r / 2 ^ d) := by ring
    rw [this, abs_neg, abs_of_nonneg hr0]
    refine ⟨hge, fun he => ?_⟩
    have : (2 * r : ℝ) = 2 ^ d := by
      rw [div_eq_div_iff hp.ne' (by norm_num)] at he
      linarith
    have : 2 * r = 2 ^ d := by exact_mod_cast this
    omega

/-- The same of a value strictly within one unit of an odd m, where two bits or more are dropped: there is no tie. -/
theorem divPow2Even_sticky {m d : Nat} {q : ℝ} (hodd : m % 2 = 1) (hd : 2 ≤ d)
    (hq : |q - m / 2 ^ d| < 1 / 2 ^ d) : |(divPow2Even m d : ℝ) - q| < 1 / 2 := by
  obtain ⟨Q, r, hm, hr, h⟩ := divPow2Even_cases m d
  obtain ⟨c, rfl⟩ : ∃ c, d = c + 2 := ⟨d - 2, by omega⟩
  have hp4 : 2 ^ (c + 2) = 4 * 2 ^ c := by ring
  have hp : (0 : ℝ) < 2 ^ (c + 2) := by positivity
  rw [hp4] at hm hr h
  have hrodd : r % 2 = 1 := by
    rw [hm] at hodd
    have : (4 * 2 ^ c * Q) % 2 = 0 := by
      rw [show 4 * 2 ^ c * Q = 2 * (2 * 2 ^ c * Q) by ring]; omega
    omega
  have hmR : (m : ℝ) / 2 ^ (c + 2) = Q + r / 2 ^ (c + 2) := by
    rw [hm]; push_cast; field_simp; ring
  rw [hmR, abs_lt] at hq
  have hq1 : (Q : ℝ) + ((r : ℝ) - 1) / 2 ^ (c + 2) < q := by
    have : ((r : ℝ) - 1) / 2 ^ (c + 2) = r / 2 ^ (c + 2) - 1 / 2 ^ (c + 2) := by ring
    linarith [hq.1]
  have hq2 : q < (Q : ℝ) + ((r : ℝ) + 1) / 2 ^ (c + 2) := by
    have : ((r : ℝ) + 1) / 2 ^ (c + 2) = r / 2 ^ (c + 2) + 1 / 2 ^ (c + 2) := by ring
    linarith [hq.2]
  have hP : (2 : ℝ) ^ (c + 2) = 4 * 2 ^ c := by ring
  have hc : (0 : ℝ) < 2 ^ c := by positivity
  rw [hP] at hq1 hq2
  rw [abs_lt]
  rcases h with ⟨e, h⟩ | ⟨e, h⟩
  · have h1 : 2 * 2 ^ c + 1 ≤ r := by omega
    have h1 : 2 * (2 : ℝ) ^ c + 1 ≤ r := by exact_mod_cast h1
    have h2 : r + 1 ≤ 4 * 2 ^ c := by omega
    have h2 : (r : ℝ) + 1 ≤ 4 * 2 ^ c := by exact_mod_cast h2
    have a : (1 : ℝ) / 2 ≤ ((r : ℝ) - 1) / (4 * 2 ^ c) := by
      rw [div_le_div_iff₀ (by norm_num) (by positivity)]; linarith
    have b : ((r : ℝ) + 1) / (4 * 2 ^ c) ≤ 1 := by
      rw [div_le_one (by positivity)]; exact h2
    rw [e]; push_cast
    constructor <;> linarith
  · have h1 : r + 1 ≤ 2 * 2 ^ c := by omega
    have h1 : (r : ℝ) + 1 ≤ 2 * 2 ^ c := by exact_mod_cast h1
    have h2 : 1 ≤ r := by omega
    have h2 : (1 : ℝ) ≤ r := by exact_mod_cast h2
    have a : (0 : ℝ) ≤ ((r : ℝ) - 1) / (4 * 2 ^ c) := by
      apply div_nonneg <;> [linarith; positivity]
    have b : ((r : ℝ) + 1) / (4 * 2 ^ c) ≤ 1 / 2 := by
      rw [div_le_div_iff₀ (by positivity) (by norm_num)]; linarith
    rw [e]
    constructor <;> linarith

/-- A finite encoding: a significand below 2^53 and an exponent from -1074, and 2^52 or more above the least exponent (00_scope.md R9). -/
theorem fSig_bounds (y : F64) : fSig y < 2 ^ 53 ∧ -1074 ≤ fLsb y ∧ (-1074 < fLsb y → 2 ^ 52 ≤ fSig y) := by
  have hf : fFrac y < 2 ^ 52 := Nat.mod_lt _ (by decide)
  unfold fSig fLsb
  simp only [beq_iff_eq]
  have hm : Nat.max (fExp y) 1 = max (fExp y) 1 := rfl
  rw [hm]
  split <;> omega

/-- A packed magnitude below that of infinity, taken apart: a significand n of unit 2^t. -/
theorem fPack_value (s : Bool) {t : ℤ} {n : Nat} (ht : -1074 ≤ t) (hn : n ≤ 2 ^ 53) (hl : -1074 < t → 2 ^ 52 ≤ n)
    (hk : (t + 1074).toNat * 2 ^ 52 + n < fInfMag) :
    fIsFinite (fPack s ((t + 1074).toNat * 2 ^ 52 + n)) = true
      ∧ ((fVal (fPack s ((t + 1074).toNat * 2 ^ 52 + n)) : ℚ) : ℝ) = (if s then -1 else 1) * (n : ℝ) * 2 ^ t
      ∧ fFrac (fPack s ((t + 1074).toNat * 2 ^ 52 + n)) % 2 = n % 2 := by
  obtain ⟨c, rfl⟩ : ∃ c : Nat, t = (c : ℤ) - 1074 := ⟨(t + 1074).toNat, by omega⟩
  simp only [sub_add_cancel, Int.toNat_natCast] at hk ⊢
  have hi : fInfMag = 2047 * 2 ^ 52 := by norm_num [fInfMag]
  have hs := fSign_fPack s (m := c * 2 ^ 52 + n) (by omega)
  have hx := fPack_toNat s (m := c * 2 ^ 52 + n) (by omega)
  generalize fPack s (c * 2 ^ 52 + n) = x at hs hx
  have hE : fExp x = (c * 2 ^ 52 + n) / 2 ^ 52 := by
    rw [fExp, hx]
    split <;> omega
  have hF : fFrac x = (c * 2 ^ 52 + n) % 2 ^ 52 := by
    rw [fFrac, hx]
    split <;> omega
  have hv : ((fVal x : ℚ) : ℝ) = (if s then -1 else 1) * ((fSig x : ℝ) * 2 ^ fLsb x) := by
    rw [fVal, hs]
    push_cast
    split <;> ring
  refine ⟨?_, ?_, by omega⟩
  · simp only [fIsFinite, bne_iff_ne, ne_eq, hE]
    omega
  · suffices h : (fSig x : ℝ) * 2 ^ fLsb x = n * 2 ^ ((c : ℤ) - 1074) by rw [hv, h, mul_assoc]
    have hE' : (c * 2 ^ 52 + n) / 2 ^ 52 = c + n / 2 ^ 52 := by omega
    have hlsb : fLsb x = ((max (fExp x) 1 : ℕ) : ℤ) - 1075 := rfl
    rw [hE'] at hE
    by_cases h53 : n = 2 ^ 53
    · have h1 : fSig x = 2 ^ 52 := by
        unfold fSig
        rw [hE, hF]
        simp only [beq_iff_eq]
        split <;> omega
      have h2 : fLsb x = (c : ℤ) - 1074 + 1 := by
        have : n / 2 ^ 52 = 2 := by omega
        omega
      rw [h1, h2, h53, zpow_add_one₀ (by norm_num), Nat.cast_pow, Nat.cast_pow, Nat.cast_ofNat, pow_succ (2 : ℝ) 52]
      ring
    · have h1 : fSig x = n := by
        unfold fSig
        rw [hE, hF]
        simp only [beq_iff_eq]
        split <;> omega
      have h2 : fLsb x = (c : ℤ) - 1074 := by
        have : n / 2 ^ 52 = 1 ∨ n / 2 ^ 52 = 0 ∧ c = 0 := by omega
        omega
      rw [h1, h2]

/-- The number n that rounding keeps is nearest to X in units of 2^t; X is m * 2^e, or lies within one unit of an odd m of 55 bits or more (a quotient or root with its remainder recorded in the last bit). -/
theorem fRound_core {m : Nat} {e : ℤ} {X : ℝ} (hm : m ≠ 0)
    (hX : X = m * 2 ^ e ∨ m % 2 = 1 ∧ 54 ≤ Nat.log2 m ∧ |X - m * 2 ^ e| < 2 ^ e) (s : Bool) :
    ∃ (t : ℤ) (n : Nat), fRound s m e = fPack s (min ((t + 1074).toNat * 2 ^ 52 + n) fInfMag)
      ∧ -1074 ≤ t ∧ X < 2 ^ 53 * 2 ^ t ∧ (-1074 < t → 2 ^ 52 * 2 ^ t ≤ X)
      ∧ |(n : ℝ) - X / 2 ^ t| ≤ 1 / 2 ∧ (|(n : ℝ) - X / 2 ^ t| = 1 / 2 → n % 2 = 0) := by
  have hlo : 2 ^ Nat.log2 m ≤ m := Nat.log2_self_le hm
  have hhi : m < 2 ^ (Nat.log2 m + 1) := Nat.lt_log2_self
  have hb : (2 : ℝ) ^ Nat.log2 m * 2 ^ e ≤ X ∧ X < 2 ^ (Nat.log2 m + 1) * 2 ^ e := by
    have he : (0 : ℝ) < 2 ^ e := by positivity
    have h1 : (2 : ℝ) ^ Nat.log2 m ≤ m := by exact_mod_cast hlo
    have h2 : (m : ℝ) + 1 ≤ 2 ^ (Nat.log2 m + 1) := by exact_mod_cast hhi
    rcases hX with rfl | ⟨hodd, hL, hq⟩
    · exact ⟨by nlinarith, by nlinarith⟩
    · have h3 : 2 ^ Nat.log2 m + 1 ≤ m := by
        obtain ⟨c, hc⟩ : ∃ c, Nat.log2 m = c + 1 := ⟨Nat.log2 m - 1, by omega⟩
        rw [hc, pow_succ] at hlo ⊢
        omega
      have h3 : (2 : ℝ) ^ Nat.log2 m + 1 ≤ m := by exact_mod_cast h3
      rw [abs_lt] at hq
      exact ⟨by nlinarith [hq.1], by nlinarith [hq.2]⟩
  have hn := divPow2Even_exact m
  have hst := @divPow2Even_sticky m
  generalize hL : Nat.log2 m = L at hX hb hlo hhi
  refine ⟨max (e + L - 52) (-1074), if max (e + L - 52) (-1074) ≤ e then m * 2 ^ (e - max (e + L - 52) (-1074)).toNat
    else divPow2Even m (max (e + L - 52) (-1074) - e).toNat, ?_, by omega, ?_, ?_, ?_⟩
  · simp only [fRound, beq_iff_eq, hm, if_false, hL]
  · refine lt_of_lt_of_le hb.2 ?_
    rw [← zpow_natCast, ← zpow_natCast, ← zpow_add₀ (by norm_num), ← zpow_add₀ (by norm_num)]
    exact zpow_le_zpow_right₀ (by norm_num) (by push_cast; omega)
  · intro ht
    refine le_trans ?_ hb.1
    rw [← zpow_natCast, ← zpow_natCast, ← zpow_add₀ (by norm_num), ← zpow_add₀ (by norm_num)]
    exact zpow_le_zpow_right₀ (by norm_num) (by push_cast; omega)
  · have hge : e + L - 52 ≤ max (e + L - 52) (-1074) := by omega
    generalize max (e + L - 52) (-1074) = t at hge
    have h2t : (2 : ℝ) ^ t ≠ 0 := by positivity
    split
    · rename_i hte
      rcases hX with rfl | ⟨-, h54, -⟩
      · obtain ⟨d, rfl⟩ : ∃ d : Nat, e = t + d := ⟨(e - t).toNat, by omega⟩
        have : (m : ℝ) * 2 ^ (t + (d : ℤ)) / 2 ^ t = m * 2 ^ d := by
          rw [zpow_add₀ (by norm_num), zpow_natCast]
          field_simp
        rw [this]
        simp
      · omega
    · rename_i hte
      obtain ⟨d, rfl⟩ : ∃ d : Nat, t = e + d := ⟨(t - e).toNat, by omega⟩
      have hd : (e + (d : ℤ) - e).toNat = d := by omega
      have hq (Y : ℝ) : Y / 2 ^ (e + (d : ℤ)) = Y / 2 ^ e / 2 ^ d := by
        rw [zpow_add₀ (by norm_num), zpow_natCast, div_div]
      rw [hd, hq]
      have he : (0 : ℝ) < 2 ^ e := by positivity
      rcases hX with rfl | ⟨hodd, h54, hx⟩
      · rw [mul_div_assoc, div_self he.ne', mul_one]
        exact hn d
      · have hlt : |X / 2 ^ e / 2 ^ d - m / 2 ^ d| < 1 / 2 ^ d := by
          have : X / 2 ^ e / 2 ^ d - m / 2 ^ d = (X - m * 2 ^ e) / 2 ^ e / 2 ^ d := by
            field_simp
          rw [this, abs_div, abs_div, abs_of_pos he, abs_of_pos (by positivity : (0 : ℝ) < 2 ^ d)]
          gcongr
          rw [div_lt_one he]
          exact hx
        have := hst hodd (by omega) hlt
        exact ⟨this.le, fun h => absurd h this.ne⟩

/-- Rounding (00_scope.md R10): below 2^1024 - 2^970 the finite value nearest to X, ties to even; else an infinity. -/
theorem fRound_spec (s : Bool) {m : Nat} {e : ℤ} {X : ℝ} (hm : m ≠ 0)
    (hX : X = m * 2 ^ e ∨ m % 2 = 1 ∧ 54 ≤ Nat.log2 m ∧ |X - m * 2 ^ e| < 2 ^ e) :
    if X < 2 ^ 1024 - 2 ^ 970 then
      fIsFinite (fRound s m e) = true ∧ RoundsToReal (fRound s m e) ((if s then -1 else 1) * X)
    else fRound s m e = fInf s := by
  obtain ⟨t, n, hr, ht, hhi, hlo, hn, htie⟩ := fRound_core hm hX s
  have h2t : (0 : ℝ) < 2 ^ t := by positivity
  obtain ⟨q, rfl⟩ : ∃ q, X = q * 2 ^ t := ⟨X / 2 ^ t, by field_simp⟩
  rw [mul_div_assoc, div_self h2t.ne', mul_one] at hn htie
  have hqhi : q < 2 ^ 53 := lt_of_mul_lt_mul_right hhi h2t.le
  have hqlo : -1074 < t → 2 ^ 52 ≤ q := fun h => le_of_mul_le_mul_right (hlo h) h2t
  rw [abs_le] at hn
  have hn53 : n ≤ 2 ^ 53 := by
    have : (n : ℝ) < (2 ^ 53 + 1 : ℕ) := by push_cast; linarith [hn.2]
    exact Nat.lt_succ_iff.mp (by exact_mod_cast this)
  have hn52 : -1074 < t → 2 ^ 52 ≤ n := fun h => by
    have : ((2 ^ 52 : ℕ) : ℝ) < ((n + 1 : ℕ) : ℝ) := by push_cast; linarith [hn.1, hqlo h]
    exact Nat.lt_succ_iff.mp (by exact_mod_cast this)
  have hi : fInfMag = 2047 * 2 ^ 52 := by norm_num [fInfMag]
  have thr : (2 : ℝ) ^ 1024 - 2 ^ 970 = (2 ^ 53 - 1 / 2) * 2 ^ (971 : ℤ) := by
    rw [show (2 : ℝ) ^ 1024 = 2 ^ 54 * 2 ^ 970 by rw [← pow_add], show (971 : ℤ) = (971 : ℕ) from rfl, zpow_natCast,
      show (2 : ℝ) ^ 971 = 2 * 2 ^ 970 by rw [← pow_succ']]
    generalize (2 : ℝ) ^ 970 = P
    ring
  rw [thr]
  have big : 972 ≤ t → ¬ q * 2 ^ t < (2 ^ 53 - 1 / 2) * 2 ^ (971 : ℤ) := fun h => by
    have h1 : (2 : ℝ) ^ (971 : ℤ) * 2 ≤ 2 ^ t := by
      rw [← zpow_add_one₀ (by norm_num)]
      exact zpow_le_zpow_right₀ (by norm_num) h
    have h2 := hqlo (by omega)
    have h3 : (0 : ℝ) < 2 ^ (971 : ℤ) := by positivity
    generalize (2 : ℝ) ^ (971 : ℤ) = Q at *
    nlinarith
  have small : t ≤ 970 → q * 2 ^ t < (2 ^ 53 - 1 / 2) * 2 ^ (971 : ℤ) := fun h => by
    have h1 : (2 : ℝ) ^ t * 2 ≤ 2 ^ (971 : ℤ) := by
      rw [← zpow_add_one₀ (by norm_num)]
      exact zpow_le_zpow_right₀ (by norm_num) (by omega)
    have h3 : (0 : ℝ) < 2 ^ (971 : ℤ) := by positivity
    generalize (2 : ℝ) ^ (971 : ℤ) = Q at *
    nlinarith
  have edge : t = 971 → (q * 2 ^ t < (2 ^ 53 - 1 / 2) * 2 ^ (971 : ℤ) ↔ n < 2 ^ 53) := fun h => by
    subst h
    rw [mul_lt_mul_iff_left₀ (by positivity)]
    constructor
    · intro hq
      by_contra hc
      have : n = 2 ^ 53 := by omega
      rw [this] at hn
      push_cast at hn
      linarith [hn.2]
    · intro hlt
      have h1 : (n : ℝ) + 1 ≤ 2 ^ 53 := by exact_mod_cast hlt
      by_contra hc
      have h2 : (n : ℝ) - q = -(1 / 2) := by linarith [hn.1]
      have h3 := htie (by rw [h2]; norm_num)
      have h4 : (n : ℝ) = ((2 ^ 53 - 1 : ℕ) : ℝ) := by push_cast; linarith [hn.1]
      have h5 : n = 2 ^ 53 - 1 := by exact_mod_cast h4
      omega
  have hkiff : q * 2 ^ t < (2 ^ 53 - 1 / 2) * 2 ^ (971 : ℤ) ↔ (t + 1074).toNat * 2 ^ 52 + n < fInfMag := by
    rcases lt_trichotomy t 971 with h | h | h
    · exact ⟨fun _ => by omega, fun _ => small (by omega)⟩
    · rw [edge h]
      omega
    · exact ⟨fun hc => absurd hc (big h), fun hc => by have := hn52 (by omega); omega⟩
  split
  · rename_i hlt
    have hk := hkiff.mp hlt
    obtain ⟨hfin, hval, hfrac⟩ := fPack_value s ht hn53 hn52 hk
    rw [hr, Nat.min_eq_left hk.le]
    refine ⟨hfin, fun y hy => ?_⟩
    rw [hval, hfrac]
    have hσ : |(if s then (-1 : ℝ) else 1)| = 1 := by split <;> simp
    have hYv : ∃ z : ℤ, ((fVal y : ℚ) : ℝ) = (if s then (-1 : ℝ) else 1) * (z * 2 ^ fLsb y) ∧ |z| = fSig y := by
      refine ⟨(if s then -1 else 1) * (if fSign y then -1 else 1) * fSig y, ?_, ?_⟩
      · rw [fVal]
        push_cast
        split <;> split <;> simp
      · split <;> split <;> simp
    obtain ⟨z, hz, hzs⟩ := hYv
    obtain ⟨hs53, hl, -⟩ := fSig_bounds y
    generalize (if s then (-1 : ℝ) else 1) = σ at hσ hz hval ⊢
    rw [hz]
    have e1 (a : ℝ) : |σ * a * 2 ^ t - σ * (q * 2 ^ t)| = |a - q| * 2 ^ t := by
      rw [show σ * a * 2 ^ t - σ * (q * 2 ^ t) = σ * (a - q) * 2 ^ t by ring, abs_mul, abs_mul, hσ, one_mul,
        abs_of_pos h2t]
    by_cases hle : t ≤ fLsb y
    · obtain ⟨d, hd⟩ : ∃ d : Nat, fLsb y = t + d := ⟨(fLsb y - t).toNat, by omega⟩
      have e2 : σ * ((z : ℝ) * 2 ^ fLsb y) = σ * ((z * 2 ^ d : ℤ) : ℝ) * 2 ^ t := by
        rw [hd, zpow_add₀ (by norm_num), zpow_natCast]
        push_cast
        ring
      have key := nearest_int (n := (n : ℤ)) (q := q) (by rw [abs_le]; exact_mod_cast hn)
        (fun h => by have := htie (by exact_mod_cast h); omega) (z * 2 ^ d)
      rw [e2, e1, e1]
      refine ⟨mul_le_mul_of_nonneg_right (by exact_mod_cast key.1) h2t.le, fun heq hne => ?_⟩
      have := key.2 (by exact_mod_cast mul_right_cancel₀ h2t.ne' heq) (fun h => hne
        (Rat.cast_injective (α := ℝ) (by rw [hz, hval, e2, h]; simp)))
      omega
    · have h52 : (2 : ℝ) ^ 52 ≤ q := hqlo (by omega)
      have hv : ∃ v : ℝ, (z : ℝ) * 2 ^ fLsb y = v * 2 ^ t ∧ v < 2 ^ 52 := by
        refine ⟨z * 2 ^ fLsb y / 2 ^ t, by field_simp, ?_⟩
        rw [div_lt_iff₀ h2t]
        have h1 : (2 : ℝ) ^ fLsb y * 2 ≤ 2 ^ t := by
          rw [← zpow_add_one₀ (by norm_num)]
          exact zpow_le_zpow_right₀ (by norm_num) (by omega)
        have h2 : (z : ℝ) < 2 ^ 53 := by
          have : z < 2 ^ 53 := by have := le_abs_self z; omega
          exact_mod_cast this
        have h3 : (0 : ℝ) < 2 ^ fLsb y := by positivity
        nlinarith
      obtain ⟨v, hv, hv52⟩ := hv
      have key := (nearest_int (n := (n : ℤ)) (q := q) (by rw [abs_le]; exact_mod_cast hn)
        (fun h => by have := htie (by exact_mod_cast h); omega) (2 ^ 52)).1
      have hlt : |(n : ℝ) - q| < |v - q| := by
        refine lt_of_le_of_lt (by exact_mod_cast key) ?_
        push_cast
        rw [abs_of_nonpos (by linarith), abs_of_nonpos (by linarith)]
        linarith
      rw [hv, ← mul_assoc σ v, e1, e1]
      have := mul_lt_mul_of_pos_right hlt h2t
      exact ⟨this.le, fun h => absurd h this.ne⟩
  · rename_i hge
    rw [hr, Nat.min_eq_right (by rw [← not_lt]; exact fun h => hge (hkiff.mpr h))]
    rfl

/-- A rational exact value: rounding it as a real number is rounding it (00_scope.md R10). -/
theorem RoundsToReal.roundsTo {r : F64} {x : ℚ} (h : RoundsToReal r x) : RoundsTo r x := fun y hy =>
  ⟨by exact_mod_cast (h y hy).1, fun he hne => (h y hy).2 (by exact_mod_cast he) hne⟩

end Sys2Proof.Machine
end

