-- ==== Sys2Proof/Machine/HostProgram.lean ====
section
/-! DEFINITION. The host program forms of 30_encoding.md R120, expanded into events. -/

namespace Sys2Proof.Machine

/-- `W off, v`. -/
def hostW (p : Params) (off : Nat) (v : Word) : Event := .bus (.write 4 (p.base + off) v)

/-- `R off`. -/
def hostR (p : Params) (off : Nat) : Event := .bus (.read 4 (p.base + off))

/-- `CMD c`. -/
def hostCmd (p : Params) (i : Instr) : Event := hostW p 0x014 (encode i)

/-- `W64 pair, v`, the pair given by the offset of its low half. -/
def hostW64 (p : Params) (off : Nat) (v : BitVec 64) : List Event :=
  [hostW p off (loHalf v), hostW p (off + 4) (hiHalf v)]

/-- `R64 pair`. -/
def hostR64 (p : Params) (off : Nat) : List Event := [hostR p off, hostR p (off + 4)]

/-- `RUN c`: the command, then WAIT. WAIT ends at the first read of STATUS after the completion; here it reads STATUS once, after the completion (44_control.md R265; log 1). -/
def hostRun (p : Params) (i : Instr) : List Event := [hostCmd p i, .engine, hostR p 0x018]

/-- `CLRST`. -/
def hostClrst (p : Params) : Event := hostW p 0x018 0x0000007E#32

/-- `WBITS buf, j, v`. -/
def hostWbits (p : Params) (b : BitBuf) (j : Nat) (v : Word) : Event := hostW p (bitWindow b + 4 * j) v

/-- `WSYM buf, k, re, im`. -/
def hostWsym (p : Params) (b : SymBuf) (k : Nat) (z : Symbol) : List Event :=
  [hostW p (symWindow b + 16 * k) (loHalf z.1), hostW p (symWindow b + 16 * k + 4) (hiHalf z.1),
    hostW p (symWindow b + 16 * k + 8) (loHalf z.2), hostW p (symWindow b + 16 * k + 12) (hiHalf z.2)]

end Sys2Proof.Machine
end

