-- ==== Sys2Proof/Tests/Slice0.lean ====
section
/-! SUPPORT. Tests. Expected values are those of spec/95_test_vectors.md (section in each comment) or read off the rule cited. The theorems witness_<Name> show a state and operands that meet the hypotheses of the obligation <Name>. -/

open Sys2Proof Sys2Proof.Machine

namespace Sys2Proof.Tests

-- One thread, so that the many kernel evaluations below do not each reserve a stack at once.
set_option Elab.async false

/-! Helpers. -/

/-- The next state of an outcome. -/
def answer (o : Host.Outcome State Fault Refusal) : Option State :=
  match o with
  | .next t => .some t
  | .fault _ => .none
  | .refused _ => .none

/-- The state after a command from the given state. -/
def after (i : Instr) (s : State) : Option State := answer (exec i s)

/-- The registers after reset, with a small build of the block: 32 bits, 2 symbols. -/
def small : State := { State.reset with cfg := ⟨32, 2, 0⟩ }

/-- The state after reset with the given transmitted bits and their number. -/
def sent (bs : List Bool) : State :=
  { State.reset.putBits .txb 0 bs with txbLen := BitVec.ofNat 32 bs.length }

/-- The state after reset with the given received symbols and their number. -/
def received (zs : List Symbol) : State :=
  { State.reset.putSyms .rxs zs with rxsLen := BitVec.ofNat 32 zs.length }

/-- The state after reset with the given transmitted symbols and their number. -/
def modulated (zs : List Symbol) : State :=
  { State.reset.putSyms .txs zs with txsLen := BitVec.ofNat 32 zs.length }

/-- A host write and a host read at an offset of the block. -/
def write (off : Nat) (v : Word) (s : State) : State := s.transact (.write 4 (s.cfg.base + off) v)
def read (off : Nat) (s : State) : Option Word := ((s.transact (.read 4 (s.cfg.base + off))).resp).map (·.data)

/-- The status word after a CMD write. -/
def statusOfCmd (s : State) (w : Word) : Word := (write 0x014 w s).status.word

/-- The state with a GENBITS 20 running. -/
def running : State := write 0x014 0x00001402#32 State.reset

/-- The state with a NOP running. -/
def runningNop : State := write 0x014 0x00000000#32 State.reset

/-- The state after reset with the given lengths of TXB, TXS, RXS and RXB. -/
def lengths (a b c d : Word) : State := { State.reset with txbLen := a, txsLen := b, rxsLen := c, rxbLen := d }

/-- The reset input asserted, about to be released. -/
def held : State := { State.reset with inReset := true, inputs := [.releaseReset] }

/-- A state in which every W1C flag is set, with one event to come. -/
def flagged (e : Event) : State :=
  { State.reset with status := ⟨false, true, true, true, true, true, true, 1, 4⟩, inputs := [e] }

/-! WellFormed refuses an ill-formed command for each of its checks (R111, R113, R117). -/

theorem test_wf_accepts :
    ([.nop 0, .seed 0, .genbits 0xFFFFFF#24, .genNoise 0xFFFFFF#24, .modBpsk 0, .modQpsk 0, .demodBpsk 0,
      .demodQpsk 0, .convEbno 0 1, .convEbno 0 2, .addNoise 0, .bypass 0, .countErr 0, .berCalc 0,
      .clrAcc 0] : List Instr).all Instr.wf = true := by decide
theorem test_wf_refuses_reserved_bits :
    ([.nop 1, .seed 0x800000#24, .modBpsk 1, .modQpsk 2, .demodBpsk 4, .demodQpsk 8, .addNoise 16, .bypass 32,
      .countErr 64, .berCalc 0x800000#24, .clrAcc 128] : List Instr).all (fun i => !i.wf) = true := by decide
theorem test_wf_refuses_conv_reserved_bits : (Instr.convEbno 1 1).wf = false := by decide
theorem test_wf_refuses_order_zero : (Instr.convEbno 0 0).wf = false := by decide
theorem test_wf_refuses_order_three : (Instr.convEbno 0 3).wf = false := by decide

/-! Decoding: words written out from R110 to R115, bits 31 down to 0. -/

theorem test_decode_nop : decode 0b00000000000000000000000000000000#32 = .ok (.nop 0) := by rfl
theorem test_decode_seed : decode 0b00000000000000000000000000000001#32 = .ok (.seed 0) := by rfl
theorem test_decode_genbits : decode 0b00000000000000000001010000000010#32 = .ok (.genbits 20) := by rfl
theorem test_decode_genNoise : decode 0b10000000000000000000000100000011#32 = .ok (.genNoise 0x800001#24) := by rfl
theorem test_decode_modBpsk : decode 0b00000000000000000000000000010000#32 = .ok (.modBpsk 0) := by rfl
theorem test_decode_modQpsk : decode 0b00000000000000000000000000010001#32 = .ok (.modQpsk 0) := by rfl
theorem test_decode_demodBpsk : decode 0b00000000000000000000000000011000#32 = .ok (.demodBpsk 0) := by rfl
theorem test_decode_demodQpsk : decode 0b00000000000000000000000000011001#32 = .ok (.demodQpsk 0) := by rfl
theorem test_decode_convEbno : decode 0b00000000000000000000001000100000#32 = .ok (.convEbno 0 2) := by rfl
theorem test_decode_convEbno_reserved : decode 0b00000000000000000000010100100000#32 = .ok (.convEbno 1 1) := by rfl
theorem test_decode_addNoise : decode 0b00000000000000000000000000100001#32 = .ok (.addNoise 0) := by rfl
theorem test_decode_bypass : decode 0b00000000000000000000000000100010#32 = .ok (.bypass 0) := by rfl
theorem test_decode_countErr : decode 0b00000000000000000000000000110000#32 = .ok (.countErr 0) := by rfl
theorem test_decode_berCalc : decode 0b10000000000000000000000000110001#32 = .ok (.berCalc 0x800000#24) := by rfl
theorem test_decode_clrAcc : decode 0b00000000000000000000000000110010#32 = .ok (.clrAcc 0) := by rfl
theorem test_decode_illegal : decode 0x12345633#32 = .error (.illegalOpcode 0x33#8) := by rfl
/-- R88, R110: a command is the four bytes of one word, least significant first. -/
theorem test_decode_bytes : decodeBytes [0x02, 0x14, 0x00, 0x00] = .ok (.genbits 20) := by rfl
theorem test_decode_bytes_length : decodeBytes [0x02, 0x14, 0x00] = .error (.notOneWord 3) := by rfl
/-- R119's examples. -/
theorem test_encode_examples : ([.genbits 20, .genNoise 4, .convEbno 0 2] : List Instr).map encode
    = [0x00001402#32, 0x00000403#32, 0x00000220#32] := by decide
theorem test_assemble : ["GENBITS 20", "GEN_NOISE 0x4", "CONV_EBNO 2", "NOP", "GENBITS 16777216", "CONV_EBNO 3",
    "NOP 0", "GENBITS"].map (fun l => (assembleLine l).map encode) = [.some 0x00001402#32, .some 0x00000403#32,
    .some 0x00000220#32, .some 0#32, .none, .none, .none, .none] := by decide +kernel

/-! Issue: the table of section 2.1. Accepted commands are only latched here, with BUSY = 1. -/

theorem test_issue_accepts : [0x00000000#32, 0x00000001#32, 0x00000002#32, 0x00001402#32, 0x02000002#32,
    0x00000403#32, 0x00000120#32, 0x00000220#32].all (fun w => statusOfCmd State.reset w == 1#32) = true := by
  decide +kernel
theorem test_issue_rejects : [0x02000102#32, 0xFFFFFF02#32, 0x01000103#32, 0x00000020#32, 0x00000320#32,
    0x00000520#32, 0x00000110#32, 0x80000031#32, 0x00000004#32, 0x000000FF#32, 0x12345633#32].map
      (statusOfCmd State.reset)
    = [0x00020404#32, 0x00020404#32, 0x00030404#32, 0x00200204#32, 0x00200204#32, 0x00200204#32, 0x00100204#32,
      0x00310204#32, 0x00040104#32, 0x00FF0104#32, 0x00330104#32] := by decide +kernel
/-- Length checks of sections 2.4 to 2.6: the word, the lengths (TXB, TXS, RXS, RXB), STATUS. -/
theorem test_issue_lengths :
    ([(0x10#32, 65536, 0, 0, 0, 1#32), (0x10, 65537, 0, 0, 0, 0x00100404), (0x10, 131073, 0, 0, 0, 0x00100404),
      (0x11, 3, 0, 0, 0, 0x00110504), (0x11, 131072, 0, 0, 0, 1), (0x11, 131073, 0, 0, 0, 0x00110404),
      (0x18, 0, 0, 65537, 0, 0x00180404), (0x19, 0, 0, 65536, 0, 1), (0x19, 0, 0, 65537, 0, 0x00190404),
      (0x21, 0, 65537, 0, 0, 0x00210404), (0x22, 0, 65537, 0, 0, 0x00220404), (0x30, 4, 0, 0, 8, 0x00300604),
      (0x30, 131073, 0, 0, 131073, 0x00300404)] : List (Word × Word × Word × Word × Word × Word)).all
      (fun (w, a, b, c, d, st) =>
        statusOfCmd { State.reset with txbLen := a, txsLen := b, rxsLen := c, rxbLen := d } w == st) = true := by
  decide +kernel

/-! Commands. -/

/-- 2.7. -/
theorem test_nop : (after (.nop 0) State.reset).map (·.status.word) = .some 2#32 := by decide +kernel
/-- 2.3. -/
theorem test_seed : (after (.seed 0) { State.reset with seed := 0x0123456789ABCDEF#64 }).map (·.rng)
    = .some 0x0123456789ABCDEF#64 := by decide +kernel
theorem test_genbits_bits : (after (.genbits 16) { State.reset with rng := 0 }).map (·.bitsUpTo .txb 16)
    = .some [true, false, false, true, false, false, false, true, false, true, false, true, true, true, true, true] := by
  decide +kernel
theorem test_genbits_rng : (after (.genbits 16) { State.reset with rng := 0 }).map (·.rng)
    = .some 0xE3779B97F4A7C150#64 := by decide +kernel
theorem test_genNoise_rng : (after (.genNoise 1) { State.reset with rng := 0 }).map (·.rng)
    = .some 0x3C6EF372FE94F82A#64 := by decide +kernel
theorem test_genNoise_nscale : (after (.genNoise 0) State.reset).map (·.nscale) = .some cQA := by decide +kernel
/-- 2.4. -/
theorem test_modBpsk : (after (.modBpsk 0) (sent [true, false])).map (·.symsUpTo .txs 2)
    = .some [(0x3FF0000000000000#64, 0#64), (0xBFF0000000000000#64, 0x8000000000000000#64)] := by decide +kernel
theorem test_modBpsk_minus_zero :
    (after (.modBpsk 0) { sent [true, false] with phase := 0x8000000000000000#64 }).map (·.symsUpTo .txs 2)
      = .some [(0x3FF0000000000000#64, 0x8000000000000000#64), (0xBFF0000000000000#64, 0#64)] := by
  decide +kernel
theorem test_modQpsk : (after (.modQpsk 0) (sent [false, true, true, true])).map (·.symsUpTo .txs 2)
    = .some [(0x3FE6A09E667F3BCC#64, 0xBFE6A09E667F3BCC#64), (0xBFE6A09E667F3BCC#64, 0xBFE6A09E667F3BCC#64)] := by
  decide +kernel
theorem test_modQpsk_length : (after (.modQpsk 0) (sent [false, true, true, true])).map (·.txsLen)
    = .some 2#32 := by decide +kernel
theorem test_demodBpsk : (after (.demodBpsk 0) (received [(cONE, 0), (0xBFF0000000000000#64, 0x8000000000000000#64),
      (0, 0), (0x8000000000000000#64, 0x8000000000000000#64), (0x8000000000000001#64, 0),
      (0x7FF0000000000000#64, 0x4014000000000000#64), (0xFFF0000000000000#64, 0x4014000000000000#64)])).map
        (·.bitsUpTo .rxb 7)
    = .some [true, false, true, true, false, true, false] := by decide +kernel
theorem test_demodQpsk : (after (.demodQpsk 0) (received [(0, 0x8000000000000000#64), (1, 0x8000000000000001#64),
      (0x7FF0000000000000#64, 0xFFF0000000000000#64), (0x7FF8000000000000#64, cQA), (cQA, 0x7FF8000000000000#64),
      (cQA, cQA), (fNeg cQA, cQA)])).map (·.bitsUpTo .rxb 14)
    = .some [true, true, false, true, false, true, true, false, false, true, false, false, true, false] := by
  decide +kernel
theorem test_demodQpsk_numerr : (after (.demodQpsk 0) (received [(cQA, 0x7FF8000000000000#64)])).map
    (·.status.word) = .some 0x12#32 := by decide +kernel
/-- 2.5. -/
theorem test_convEbno_order_two : (after (.convEbno 0 2) { State.reset with ebno := 0x4024000000000000#64 }).map
    (·.snr) = .some 0x402A05460931D620#64 := by decide +kernel
theorem test_convEbno_order_one : (after (.convEbno 0 1) { State.reset with ebno := 0x8000000000000000#64 }).map
    (·.snr) = .some 0#64 := by decide +kernel
theorem test_addNoise_rng : (after (.addNoise 0) { modulated [(cQA, cQA)] with rng := 0 }).map (·.rng)
    = .some 0x3C6EF372FE94F82A#64 := by decide +kernel
theorem test_addNoise_numerr : (after (.addNoise 0) { State.reset with snr := 0xFFF0000000000000#64 }).map
    (·.status.word) = .some 0x12#32 := by decide +kernel
theorem test_bypass : (after (.bypass 0) (modulated [(0x7FF8000000000001#64, 0xFFF0000000000000#64)])).map
    (·.sym .rxs 0) = .some (0x7FF8000000000001#64, 0xFFF0000000000000#64) := by decide +kernel
theorem test_bypass_numerr : (after (.bypass 0) (modulated [(0x7FF8000000000001#64, 0xFFF0000000000000#64)])).map
    (·.status.word) = .some 0x12#32 := by decide +kernel
/-- 1.3. -/
theorem test_countErr : (after (.countErr 0) { (sent [false, true, true, false]).putBits .rxb 0
      [false, true, false, false] with rxbLen := 4 }).map (fun t => [t.lastcnt.toNat, t.errcnt.toNat, t.bitcnt.toNat])
    = .some [1, 1, 4] := by decide +kernel
/-- 2.6: ERRCNT = 2^64 - 1 and m = 1. -/
theorem test_countErr_wraps : (after (.countErr 0) { (sent [true]).putBits .rxb 0 [false] with
      rxbLen := 1, errcnt := 0xFFFFFFFFFFFFFFFF#64 }).map (fun t => (t.errcnt, t.status.accOvf))
    = .some (0#64, true) := by decide +kernel
theorem test_berCalc : (after (.berCalc 0) { State.reset with errcnt := 1, bitcnt := 20 }).map (·.ber)
    = .some 0x3FA999999999999A#64 := by decide +kernel
/-- R231: a count over no bits is +inf with NUMERR. -/
theorem test_berCalc_infinite : (after (.berCalc 0) { State.reset with errcnt := 1 }).map
    (fun t => (t.ber, t.status.word)) = .some (0x7FF0000000000000#64, 0x12#32) := by decide +kernel
theorem test_clrAcc : (after (.clrAcc 0) { State.reset with errcnt := 1, bitcnt := 4, lastcnt := 1 }).map
    (fun t => [t.errcnt.toNat, t.bitcnt.toNat, t.lastcnt.toNat]) = .some [0, 0, 1] := by decide +kernel

/-! Numbers. -/

/-- 2.3: the first generator words from 0 and the state after them. -/
theorem test_splitmix : ([0, 0x9E3779B97F4A7C15#64, 0x3C6EF372FE94F82A#64, 0xDAA66D2C7DDF743F#64] : List (BitVec 64)).map
      (fun r => (rngNext r).1)
    = [0xE220A8397B1DCDAF#64, 0x6E789E6AA1B965F4#64, 0x06C45D188009454F#64, 0xF88BB8A8724C81EC#64] := by decide +kernel
theorem test_splitmix_state : (rngNext 0x538454127B096493#64).2 = 0xF1BBCDCBFA53E0A8#64 := by decide +kernel
/-- 2.3: u1 and u2 of the first pair. -/
theorem test_uniform : [unitOpen 0 0xE220A8397B1DCDAF#64, unitHalfOpen 0 0x6E789E6AA1B965F4#64]
    = [0x3FEC4415072F63BA#64, 0x3FDB9E279AA86E58#64] := by decide +kernel
/-- 2.5: sums with K2. -/
theorem test_sums : ([0, 0x3FF0000000000000#64, 0xC008000000000000#64, 0xFFF0000000000000#64] : List F64).map
      (fun x => fAdd 0 x cK2)
    = [0x4008151824C7587F#64, 0x40100A8C1263AC40#64, 0x3F851824C7587F00#64, 0xFFF0000000000000#64] := by decide +kernel
/-- 2.6: quotients of counts. -/
theorem test_quotients : ([(1, 40), (3, 8), (0, 20)] : List (BitVec 64 × BitVec 64)).map
      (fun e => fDiv 0 (fCvt e.1) (fCvt e.2))
    = [0x3F9999999999999A#64, 0x3FD8000000000000#64, 0#64] := by decide +kernel
/-- R10 at the ends of the format: the least subnormal halved is 0 (tie to even), and the sum of two greatest values is an infinity. -/
theorem test_ends : [fMul 0 1#64 0x3FE0000000000000#64, fAdd 0 0x7FEFFFFFFFFFFFFF#64 0x7FEFFFFFFFFFFFFF#64]
    = [0#64, 0x7FF0000000000000#64] := by decide +kernel

/-! The host's side: sections 2.2 and 2.7. -/

theorem test_reads : [0x000, 0x004, 0x008, 0x00C, 0x010, 0x014, 0x018, 0x01C, 0x030, 0x034, 0x06C, 0x080, 0x00FFFC,
      0x014000, 0x020000, 0x300000].map (fun off => read off State.reset)
    = [.some 0x4250534B#32, .some 0x00010000#32, .some 0x00020000#32, .some 0x00010000#32, .some 0#32, .some 0#32,
      .some 0#32, .some 0#32, .some 0#32, .some 0#32, .some 0#32, .some 0#32, .some 0#32, .some 0#32, .some 0#32,
      .some 0#32] := by decide +kernel
theorem test_phase_halves :
    (write 0x034 0x40000000#32 (write 0x034 0x3FF00000#32 (write 0x030 0#32 State.reset))).phase
      = 0x4000000000000000#64 := by decide +kernel
theorem test_bit_window : read 0x010000 (write 0x010000 0x80000001#32 State.reset) = .some 0x80000001#32 := by
  decide +kernel
theorem test_bit_window_second_word : (write 0x010004 1#32 State.reset).bit .txb 32 = true := by decide +kernel
theorem test_symbol_window : (write 0x10001C 0xBFF00000#32 (write 0x100018 0#32 (write 0x100014 0x3FF00000#32
    (write 0x100010 0#32 State.reset)))).sym .txs 1 = (0x3FF0000000000000#64, 0xBFF0000000000000#64) := by
  decide +kernel
theorem test_illegal_access : (State.reset.transact (.write 1 0x020 5#32)).resp = .some ⟨false, 0#32⟩
    ∧ (State.reset.transact (.read 4 0x022)).resp = .some ⟨false, 0#32⟩ := by decide +kernel
/-- STATUS rows of 2.7: STATUS as ERRCMD, ERRCODE and flags, the value written, the word after. -/
theorem test_status_writes :
    ((⟨false, true, false, false, false, false, false, 0, 0⟩ : Status).clear 2#32).word = 0#32
    ∧ ((⟨false, true, true, false, false, false, false, 1, 4⟩ : Status).clear 4#32).word = 2#32
    ∧ ((⟨false, false, true, true, false, false, false, 1, 4⟩ : Status).clear 4#32).word = 8#32
    ∧ ((⟨false, true, true, true, true, true, true, 1, 4⟩ : Status).clear 0xFFFFFFFF#32).word = 0#32 := by
  decide +kernel
theorem test_second_error : [0x00000110#32].map (statusOfCmd (write 0x014 0x00000004#32 State.reset))
    = [0x0004010C#32] := by decide +kernel
theorem test_busy_command : (statusOfCmd running 0#32, (write 0x014 0#32 running).cur)
    = (0x00000305#32, 0x00001402#32) := by decide +kernel
/-- 2.7, the interleaving vector: the completion first, or the write first. -/
theorem test_interleaving : (answer (exec (.genbits 20) running)).map (fun t =>
      ((write 0x020 0#32 t).txbLen.toNat, (write 0x020 0#32 t).status.wbusy)) = .some (0, false)
    ∧ (after (.genbits 20) (write 0x020 0#32 running)).map (fun t => (t.txbLen.toNat, t.status.wbusy))
      = .some (20, true) := by decide +kernel
theorem test_irq : (write 0x014 0x00000004#32 (write 0x01C 2#32 State.reset)).irq = true
    ∧ (write 0x014 0x00000004#32 (write 0x01C 1#32 State.reset)).irq = false := by decide +kernel
/-- 2.8: a soft reset of a running command, and one with bit 0 clear. -/
theorem test_soft_reset : (write 0x010 1#32 running).status.word = 0#32
    ∧ (write 0x010 0xFFFFFFFE#32 running).status.word = 1#32 := by decide +kernel
/-- What step runs for each row of the table: the placed word's command, to a next state. -/
theorem test_step_runs_each_row : [0x00, 0x01, 0x02, 0x03, 0x10, 0x11, 0x18, 0x19, 0x120, 0x21, 0x22, 0x30, 0x31,
    0x32].all (fun w => (answer (step (State.reset.withFetchWord 32 w))).map (·.status.done) == .some true) = true := by
  decide +kernel

/-! Witnesses. -/

theorem running_inv : Inv running :=
  ⟨by decide, by decide, by decide, by decide, by decide, by decide⟩

theorem witness_EncodeOfDecode : decode 0x00001402#32 = .ok (.genbits 20) := by rfl
theorem witness_UnassignedOpcodesAreIllegal : State.reset.status.busy = false
    ∧ ∀ w ∈ ([0x00000004#32, 0x000000FF#32, 0x12345633#32] : List Word), w.extractLsb' 0 8 ∉ ([0x00#8, 0x01#8,
      0x02#8, 0x03#8, 0x10#8, 0x11#8, 0x18#8, 0x19#8, 0x20#8, 0x21#8, 0x22#8, 0x30#8, 0x31#8, 0x32#8] : List Byte) :=
  ⟨rfl, by simp⟩
theorem witness_ReservedFieldsAreRejected : State.reset.status.busy = false
    ∧ (∀ w ∈ ([0x00000110#32, 0x80000031#32] : List Word), w.extractLsb' 0 8 ∈ ([0x00#8, 0x01#8, 0x10#8, 0x11#8,
        0x18#8, 0x19#8, 0x21#8, 0x22#8, 0x30#8, 0x31#8, 0x32#8] : List Byte) ∧ w.extractLsb' 8 24 ≠ 0#24)
    ∧ ∀ w ∈ ([0x00000520#32, 0x80000120#32, 0x00000020#32, 0x00000320#32] : List Word), w.extractLsb' 0 8 = 0x20#8
        ∧ (w.extractLsb' 10 22 ≠ 0#22 ∨ w.extractLsb' 8 2 = 0#2 ∨ w.extractLsb' 8 2 = 3#2) :=
  ⟨rfl, by simp, by simp⟩
theorem witness_IssueAcceptsOrRejects : running.status.busy = true ∧ State.reset.status.busy = false
    ∧ wordChecks State.reset 0x02000102#32 ≠ .none ∧ wordChecks State.reset 0x02000002#32 = .none
    ∧ State.reset.inReset = false ∧ { State.reset with seed := 1#64 }.cfg.nbMax = State.reset.cfg.nbMax
    ∧ { State.reset with seed := 1#64 }.txbLen = State.reset.txbLen := by decide
theorem witness_RejectionIsPrecise : running.status.busy = true ∧ running.status.err = false
    ∧ (flagged .engine).status.busy = false ∧ (flagged .engine).status.err = true
    ∧ wordChecks State.reset 0x00000004#32 = .illegal ∧ wordChecks State.reset 0x00000110#32 = .reserved
    ∧ wordChecks State.reset 0x02000102#32 = .range ∧ wordChecks (lengths 3 0 0 0) 0x00000011#32 = .oddLength
    ∧ wordChecks (lengths 4 0 0 8) 0x00000030#32 = .lenMismatch := by decide
theorem witness_StepRunsTheAcceptedCommand : running.engineNext = true ∧ running.inReset = false
    ∧ running.status.busy = true ∧ decode running.cur = .ok (.genbits 20)
    ∧ { State.reset with inputs := [.bus (.read 4 0)] }.inputs = .bus (.read 4 0) :: [] :=
  ⟨by decide, by decide, by decide, rfl, rfl⟩
theorem witness_StepRunsThePlacedWord : decodeTableWord 32 0x00001402 = .some (.genbits 20)
    ∧ decodeTableWord 32 0x00000032 = .some (.clrAcc 0) := by decide
theorem witness_AcceptedCommandsComplete : Inv running ∧ running.engineNext = true ∧ running.inReset = false
    ∧ running.status.busy = true := ⟨running_inv, by decide, by decide, by decide⟩
theorem witness_IdleEngineWaits : State.reset.engineNext = true ∧ State.reset.status.busy = false := by decide
/-- The greatest operand each check lets pass. -/
theorem witness_CompletionStaysInTheWriteSet :
    checks State.reset (.genbits 131072) = .none ∧ checks State.reset (.genNoise 65536) = .none
    ∧ checks State.reset (.nop 0) = .none ∧ checks State.reset (.seed 0) = .none
    ∧ checks State.reset (.convEbno 0 1) = .none ∧ checks State.reset (.convEbno 0 2) = .none
    ∧ checks State.reset (.berCalc 0) = .none ∧ checks State.reset (.clrAcc 0) = .none
    ∧ checks (lengths 65536 0 0 0) (.modBpsk 0) = .none ∧ checks (lengths 131072 0 0 0) (.modQpsk 0) = .none
    ∧ checks (lengths 0 0 65536 0) (.demodBpsk 0) = .none ∧ checks (lengths 0 0 65536 0) (.demodQpsk 0) = .none
    ∧ checks (lengths 0 65536 0 0) (.addNoise 0) = .none ∧ checks (lengths 0 65536 0 0) (.bypass 0) = .none
    ∧ checks (lengths 131072 0 0 131072) (.countErr 0) = .none := by decide +kernel
theorem witness_StepKeepsInv : Inv runningNop ∧ step runningNop = .next runningNop.complete :=
  ⟨⟨by decide, by decide, by decide, by decide, by decide, by decide⟩, rfl⟩
theorem witness_SafeStatesGoOn : Inv running := running_inv
theorem witness_OperandsAreFrozenWhileBusy : running.status.busy = true
    ∧ (running.transact (.write 4 0x020 5#32)).status.busy = true
    ∧ (running.transact (.write 4 0x01C 5#32)).status.busy = true := by decide
theorem witness_FlagsAreSticky : ∀ v ∈ ([0x0000007E#32, 0xFFFFFFFF#32] : List Word),
    step (flagged (.bus (.write 4 0x018 v))) = .next { (flagged .engine) with
      status := Status.zero, inputs := [], resp := .some ⟨true, 0#32⟩ }
    ∧ (flagged .engine).status.word = 0x0004017E#32 ∧ Status.zero.word = 0#32 := by
  intro v hv
  simp only [List.mem_cons, List.not_mem_nil, or_false] at hv
  rcases hv with rfl | rfl <;> exact ⟨rfl, by decide, by decide⟩
theorem witness_BusyIsTheEngines :
    step { State.reset with inputs := [.bus (.write 4 0x014 0x00001402#32)] }
      = .next { running with resp := .some ⟨true, 0#32⟩ }
    ∧ State.reset.status.busy = false ∧ running.status.busy = true
    ∧ step runningNop = .next runningNop.complete ∧ runningNop.status.busy = true
    ∧ runningNop.complete.status.busy = false := ⟨rfl, rfl, rfl, rfl, rfl, rfl⟩
theorem witness_OnlyRandomCommandsMoveTheGenerator :
    let s := { State.reset with rng := 0#64, seed := 1#64, cur := 1#32, status := { Status.zero with busy := true } }
    step s = .next { s with rng := 1#64, draws := 2, status := { Status.zero with done := true } }
    ∧ (1#64 : BitVec 64) ≠ s.rng := ⟨rfl, by decide⟩
theorem witness_ParametersNeverChange : step runningNop = .next runningNop.complete := rfl
theorem witness_GenbitsDrawsOneWordPerBit : (131072#24).toNat ≤ State.reset.cfg.nbMax
    ∧ (0#24).toNat ≤ State.reset.cfg.nbMax := by decide
theorem witness_GenNoiseWritesScaledPairs : (65536#24).toNat ≤ State.reset.cfg.nsMax
    ∧ (0#24).toNat ≤ State.reset.cfg.nsMax := by decide
theorem witness_ModBpskMapsBits : (lengths 65536 0 0 0).txbLen.toNat ≤ (lengths 65536 0 0 0).cfg.nbMax
    ∧ (lengths 65536 0 0 0).txbLen.toNat ≤ (lengths 65536 0 0 0).cfg.nsMax := by decide
theorem witness_ModQpskMapsPairs : (lengths 131072 0 0 0).txbLen.toNat ≤ (lengths 131072 0 0 0).cfg.nbMax
    ∧ (lengths 131072 0 0 0).txbLen.toNat % 2 = 0
    ∧ (lengths 131072 0 0 0).txbLen.toNat / 2 ≤ (lengths 131072 0 0 0).cfg.nsMax := by decide
theorem witness_DemodBpskDecidesByProjection : (lengths 0 0 65536 0).rxsLen.toNat ≤ (lengths 0 0 65536 0).cfg.nsMax
    ∧ (lengths 0 0 65536 0).rxsLen.toNat ≤ (lengths 0 0 65536 0).cfg.nbMax := by decide
theorem witness_DemodQpskDecidesBySigns : (lengths 0 0 65536 0).rxsLen.toNat ≤ (lengths 0 0 65536 0).cfg.nsMax
    ∧ 2 * (lengths 0 0 65536 0).rxsLen.toNat ≤ (lengths 0 0 65536 0).cfg.nbMax
    ∧ (lengths 0 0 65536 0).cfg.legal = true := by decide
theorem witness_AddNoiseAddsScaledPairs :
    (lengths 0 65536 0 0).txsLen.toNat ≤ (lengths 0 65536 0 0).cfg.nsMax := by decide
theorem witness_BypassCopiesSymbols :
    (lengths 0 65536 0 0).txsLen.toNat ≤ (lengths 0 65536 0 0).cfg.nsMax := by decide
theorem witness_CountErrAccumulates :
    (lengths 131072 0 0 131072).txbLen.toNat ≤ (lengths 131072 0 0 131072).cfg.nbMax
    ∧ (lengths 131072 0 0 131072).txbLen = (lengths 131072 0 0 131072).rxbLen := by decide
theorem witness_ErrorsNeverExceedBits : State.reset.errcnt.toNat ≤ State.reset.bitcnt.toNat
    ∧ exec (.countErr 0) State.reset = .next { State.reset with
        status := { Status.zero with done := true }, draws := 2 } := ⟨by decide, rfl⟩
/-- A finite PHASE: +0.0 and the greatest; and an infinite one. -/
theorem witness_BpskRoundTrip : fIsFinite (lengths 65536 0 0 0).phase = true
    ∧ fIsFinite { lengths 65536 0 0 0 with phase := 0x7FF0000000000000#64 }.phase = false
    ∧ fIsFinite { lengths 65536 0 0 0 with phase := 0x7FEFFFFFFFFFFFFF#64 }.phase = true
    ∧ (lengths 65536 0 0 0).txbLen.toNat ≤ (lengths 65536 0 0 0).cfg.nbMax
    ∧ (lengths 65536 0 0 0).txbLen.toNat ≤ (lengths 65536 0 0 0).cfg.nsMax := by decide
theorem witness_QpskRoundTrip : (lengths 131072 0 0 0).txbLen.toNat % 2 = 0
    ∧ (lengths 131072 0 0 0).txbLen.toNat ≤ (lengths 131072 0 0 0).cfg.nbMax
    ∧ (lengths 131072 0 0 0).txbLen.toNat / 2 ≤ (lengths 131072 0 0 0).cfg.nsMax := by decide
/-- R10 at the overflow threshold: the greatest value and 2^970, half its last place, tie to an infinity; the value just below 2^970 rounds back to the greatest value. -/
theorem test_sum_overflows_at_half_an_ulp :
    fAdd 0 0x7FEFFFFFFFFFFFFF#64 0x7C90000000000000#64 = 0x7FF0000000000000#64
    ∧ fAdd 0 0x7FEFFFFFFFFFFFFF#64 0x7C8FFFFFFFFFFFFF#64 = 0x7FEFFFFFFFFFFFFF#64
    ∧ fMul 0 0xFFEFFFFFFFFFFFFF#64 0x4000000000000000#64 = 0xFFF0000000000000#64
    ∧ fDiv 0 0xFFEFFFFFFFFFFFFF#64 0x3FE0000000000000#64 = 0xFFF0000000000000#64 := by decide +kernel
/-- The exact values of the two least subnormals, of the greatest value, of 2^970 and of 2^969. -/
theorem fVal_ends : fVal 1#64 = (2 : ℚ) ^ (-1074 : ℤ) ∧ fVal 0x8000000000000001#64 = -(2 : ℚ) ^ (-1074 : ℤ)
    ∧ fVal 0x7FEFFFFFFFFFFFFF#64 = (2 ^ 53 - 1) * (2 : ℚ) ^ 971 ∧ fVal 0x7C90000000000000#64 = 2 ^ 52 * (2 : ℚ) ^ 918
    ∧ fVal 0x7C80000000000000#64 = 2 ^ 52 * (2 : ℚ) ^ 917 := by
  have h (s : Bool) (m : Nat) (t : ℤ) (x : F64) (h : fSign x = s ∧ fSig x = m ∧ fLsb x = t) :
      fVal x = (if s then -1 else 1) * (m : ℚ) * (2 : ℚ) ^ t := by rw [fVal, h.1, h.2.1, h.2.2]
  rw [h false 1 (-1074) _ (by decide), h true 1 (-1074) _ (by decide),
    h false (2 ^ 53 - 1) (971 : Nat) _ (by decide), h false (2 ^ 52) (918 : Nat) _ (by decide),
    h false (2 ^ 52) (917 : Nat) _ (by decide), zpow_natCast, zpow_natCast, zpow_natCast]
  simp
  norm_num
/-- The greatest value and the least subnormal; sums on one side of 0 and exactly 0, and on both sides of the overflow threshold. -/
theorem witness_SumsAndProductsRoundToNearest : fIsFinite 0x7FEFFFFFFFFFFFFF#64 = true ∧ fIsFinite 1#64 = true
    ∧ fIsFinite 0x7C90000000000000#64 = true ∧ fIsFinite 0x7C80000000000000#64 = true
    ∧ fVal 1#64 + fVal 1#64 ≠ 0 ∧ fVal 1#64 + fVal 0x8000000000000001#64 = 0
    ∧ |fVal 0x7FEFFFFFFFFFFFFF#64 + fVal 0x7C80000000000000#64| < (2 : ℚ) ^ 1024 - (2 : ℚ) ^ 970
    ∧ ¬ |fVal 0x7FEFFFFFFFFFFFFF#64 + fVal 0x7C90000000000000#64| < (2 : ℚ) ^ 1024 - (2 : ℚ) ^ 970 := by
  refine ⟨by decide, by decide, by decide, by decide, ?_⟩
  obtain ⟨h1, h2, h3, h4, h5⟩ := fVal_ends
  have hp : (0 : ℚ) < 2 ^ 917 := by positivity
  have hz : (0 : ℚ) < 2 ^ (-1074 : ℤ) := by positivity
  rw [h1, h2, h3, h4, h5, show (2 : ℚ) ^ 1024 = 2 ^ 107 * 2 ^ 917 by rw [← pow_add],
    show (2 : ℚ) ^ 971 = 2 ^ 54 * 2 ^ 917 by rw [← pow_add], show (2 : ℚ) ^ 970 = 2 ^ 53 * 2 ^ 917 by rw [← pow_add],
    show (2 : ℚ) ^ 918 = 2 * 2 ^ 917 by rw [← pow_succ']]
  generalize (2 : ℚ) ^ 917 = P at hp
  refine ⟨by linarith, by simp, ?_, ?_⟩
  · rw [abs_of_nonneg (by nlinarith)]
    norm_num
    linarith
  · rw [not_lt, abs_of_nonneg (by nlinarith)]
    norm_num
    linarith
/-- Quotients on both sides of the overflow threshold. -/
theorem witness_QuotientsRoundToNearest : fIsFinite 1#64 = true ∧ fIsFinite 0x7FEFFFFFFFFFFFFF#64 = true
    ∧ fIsZero 1#64 = false ∧ |fVal 1#64 / fVal 1#64| < (2 : ℚ) ^ 1024 - (2 : ℚ) ^ 970
    ∧ ¬ |fVal 0x7FEFFFFFFFFFFFFF#64 / fVal 1#64| < (2 : ℚ) ^ 1024 - (2 : ℚ) ^ 970 := by
  refine ⟨by decide, by decide, by decide, ?_⟩
  obtain ⟨h1, -, h3, -, -⟩ := fVal_ends
  have hp : (1 : ℚ) ≤ 2 ^ 970 := one_le_pow₀ (by norm_num)
  have hq : (1 : ℚ) ≤ 2 ^ 1073 := one_le_pow₀ (by norm_num)
  rw [h1, h3, div_self (by positivity), zpow_neg, show (1074 : ℤ) = (1074 : Nat) from rfl, zpow_natCast, div_inv_eq_mul,
    show (2 : ℚ) ^ 1024 = 2 ^ 54 * 2 ^ 970 by rw [← pow_add], show (2 : ℚ) ^ 971 = 2 * 2 ^ 970 by rw [← pow_succ'],
    show (2 : ℚ) ^ 1074 = 2 * 2 ^ 1073 by rw [← pow_succ']]
  generalize (2 : ℚ) ^ 970 = P at hp
  generalize (2 : ℚ) ^ 1073 = Q at hq
  constructor
  · rw [abs_one]
    norm_num
    linarith
  · rw [not_lt, abs_of_nonneg (by positivity)]
    nlinarith
/-- The least and the greatest positive value; a NaN, the least negative subnormal and -inf. -/
theorem witness_NamedConstantsAgree :
    (fIsFinite 1#64 = true ∧ fSign 1#64 = false ∧ fIsZero 1#64 = false)
    ∧ (fIsFinite 0x7FEFFFFFFFFFFFFF#64 = true ∧ fSign 0x7FEFFFFFFFFFFFFF#64 = false
      ∧ fIsZero 0x7FEFFFFFFFFFFFFF#64 = false)
    ∧ fIsNan 0x7FF0000000000001#64 = true
    ∧ (fSign 0x8000000000000001#64 = true ∧ fIsZero 0x8000000000000001#64 = false)
    ∧ fSign 0xFFF0000000000000#64 = true ∧ fIsZero 0xFFF0000000000000#64 = false := by decide
/-- R14 where the root is no binary64 value: sqrt of 3.0, of the least subnormal 2^-1074, which is 2^-537 exactly, and of -1.0. -/
theorem test_sqrt_values : fSqrt 0 0x4008000000000000#64 = 0x3FFBB67AE8584CAA#64
    ∧ fSqrt 0 1#64 = 0x1E60000000000000#64 ∧ fSqrt 0x7FF8000000000000#64 0xBFF0000000000000#64 = 0x7FF8000000000000#64 := by
  decide +kernel
theorem witness_ConversionRoundsToNearest : (0x001FFFFFFFFFFFFF#64).toNat < 2 ^ 53 := by decide
/-- The ends of R18's range, and values of each class R16 to R19 name. -/
theorem witness_NumericsParametersAreAsStated : 0x3CA0000000000000 ≤ (0x3CA0000000000000#64 : F64).toNat
    ∧ (0x3FEFFFFFFFFFFFFF#64 : F64).toNat < 0x3FF0000000000000 ∧ fIsFinite 0x7FEFFFFFFFFFFFFF#64 = true
    ∧ fIsFinite 0x7FF0000000000000#64 = false ∧ fIsNan 0x7FF0000000000001#64 = true := by decide
theorem witness_NoiseScaleValues : (∀ k, fIsQuietNan ((fun _ : Nat => 0x7FF8000000000000#64) k) = true)
    ∧ fIsNan 0x7FF0000000000001#64 = true := ⟨fun _ => (by decide : fIsQuietNan 0x7FF8000000000000#64 = true), by decide⟩
/-- The state whose next generator word is all ones, so that u1 is 1.0. -/
theorem witness_GaussPairsAreFinite : (rngNext 0x31628AF67B2131AB#64).1 >>> 11 = 0x1FFFFFFFFFFFFF#64 := by
  decide +kernel
theorem witness_IllegalTransactionsChangeNothing : State.reset.inReset = false
    ∧ (Transaction.write 1 0x020 5#32).addr = State.reset.cfg.base + 0x020 ∧ (0x020 : Nat) < 0x400000
    ∧ (Transaction.write 1 0x020 5#32).size ≠ 4 ∧ (Transaction.read 4 0x3FFFFE).addr = State.reset.cfg.base + 0x3FFFFE
    ∧ (0x3FFFFE : Nat) < 0x400000 ∧ 0x3FFFFE % 4 ≠ 0 := by decide
theorem witness_RegistersReadAtTheirOffsets : State.reset.inReset = false ∧ State.reset.status.busy = false := by
  decide
/-- IRQ_EN is written while busy too (R37, R268). -/
theorem witness_WritesReplaceOneRegister : State.reset.inReset = false ∧ State.reset.status.busy = false
    ∧ running.inReset = false ∧ running.status.busy = true := by decide
theorem test_irq_en_written_while_busy : (running.transact (.write 4 (running.cfg.base + 0x01C) 5#32)).irqEn = 5#3
    ∧ (running.transact (.write 4 (running.cfg.base + 0x01C) 5#32)).status.wbusy = false := by decide
/-- The first and last offset of each range; the symbol tails are those of a small block. -/
theorem witness_ReservedOffsetsReadZeroAndIgnoreWrites : State.reset.inReset = false ∧ running.inReset = false
    ∧ small.inReset = false
    ∧ (∀ off ∈ [0x06C, 0x080, 0x00FFFC], off % 4 = 0 ∧ (off = 0x06C ∨ 0x080 ≤ off ∧ off < 0x010000))
    ∧ (∀ off ∈ [0x020000, 0x0FFFFC], off % 4 = 0 ∧ 0x020000 ≤ off ∧ off < 0x100000)
    ∧ (∀ off ∈ [0x300000, 0x3FFFFC], off % 4 = 0 ∧ 0x300000 ≤ off ∧ off < 0x400000)
    ∧ (∀ off ∈ [0x014000, 0x017FFC], off % 4 = 0 ∧ 0x010000 + 4 * (running.cfg.nbMax / 32) ≤ off ∧ off < 0x018000)
    ∧ (∀ off ∈ [0x01C000, 0x01FFFC], off % 4 = 0 ∧ 0x018000 + 4 * (running.cfg.nbMax / 32) ≤ off ∧ off < 0x020000)
    ∧ (∀ off ∈ [0x100020, 0x1FFFFC], off % 4 = 0 ∧ 0x100000 + 16 * small.cfg.nsMax ≤ off ∧ off < 0x200000)
    ∧ (∀ off ∈ [0x200020, 0x2FFFFC], off % 4 = 0 ∧ 0x200000 + 16 * small.cfg.nsMax ≤ off ∧ off < 0x300000)
    ∧ ∀ off ∈ [0x000, 0x00C, 0x050, 0x07C], off % 4 = 0 ∧ (off < 0x010 ∨ 0x050 ≤ off ∧ off < 0x080) := by decide
/-- The last word inside the capacity and the first beyond it. -/
theorem witness_BitWindowsPackThirtyTwoBits : State.reset.inReset = false ∧ State.reset.status.busy = false
    ∧ State.reset.cfg.legal = true ∧ (4095 < 8192 ∧ 4095 < State.reset.cfg.nbMax / 32)
    ∧ (4096 < 8192 ∧ ¬ 4096 < State.reset.cfg.nbMax / 32)
    ∧ (BitBuf.rxb, 0x018000) ∈ ([(.txb, 0x010000), (.rxb, 0x018000)] : List (BitBuf × Nat)) := by decide
/-- The last symbol inside the capacity and the first beyond it. -/
theorem witness_SymbolWindowsHoldFourWords : small.inReset = false ∧ small.status.busy = false
    ∧ small.cfg.legal = true ∧ (1 < 65536 ∧ 1 < small.cfg.nsMax) ∧ (2 < 65536 ∧ ¬ 2 < small.cfg.nsMax) ∧ 3 < 4
    ∧ (SymBuf.rxs, 0x200000) ∈ ([(.txs, 0x100000), (.rxs, 0x200000)] : List (SymBuf × Nat)) := by decide
/-- The first and last word of each protected range. -/
theorem witness_BusyProtectedWritesAreIgnored : running.inReset = false ∧ running.status.busy = true
    ∧ running.cfg.legal = true ∧ ∀ off ∈ [0x020, 0x04C, 0x010000, 0x013FFC, 0x018000, 0x01BFFC, 0x100000, 0x1FFFFC,
      0x200000, 0x2FFFFC], off % 4 = 0 ∧ (0x020 ≤ off ∧ off < 0x050
        ∨ 0x010000 ≤ off ∧ off < 0x010000 + running.cfg.nbMax / 8
        ∨ 0x018000 ≤ off ∧ off < 0x018000 + running.cfg.nbMax / 8
        ∨ 0x100000 ≤ off ∧ off < 0x100000 + 16 * running.cfg.nsMax
        ∨ 0x200000 ≤ off ∧ off < 0x200000 + 16 * running.cfg.nsMax) := by decide
theorem witness_ReadsHaveNoSideEffect : State.reset.status.busy = false := by decide
/-- While GENBITS 20 runs: elements 19 and 20, a register inside and one outside the write set, the last offset, and the ends of the windows. -/
theorem witness_BusyReadsAreExactOutsideTheWriteSet : State.reset.status.busy = false ∧ running.status.busy = true
    ∧ running.inReset = false ∧ decode running.cur = .ok (.genbits 20) ∧ (19 < 32 ∧ 20 < 32)
    ∧ (running.drawnBits (.reg .txbLen)).getLsbD 0 = true ∧ (running.drawnBits (.reg .phaseLo)).getLsbD 0 = false
    ∧ (0x3FFFFC < 0x400000 ∧ 0x3FFFFC % 4 = 0) ∧ (4095 < running.cfg.nbMax / 32 ∧ 4095 < 8192)
    ∧ (262143 < 4 * running.cfg.nsMax ∧ 262143 < 262144) := by decide
theorem witness_StatusWritesClearWhatTheyName : (flagged .engine).inReset = false := by decide
theorem witness_SoftResetKeepsGeneratorAndBuffers : State.reset.inReset = false ∧ State.reset.status.busy = false
    ∧ (0x00000001#32).getLsbD 0 = true ∧ (0xFFFFFFFE#32).getLsbD 0 = false := by decide
theorem witness_SoftResetAbandonsTheCommand : running.inReset = false ∧ (0x00000001#32).getLsbD 0 = true
    ∧ running.status.busy = true ∧ decode running.cur = .ok (.genbits 20) := ⟨rfl, rfl, rfl, rfl⟩
theorem witness_HardwareResetDrawsAnew : held.inReset = true ∧ held.inputs = .releaseReset :: []
    ∧ { held with inputs := [] }.engineNext = true := by decide

end Sys2Proof.Tests
end

section
/-! PROOFS. What every step keeps: the parameters of the build (00_scope.md R8, 10_state.md R30). One lemma for each operation a step is made of. -/

namespace Sys2Proof.Machine

@[simp] theorem softReset_cfg (s : State) : s.softReset.cfg = s.cfg := by
  unfold State.softReset
  split <;> simp

@[simp] theorem releaseReset_cfg (s : State) : s.releaseReset.cfg = s.cfg := by
  unfold State.releaseReset
  split <;> rfl

@[simp] theorem issue_cfg (s : State) (w : Word) : (s.issue w).cfg = s.cfg := by
  rcases issue_cases s w with ⟨-, h⟩ | ⟨-, -, h⟩ | ⟨-, -, h⟩ <;> simp [h]

@[simp] theorem hostRead_cfg (s : State) (t : Target) : (s.hostRead t).cfg = s.cfg := rfl

@[simp] theorem writeReg_cfg (s : State) (v : Word) (r : Reg) : (s.writeReg v r).cfg = s.cfg := by
  cases r
  case ctrl =>
    simp only [State.writeReg]
    split
    · exact softReset_cfg s
    · rfl
  all_goals simp [State.writeReg]

@[simp] theorem hostWrite_cfg (s : State) (t : Target) (v : Word) : (s.hostWrite t v).cfg = s.cfg := by
  unfold State.hostWrite
  split
  · exact flagWbusy_cfg s
  · cases t <;> simp [State.writeTarget]

@[simp] theorem serve_cfg (s : State) (tgt : Target) (t : Transaction) : (s.serve tgt t).cfg = s.cfg := by
  cases t <;> simp [State.serve]

@[simp] theorem transact_cfg (s : State) (t : Transaction) : (s.transact t).cfg = s.cfg := by
  rcases transact_cases s t with h | h | ⟨-, off, -, -, h⟩ <;> simp [h]

theorem exec_cfg {i : Instr} {s t : State} (h : exec i s = .next t) : t.cfg = s.cfg := by
  rcases exec_cases h with ⟨-, rfl⟩ | ⟨-, rfl⟩
  · obtain ⟨hcfg, -⟩ := effectOf_frame i s
    rw [complete_cfg, hcfg]
  · exact reject_cfg _ _ _

theorem engineTurn_cfg {s t : State} (h : engineTurn s = .next t) : t.cfg = s.cfg := by
  rcases engineTurn_cases h with ⟨-, rfl⟩ | ⟨-, -, i, -, he⟩
  · rfl
  · exact exec_cfg he

theorem handle_cfg {e : Event} {s t : State} (h : handle e s = .next t) : t.cfg = s.cfg := by
  cases e with
  | engine => exact engineTurn_cfg h
  | bus | assertReset | releaseReset =>
    injection h with h
    simp [← h]

/-- Settles O21: each event of a step, and the engine's turn, keeps the parameters. -/
theorem parametersNeverChange : Obligations.ParametersNeverChange := by
  intro s t h
  rcases step_cases h with ⟨-, h⟩ | ⟨e, es, -, h⟩
  · exact engineTurn_cfg h
  · have hcfg := handle_cfg h
    exact hcfg

end Sys2Proof.Machine
end

section
/-! PROOFS. The comparisons with 0 and neg (00_scope.md R12, R13), and the numerics parameters (R16 to R19): facts of the classes of encodings, without rounding. -/

namespace Sys2Proof.Machine

/-! Comparisons and negation. -/

theorem getLsbD_63_eq_fSign (x : F64) : x.getLsbD 63 = fSign x := by
  rw [← BitVec.msb_eq_getLsbD_last x, BitVec.msb_eq_decide, fSign, Bool.eq_iff_iff, Nat.ble_eq, decide_eq_true_iff]

/-- The two zeros, told apart by their sign (R9). -/
theorem fIsZero_iff (x : F64) :
    fIsZero x = true ↔ x = 0#64 ∧ fSign x = false ∨ x = 0x8000000000000000#64 ∧ fSign x = true := by
  rw [fIsZero, beq_iff_eq, fSign, Bool.eq_false_iff, Ne, Nat.ble_eq, fMag, ← BitVec.toNat_inj, ← BitVec.toNat_inj,
    BitVec.toNat_ofNat, BitVec.toNat_ofNat]
  omega

theorem fGe0_iff (x : F64) :
    fGe0 x = true ↔ fIsNan x = false ∧ (fSign x = false ∨ x = 0x8000000000000000#64) := by
  cases hs : fSign x
  · simp [fGe0, hs]
  · simp [fGe0, hs, fIsZero_iff]

theorem fGt0_iff (x : F64) : fGt0 x = true ↔ fIsNan x = false ∧ fSign x = false ∧ x ≠ 0#64 := by
  cases hs : fSign x
  · simp [fGt0, hs, fIsZero_iff, ← Bool.not_eq_true]
  · simp [fGt0, hs]

/-- Settles O45: the comparisons split on the sign bit, and neg is an exclusive or with the sign bit alone. -/
theorem comparisonsAndNegation : Obligations.ComparisonsAndNegation := by
  intro x
  rw [getLsbD_63_eq_fSign x]
  refine ⟨fGe0_iff x, fGt0_iff x, ?_, ?_⟩
  · rw [fNeg, BitVec.extractLsb'_xor]
    exact BitVec.xor_zero
  · rw [fNeg, BitVec.getLsbD_xor, getLsbD_63_eq_fSign]
    exact Bool.xor_true _

/-! The numerics parameters. -/

/-- Setting the exponent and the quiet bit makes a quiet NaN of any encoding (R11). -/
theorem makeQuiet_isQuiet (x : F64) : fIsQuietNan (makeQuiet x) = true := by
  have hones : (makeQuiet x).extractLsb' 51 12 = 0xFFF#12 := by
    rw [makeQuiet, BitVec.extractLsb'_or]
    exact BitVec.or_allOnes
  have hfield := congrArg BitVec.toNat hones
  simp only [BitVec.extractLsb'_toNat, Nat.shiftRight_eq_div_pow, BitVec.toNat_ofNat] at hfield
  simp only [fIsQuietNan, fExp, fFrac, Bool.and_eq_true, beq_iff_eq, Nat.ble_eq]
  omega

theorem finite_of_fMag_lt {y : F64} (h : fMag y < fInfMag) : fIsFinite y = true := by
  simp only [fMag, fInfMag, fIsFinite, fExp, bne_iff_ne] at h ⊢
  omega

/-- A finite value is no NaN and no infinity. -/
theorem not_nan_not_inf_of_finite {x : F64} (h : fIsFinite x = true) : fIsNan x = false ∧ fIsInf x = false := by
  simp only [fIsFinite, bne_iff_ne] at h
  simp [fIsNan, fIsInf, h]

theorem inUnit_iff (y : F64) : inUnit y = true ↔ fMag y ≤ 0x3FF0000000000000 := iff_of_eq Nat.ble_eq

/-- R16: Cos of a finite value lies in [-1, 1]. -/
theorem fMag_mCos_le {x : F64} (h : fIsFinite x = true) : fMag (mCos x) ≤ 0x3FF0000000000000 := by
  rw [← inUnit_iff, mCos, if_pos h]
  split
  · rfl
  · split
    · assumption
    · rfl

/-- R17: Sin of a finite value lies in [-1, 1], and is at least one half where Cos is not. -/
theorem mSin_range {x : F64} (h : fIsFinite x = true) : fMag (mSin x) ≤ 0x3FF0000000000000
    ∧ (0x3FE0000000000000 ≤ fMag (mCos x) ∨ 0x3FE0000000000000 ≤ fMag (mSin x)) := by
  rw [mSin, if_pos h]
  split
  · rename_i h0
    have hmag : fMag x = 0 := by simpa [fIsZero] using h0
    have hcos : mCos x = cONE := by rw [mCos, if_pos h, if_pos h0]
    rw [hmag, hcos]
    exact ⟨Nat.zero_le _, .inl (by decide)⟩
  · split
    · rename_i hraw
      simp only [Bool.and_eq_true, Bool.or_eq_true, inUnit_iff, atLeastHalf, Nat.ble_eq] at hraw
      exact hraw
    · exact ⟨by decide, .inr (by decide)⟩

/-- R18: Ln of a value in [2^-53, 1) is a zero or a negative number not beyond -36.8. -/
theorem mLn_range {x : F64} (hlo : 0x3CA0000000000000 ≤ x.toNat) (hhi : x.toNat < 0x3FF0000000000000) :
    (fSign (mLn x) = true ∨ fIsZero (mLn x) = true) ∧ fMag (mLn x) ≤ 0x4042666666666666 := by
  have hone : (x == cONE) = false := by
    rw [beq_eq_false_iff_ne]
    rintro rfl
    exact absurd hhi (by decide)
  have harg : lnArgument x = true := by
    rw [lnArgument, Bool.and_eq_true, Nat.ble_eq, Nat.blt_eq]
    exact ⟨hlo, hhi⟩
  have hrange : inLnRange (mLn x) = true := by
    rw [mLn, hone, if_neg (by decide), if_pos harg]
    split
    · assumption
    · rfl
  simp only [inLnRange, Bool.or_eq_true, Bool.and_eq_true, Nat.ble_eq] at hrange
  rcases hrange with hzero | ⟨hneg, hmag⟩
  · have hmag : fMag (mLn x) = 0 := by simpa [fIsZero] using hzero
    exact ⟨.inr hzero, hmag ▸ Nat.zero_le _⟩
  · exact ⟨.inl hneg, hmag⟩

/-- R19: Pow10 of a finite value is no NaN and not negative. -/
theorem mPow10_nonneg {x : F64} (h : fIsFinite x = true) :
    fIsNan (mPow10 x) = false ∧ fSign (mPow10 x) = false := by
  obtain ⟨hnan, hinf⟩ := not_nan_not_inf_of_finite h
  simp only [mPow10, hnan, hinf, Bool.false_eq_true, if_false]
  split
  · exact ⟨rfl, rfl⟩
  · split
    · exact ⟨rfl, rfl⟩
    · rename_i hraw
      simpa using hraw

/-- Settles O42: each parameter's guard holds its answer, and the value that stands in for it, to the rule. -/
theorem numericsParametersAreAsStated : Obligations.NumericsParametersAreAsStated := by
  refine ⟨⟨rfl, rfl, fun x => ?_⟩, ⟨rfl, rfl, fun x => ?_⟩, ⟨rfl, fun x hlo hhi => ?_⟩,
    rfl, rfl, rfl, rfl, fun x h => ?_, fun x h => mPow10_nonneg h⟩
  · split
    · rename_i h
      have hunit := fMag_mCos_le h
      exact ⟨finite_of_fMag_lt (hunit.trans_lt (by decide)), hunit⟩
    · rename_i h
      rw [mCos, if_neg h]
      exact makeQuiet_isQuiet _
  · split
    · rename_i h
      obtain ⟨hunit, hhalf⟩ := mSin_range h
      exact ⟨finite_of_fMag_lt (hunit.trans_lt (by decide)), hunit, hhalf⟩
    · rename_i h
      rw [mSin, if_neg h]
      exact makeQuiet_isQuiet _
  · obtain ⟨hsign, hmag⟩ := mLn_range hlo hhi
    exact ⟨finite_of_fMag_lt (hmag.trans_lt (by decide)), hsign, hmag⟩
  · rw [mPow10, if_pos h]
    exact makeQuiet_isQuiet _

end Sys2Proof.Machine
end

section
/-! PROOFS. The operations on finite values are rounded exactly (00_scope.md R10, R14, R15): each is fRound of integers that stand for the exact result, and fRound_spec says what that is. -/

namespace Sys2Proof.Machine

/-! Signs and values. -/

/-- The factor a sign bit stands for (R9). -/
def signFactor (s : Bool) : ℚ := if s then -1 else 1

theorem fVal_eq (x : F64) : fVal x = signFactor (fSign x) * (fSig x * 2 ^ fLsb x) := by
  rw [fVal, signFactor, mul_assoc]

theorem signFactor_bne (a b : Bool) : signFactor (a != b) = signFactor a * signFactor b := by
  cases a <;> cases b <;> simp [signFactor]

theorem signFactor_inv (s : Bool) : (signFactor s)⁻¹ = signFactor s := by
  cases s <;> simp [signFactor]

theorem abs_signFactor_mul (s : Bool) {y : ℚ} (hy : 0 ≤ y) : |signFactor s * y| = y := by
  cases s <;> simp [signFactor, abs_of_nonneg hy]

theorem signFactor_mul_neg_iff (s : Bool) {y : ℚ} (hy : 0 < y) : signFactor s * y < 0 ↔ s = true := by
  cases s
  · simp [signFactor, hy.le]
  · simp [signFactor, hy]

theorem intCast_eq_signFactor_mul (v : ℤ) : (v : ℚ) = signFactor (decide (v < 0)) * v.natAbs := by
  by_cases h : v < 0
  · simp [signFactor, h, abs_of_neg]
  · simp [signFactor, h, abs_of_nonneg (not_lt.mp h)]

theorem fSig_eq_zero_iff (x : F64) : fSig x = 0 ↔ fIsZero x = true := by
  simp only [fSig, fIsZero, fMag, fExp, fFrac, beq_iff_eq]
  split <;> omega

theorem fSig_pos {x : F64} (h : fIsZero x = false) : 0 < fSig x := by
  rw [Nat.pos_iff_ne_zero, Ne, fSig_eq_zero_iff, h]
  decide

@[simp] theorem fVal_fZero (s : Bool) : fVal (fZero s) = 0 := by
  have hsig : fSig (fZero s) = 0 := by cases s <;> rfl
  simp [fVal, hsig]

theorem fVal_lt_of_finite {x : F64} (hx : fIsFinite x = true) : fVal x < 2 ^ 1024 := by
  have hlsb : fLsb x ≤ 971 := by
    have hexp : fExp x < 2048 := Nat.mod_lt _ (by norm_num)
    have hne : fExp x ≠ 2047 := by simpa [fIsFinite] using hx
    have hdef : fLsb x = ((max (fExp x) 1 : ℕ) : ℤ) - 1075 := rfl
    omega
  have hsig : (fSig x : ℚ) < 2 ^ 53 := by exact_mod_cast (fSig_bounds x).1
  calc fVal x ≤ |fVal x| := le_abs_self _
    _ = fSig x * 2 ^ fLsb x := by rw [fVal_eq, abs_signFactor_mul _ (by positivity)]
    _ < 2 ^ 53 * 2 ^ fLsb x := by gcongr
    _ ≤ 2 ^ 53 * 2 ^ (971 : ℤ) := by gcongr; norm_num
    _ = 2 ^ 1024 := by rw [show (971 : ℤ) = (971 : ℕ) from rfl, zpow_natCast, ← pow_add]

/-! Rounding an exact result. -/

/-- fRound may be given m and e for the exact magnitude X: X is m * 2^e, or it lies within one unit of an odd m of 55 bits or more, whose last bit records a remainder (the hypothesis of fRound_spec). -/
def StandsFor (m : Nat) (e : ℤ) (X : ℝ) : Prop :=
  X = m * 2 ^ e ∨ m % 2 = 1 ∧ 54 ≤ Nat.log2 m ∧ |X - m * 2 ^ e| < 2 ^ e

/-- r is the exact value x rounded to binary64, an overflow giving the infinity of x's sign (R10). -/
def IsRounded (r : F64) (x : ℚ) : Prop :=
  if |x| < (2 : ℚ) ^ 1024 - (2 : ℚ) ^ 970 then fIsFinite r = true ∧ RoundsTo r x
  else r = if x < 0 then 0xFFF0000000000000#64 else 0x7FF0000000000000#64

/-- Values up to 2^970 do not overflow. -/
theorem pow_970_lt_threshold {K : Type} [Field K] [LinearOrder K] [IsStrictOrderedRing K] :
    (2 : K) ^ 970 < 2 ^ 1024 - 2 ^ 970 := by
  have h : (0 : K) < 2 ^ 970 := by positivity
  rw [show (2 : K) ^ 1024 = 2 ^ 54 * 2 ^ 970 by rw [← pow_add]]
  generalize (2 : K) ^ 970 = P at h
  linarith

theorem isRounded_fRound (s : Bool) {m : Nat} {e : ℤ} {y : ℚ} (hm : m ≠ 0) (hy : 0 < y) (hY : StandsFor m e y) :
    IsRounded (fRound s m e) (signFactor s * y) := by
  have hspec := fRound_spec s hm hY
  have hlt : (y : ℝ) < 2 ^ 1024 - 2 ^ 970 ↔ y < 2 ^ 1024 - 2 ^ 970 := by exact_mod_cast Iff.rfl
  rw [IsRounded, abs_signFactor_mul s hy.le]
  simp only [hlt, signFactor_mul_neg_iff s hy] at hspec ⊢
  split
  · rename_i h
    rw [if_pos h] at hspec
    obtain ⟨hfin, hnear⟩ := hspec
    refine ⟨hfin, RoundsToReal.roundsTo ?_⟩
    convert hnear using 1
    cases s <;> simp [signFactor]
  · rename_i h
    rw [if_neg h] at hspec
    rw [hspec]
    cases s <;> rfl

theorem isRounded_fZero (s : Bool) : IsRounded (fZero s) 0 := by
  have hfin : fIsFinite (fZero s) = true := by cases s <;> rfl
  have heven : fFrac (fZero s) % 2 = 0 := by cases s <;> rfl
  rw [IsRounded, abs_zero, if_pos (lt_trans (by positivity) pow_970_lt_threshold)]
  refine ⟨hfin, fun y _ => ⟨?_, fun _ _ => heven⟩⟩
  rw [fVal_fZero, sub_zero, abs_zero]
  exact abs_nonneg _

@[simp] theorem fRound_zero (s : Bool) (e : ℤ) : fRound s 0 e = fZero s := rfl

theorem isRounded_fRound_exact (s : Bool) (m : Nat) (e : ℤ) :
    IsRounded (fRound s m e) (signFactor s * (m * 2 ^ e)) := by
  by_cases hm : m = 0
  · subst hm
    simpa using isRounded_fZero s
  · exact isRounded_fRound s hm (by positivity) (.inl (by push_cast; rfl))

theorem fSign_fRound (s : Bool) (m : Nat) (e : ℤ) : fSign (fRound s m e) = s := (fRound_not_nan s m e).2

/-! Sums and products. -/

theorem fVal_eq_fScaled {x : F64} {e : ℤ} (h : e ≤ fLsb x) : fVal x = fScaled x e * 2 ^ e := by
  obtain ⟨d, hd⟩ : ∃ d : Nat, fLsb x = e + d := ⟨(fLsb x - e).toNat, by omega⟩
  rw [fVal_eq, fScaled, hd, add_sub_cancel_left, Int.toNat_natCast, zpow_add₀ (by norm_num), zpow_natCast, signFactor]
  split <;> (push_cast; ring)

/-- A sum of finite values rounds an integer multiple v of the finer unit 2^e. -/
theorem fAdd_of_finite (nan : F64) {a b : F64} (ha : fIsFinite a = true) (hb : fIsFinite b = true) :
    ∃ v e : ℤ, fVal a + fVal b = v * 2 ^ e ∧ fAdd nan a b
      = if v = 0 then fZero (fSign a && fSign b) else fRound (decide (v < 0)) v.natAbs e := by
  obtain ⟨hna, hia⟩ := not_nan_not_inf_of_finite ha
  obtain ⟨hnb, hib⟩ := not_nan_not_inf_of_finite hb
  refine ⟨fScaled a (min (fLsb a) (fLsb b)) + fScaled b (min (fLsb a) (fLsb b)), min (fLsb a) (fLsb b), ?_, ?_⟩
  · rw [fVal_eq_fScaled (min_le_left (fLsb a) (fLsb b)), fVal_eq_fScaled (min_le_right (fLsb a) (fLsb b)),
      Int.cast_add, add_mul]
  · simp [fAdd, hna, hia, hnb, hib]

theorem isRounded_fAdd (nan : F64) {a b : F64} (ha : fIsFinite a = true) (hb : fIsFinite b = true) :
    IsRounded (fAdd nan a b) (fVal a + fVal b) := by
  obtain ⟨v, e, hval, hadd⟩ := fAdd_of_finite nan ha hb
  rw [hadd, hval]
  split
  · rename_i hv
    simpa [hv] using isRounded_fZero (fSign a && fSign b)
  · rw [intCast_eq_signFactor_mul v, mul_assoc]
    exact isRounded_fRound_exact _ _ _

theorem fSign_fAdd (nan : F64) {a b : F64} (ha : fIsFinite a = true) (hb : fIsFinite b = true)
    (h : fVal a + fVal b ≠ 0) : fSign (fAdd nan a b) = true ↔ fVal a + fVal b < 0 := by
  obtain ⟨v, e, hval, hadd⟩ := fAdd_of_finite nan ha hb
  have he : (0 : ℚ) < 2 ^ e := by positivity
  have hv : v ≠ 0 := by
    rintro rfl
    simp [hval] at h
  rw [hadd, if_neg hv, fSign_fRound, hval, decide_eq_true_iff, ← not_le, ← not_le, mul_nonneg_iff_of_pos_right he,
    Int.cast_nonneg_iff]

/-- An exact zero sum is negative only of two negative operands (log 16). -/
theorem fAdd_of_sum_zero (nan : F64) {a b : F64} (ha : fIsFinite a = true) (hb : fIsFinite b = true)
    (h : fVal a + fVal b = 0) : fAdd nan a b = fZero (fSign a && fSign b) := by
  obtain ⟨v, e, hval, hadd⟩ := fAdd_of_finite nan ha hb
  have he : (2 : ℚ) ^ e ≠ 0 := by positivity
  have hv : v = 0 := by simpa [he] using hval.symm.trans h
  rw [hadd, if_pos hv]

theorem fMul_of_finite (nan : F64) {a b : F64} (ha : fIsFinite a = true) (hb : fIsFinite b = true) :
    fMul nan a b = fRound (fSign a != fSign b) (fSig a * fSig b) (fLsb a + fLsb b) := by
  obtain ⟨hna, hia⟩ := not_nan_not_inf_of_finite ha
  obtain ⟨hnb, hib⟩ := not_nan_not_inf_of_finite hb
  simp [fMul, hna, hia, hnb, hib]

theorem fVal_mul (a b : F64) :
    fVal a * fVal b = signFactor (fSign a != fSign b) * ((fSig a * fSig b : ℕ) * 2 ^ (fLsb a + fLsb b)) := by
  rw [fVal_eq, fVal_eq, signFactor_bne, zpow_add₀ (by norm_num)]
  push_cast
  ring

theorem isRounded_fMul (nan : F64) {a b : F64} (ha : fIsFinite a = true) (hb : fIsFinite b = true) :
    IsRounded (fMul nan a b) (fVal a * fVal b) := by
  rw [fMul_of_finite nan ha hb, fVal_mul]
  exact isRounded_fRound_exact _ _ _

/-- Settles O38: a sum rounds an exact integer multiple of the finer unit, a product the exact product of the significands. -/
theorem sumsAndProductsRoundToNearest : Obligations.SumsAndProductsRoundToNearest := by
  intro nan a b ha hb
  refine ⟨?_, fSign_fAdd nan ha hb, fun h => ?_, ?_⟩
  · rintro e he
    rcases List.mem_pair.mp he with rfl | rfl
    · exact isRounded_fAdd nan ha hb
    · exact isRounded_fMul nan ha hb
  · rw [fAdd_of_sum_zero nan ha hb h]
    cases fSign a <;> cases fSign b <;> rfl
  · rw [fMul_of_finite nan ha hb, fSign_fRound, bne_iff_ne]

/-! Quotients. -/

/-- The integer k with one bit more, which records a remainder unless `isExact`. -/
def withSticky (k : Nat) (isExact : Bool) : Nat := 2 * k + if isExact then 0 else 1

theorem withSticky_ne_zero {k : Nat} (h : k ≠ 0) (isExact : Bool) : withSticky k isExact ≠ 0 := by
  unfold withSticky
  omega

/-- The integer part k of V and whether it is V stand for V in a rounding. -/
theorem standsFor_withSticky {k : Nat} {isExact : Bool} {V : ℝ} (e : ℤ) (hk : 2 ^ 53 ≤ k) (hlo : (k : ℝ) ≤ V)
    (hhi : V < k + 1) (hexact : isExact = true ↔ V = k) : StandsFor (withSticky k isExact) e (2 * V * 2 ^ e) := by
  by_cases hV : V = k
  · rw [hexact.mpr hV, hV]
    left
    simp [withSticky]
  · have hlt : (k : ℝ) < V := lt_of_le_of_ne hlo (Ne.symm hV)
    have hodd : withSticky k isExact = 2 * k + 1 := by simp [withSticky, hexact, hV]
    have hdist : |2 * V - (2 * (k : ℝ) + 1)| < 1 := abs_lt.mpr ⟨by linarith, by linarith⟩
    rw [hodd]
    refine .inr ⟨by omega, (Nat.le_log2 (by omega)).mpr (by omega), ?_⟩
    push_cast
    rw [← sub_mul, abs_mul, abs_of_pos (by positivity : (0 : ℝ) < 2 ^ e)]
    exact mul_lt_of_lt_one_left (by positivity) hdist

/-- Quotient and remainder of a division stand for the exact quotient. -/
theorem standsFor_div {n d : Nat} (e : ℤ) (hd : 0 < d) (hk : 2 ^ 53 ≤ n / d) :
    StandsFor (withSticky (n / d) (n % d == 0)) e (2 * ((n : ℝ) / d) * 2 ^ e) := by
  have hd' : (0 : ℝ) < d := by exact_mod_cast hd
  have hval : (n : ℝ) / d = (n / d : ℕ) + (n % d : ℕ) / (d : ℝ) := by
    rw [div_eq_iff hd'.ne', add_mul, div_mul_cancel₀ _ hd'.ne']
    exact_mod_cast (Nat.div_add_mod' n d).symm
  have hrem : ((n % d : ℕ) : ℝ) / d < 1 := by
    rw [div_lt_one hd']
    exact_mod_cast Nat.mod_lt n hd
  refine standsFor_withSticky e hk Nat.cast_div_le (by rw [hval]; linarith) ?_
  rw [hval, add_eq_left, div_eq_zero_iff, Nat.cast_eq_zero, beq_iff_eq]
  simp [hd'.ne']

theorem fDiv_of_finite (nan : F64) {a b : F64} (ha : fIsFinite a = true) (hb : fIsFinite b = true)
    (h0 : fIsZero b = false) : fDiv nan a b = fRound (fSign a != fSign b)
      (withSticky (fSig a * 2 ^ 120 / fSig b) (fSig a * 2 ^ 120 % fSig b == 0)) (fLsb a - fLsb b - 121) := by
  obtain ⟨hna, hia⟩ := not_nan_not_inf_of_finite ha
  obtain ⟨hnb, hib⟩ := not_nan_not_inf_of_finite hb
  simp [fDiv, hna, hia, hnb, hib, h0, withSticky]

theorem fVal_div (a b : F64) : fVal a / fVal b = signFactor (fSign a != fSign b)
    * (2 * ((fSig a * 2 ^ 120 : ℕ) / (fSig b : ℚ)) * 2 ^ (fLsb a - fLsb b - 121)) := by
  rw [fVal_eq, fVal_eq, signFactor_bne, zpow_sub₀ (by norm_num), zpow_sub₀ (by norm_num), mul_div_mul_comm,
    div_eq_mul_inv (signFactor (fSign a)), signFactor_inv]
  push_cast
  ring

theorem isRounded_fDiv (nan : F64) {a b : F64} (ha : fIsFinite a = true) (hb : fIsFinite b = true)
    (h0 : fIsZero b = false) : IsRounded (fDiv nan a b) (fVal a / fVal b) := by
  have hb0 := fSig_pos h0
  obtain ⟨hb53, -⟩ := fSig_bounds b
  rw [fDiv_of_finite nan ha hb h0, fVal_div]
  by_cases ha0 : fSig a = 0
  · simpa [ha0, withSticky] using isRounded_fZero (fSign a != fSign b)
  · have hk : 2 ^ 53 ≤ fSig a * 2 ^ 120 / fSig b := by
      rw [Nat.le_div_iff_mul_le hb0]
      omega
    have hstands := standsFor_div (fLsb a - fLsb b - 121) hb0 hk
    exact isRounded_fRound _ (withSticky_ne_zero (by omega) _) (by positivity) (by push_cast at hstands ⊢; exact hstands)

/-- Settles O39: the integer quotient of 67 bits or more and its remainder stand for the exact quotient. -/
theorem quotientsRoundToNearest : Obligations.QuotientsRoundToNearest := by
  intro nan a b ha hb h0
  refine ⟨isRounded_fDiv nan ha hb h0, ?_⟩
  rw [fDiv_of_finite nan ha hb h0, fSign_fRound, bne_iff_ne]

/-! Conversion. -/

/-- An integer below 2^53 is a binary64 value: normalized to 53 bits, its significand. -/
theorem exists_finite_of_lt {n : Nat} (h : n < 2 ^ 53) : ∃ y, fIsFinite y = true ∧ fVal y = n := by
  by_cases h0 : n = 0
  · exact ⟨fZero false, rfl, by rw [fVal_fZero, h0, Nat.cast_zero]⟩
  have hlog : Nat.log2 n ≤ 52 := Nat.le_of_lt_succ ((Nat.log2_lt h0).mpr h)
  obtain ⟨d, hd⟩ : ∃ d, Nat.log2 n + d = 52 := ⟨52 - Nat.log2 n, by omega⟩
  have hlo : 2 ^ 52 ≤ n * 2 ^ d := by
    rw [← hd, pow_add]
    exact Nat.mul_le_mul_right _ (Nat.log2_self_le h0)
  have hhi : n * 2 ^ d < 2 ^ 53 := by
    rw [show 53 = Nat.log2 n + 1 + d by omega, pow_add]
    exact Nat.mul_lt_mul_of_pos_right Nat.lt_log2_self (by positivity)
  obtain ⟨hfin, hval, -⟩ := fPack_value false (t := -(d : ℤ)) (n := n * 2 ^ d) (by omega) hhi.le (fun _ => hlo)
    (by unfold fInfMag; omega)
  refine ⟨_, hfin, Rat.cast_injective (α := ℝ) ?_⟩
  rw [hval, zpow_neg, zpow_natCast]
  push_cast
  field_simp

/-- What rounds a binary64 value is that value. -/
theorem RoundsTo.eq_of_finite {r y : F64} {x : ℚ} (h : RoundsTo r x) (hy : fIsFinite y = true) (hval : fVal y = x) :
    fVal r = x := by
  obtain ⟨hle, -⟩ := h y hy
  rw [hval, sub_self, abs_zero] at hle
  exact sub_eq_zero.mp (abs_nonpos_iff.mp hle)

/-- Settles O40: cvt rounds n itself, which is far below the overflow threshold. -/
theorem conversionRoundsToNearest : Obligations.ConversionRoundsToNearest := by
  intro n
  have hsmall : |(n.toNat : ℚ)| < 2 ^ 1024 - 2 ^ 970 := by
    rw [Nat.abs_cast]
    calc (n.toNat : ℚ) < 2 ^ 64 := by exact_mod_cast n.isLt
      _ ≤ 2 ^ 970 := pow_le_pow_right₀ (by norm_num) (by norm_num)
      _ < 2 ^ 1024 - 2 ^ 970 := pow_970_lt_threshold
  have hround : IsRounded (fCvt n) n.toNat := by
    simpa [fCvt, signFactor] using isRounded_fRound_exact false n.toNat 0
  rw [IsRounded, if_pos hsmall] at hround
  obtain ⟨hfin, hnear⟩ := hround
  refine ⟨hfin, hnear, fun h => ?_⟩
  obtain ⟨y, hy, hval⟩ := exists_finite_of_lt h
  exact hnear.eq_of_finite hy hval

/-! Square roots. -/

/-- Each bit tried keeps n between the squares of r and of the least number beyond the bits left. -/
theorem isqrtBits_eq_sqrt (n k r : Nat) (hlo : r * r ≤ n) (hhi : n < (r + 2 ^ k) * (r + 2 ^ k)) :
    isqrtBits n k r = Nat.sqrt n := by
  induction k generalizing r with
  | zero => exact Nat.eq_sqrt.mpr ⟨hlo, hhi⟩
  | succ k ih =>
    rw [isqrtBits]
    split
    · rename_i h
      exact ih _ (Nat.ble_eq.mp h) (by rwa [add_assoc, ← two_mul, ← pow_succ'])
    · rename_i h
      exact ih _ hlo (by rwa [Nat.ble_eq, not_le] at h)

theorem isqrt_eq_sqrt {n : Nat} (h : n < 2 ^ 192) : isqrt n = Nat.sqrt n :=
  isqrtBits_eq_sqrt n 96 0 (Nat.zero_le _) (by omega)

/-- The integer root and whether it is exact stand for the real root. -/
theorem standsFor_sqrt {n : Nat} (e : ℤ) (hk : 2 ^ 106 ≤ n) :
    StandsFor (withSticky (Nat.sqrt n) (Nat.sqrt n * Nat.sqrt n == n)) e (2 * √(n : ℝ) * 2 ^ e) := by
  refine standsFor_withSticky e (Nat.le_sqrt.mpr (by omega)) Real.nat_sqrt_le_real_sqrt
    Real.real_sqrt_lt_nat_sqrt_succ ?_
  rw [Real.sqrt_eq_iff_mul_self_eq (by positivity) (by positivity), beq_iff_eq, ← Nat.cast_mul, Nat.cast_inj, eq_comm]

/-- A positive finite value is n * 2^(2e) with an integer n of 121 bits or more, whose root the operation rounds. -/
theorem fSqrt_of_pos (nan : F64) {x : F64} (hx : fIsFinite x = true) (hs : fSign x = false)
    (h0 : fIsZero x = false) : ∃ (n : ℕ) (e : ℤ), 2 ^ 120 ≤ n ∧ fVal x = n * 2 ^ (2 * e)
      ∧ fSqrt nan x = fRound false (withSticky (Nat.sqrt n) (Nat.sqrt n * Nat.sqrt n == n)) (e - 1) := by
  obtain ⟨hnan, hinf⟩ := not_nan_not_inf_of_finite hx
  obtain ⟨hsig, -⟩ := fSig_bounds x
  have hpos := fSig_pos h0
  have hval : fVal x = fSig x * 2 ^ fLsb x := by rw [fVal_eq, hs, signFactor, if_neg (by decide), one_mul]
  by_cases hodd : fLsb x % 2 = 1
  · refine ⟨2 * fSig x * 2 ^ 120, (fLsb x - 1) / 2 - 60, by omega, ?_, ?_⟩
    · rw [hval, show 2 * ((fLsb x - 1) / 2 - 60) = fLsb x - 121 by omega, zpow_sub₀ (by norm_num)]
      push_cast
      ring
    · rw [← isqrt_eq_sqrt (by omega)]
      simp [fSqrt, hnan, h0, hs, hinf, hodd, withSticky, sub_sub]
  · refine ⟨fSig x * 2 ^ 120, fLsb x / 2 - 60, by omega, ?_, ?_⟩
    · rw [hval, show 2 * (fLsb x / 2 - 60) = fLsb x - 120 by omega, zpow_sub₀ (by norm_num)]
      push_cast
      ring
    · rw [← isqrt_eq_sqrt (by omega)]
      simp [fSqrt, hnan, h0, hs, hinf, hodd, withSticky, sub_sub]

theorem sqrt_mul_zpow (n : ℕ) (e : ℤ) : √((n : ℝ) * 2 ^ (2 * e)) = 2 * √(n : ℝ) * 2 ^ (e - 1) := by
  rw [Real.sqrt_mul (by positivity), two_mul, zpow_add₀ (by norm_num), Real.sqrt_mul_self (by positivity),
    zpow_sub_one₀ (by norm_num)]
  ring

/-- No square root overflows. -/
theorem sqrt_fVal_lt_threshold {x : F64} (hx : fIsFinite x = true) :
    √((fVal x : ℚ) : ℝ) < 2 ^ 1024 - 2 ^ 970 := by
  have hlt : ((fVal x : ℚ) : ℝ) < (2 ^ 512) ^ 2 := by
    rw [← pow_mul, ← Rat.cast_ofNat, ← Rat.cast_pow, Rat.cast_lt]
    exact fVal_lt_of_finite hx
  calc √((fVal x : ℚ) : ℝ) < 2 ^ 512 := (Real.sqrt_lt' (by positivity)).mpr hlt
    _ ≤ 2 ^ 970 := pow_le_pow_right₀ (by norm_num) (by norm_num)
    _ < 2 ^ 1024 - 2 ^ 970 := pow_970_lt_threshold

theorem fSqrt_rounds (nan : F64) {x : F64} (hx : fIsFinite x = true) (hs : fSign x = false)
    (h0 : fIsZero x = false) : fIsFinite (fSqrt nan x) = true ∧ fSign (fSqrt nan x) = false
      ∧ RoundsToReal (fSqrt nan x) √((fVal x : ℚ) : ℝ) := by
  obtain ⟨n, e, hn, hval, hsqrt⟩ := fSqrt_of_pos nan hx hs h0
  have hroot : √((fVal x : ℚ) : ℝ) = 2 * √(n : ℝ) * 2 ^ (e - 1) := by
    rw [hval, ← sqrt_mul_zpow]
    push_cast
    rfl
  have hpos : 0 < Nat.sqrt n := Nat.sqrt_pos.mpr (by omega)
  have hspec := fRound_spec false (withSticky_ne_zero hpos.ne' _) (standsFor_sqrt (e - 1) (by omega))
  rw [← hroot, if_pos (sqrt_fVal_lt_threshold hx), ← hsqrt] at hspec
  obtain ⟨hfin, hnear⟩ := hspec
  exact ⟨hfin, by rw [hsqrt, fSign_fRound], by simpa using hnear⟩

theorem fSqrt_of_invalid (nan : F64) {x : F64} (h : fIsNan x = true ∨ fSign x = true ∧ fIsZero x = false) :
    fSqrt nan x = nan := by
  rcases h with hnan | ⟨hs, h0⟩
  · simp [fSqrt, hnan]
  · simp [fSqrt, hs, h0]

/-- R20 and R173 evaluated. None of the operations draws its NaN, so each is first shown to answer what it answers with 0 in the NaN's place. -/
theorem namedConstants_eval (nan : F64) : fSqrt nan 0x4000000000000000#64 = cSQRT2 ∧ fDiv nan cONE cSQRT2 = cQA
    ∧ fAdd nan (fMul nan cQA cQA) (fMul nan cQA cQA) = 0x3FEFFFFFFFFFFFFE#64 := by
  have hroot : fSqrt nan 0x4000000000000000#64 = fSqrt 0#64 0x4000000000000000#64 := rfl
  have hquotient : fDiv nan cONE cSQRT2 = fDiv 0#64 cONE cSQRT2 := rfl
  have hsquare : fMul nan cQA cQA = fMul 0#64 cQA cQA := rfl
  have hhalf : fMul 0#64 cQA cQA = 0x3FDFFFFFFFFFFFFE#64 := by decide +kernel
  have hsum : fAdd nan 0x3FDFFFFFFFFFFFFE#64 0x3FDFFFFFFFFFFFFE#64
      = fAdd 0#64 0x3FDFFFFFFFFFFFFE#64 0x3FDFFFFFFFFFFFFE#64 := rfl
  rw [hroot, hquotient, hsquare, hhalf, hsum]
  decide +kernel

/-- Settles O41: the integer root and its remainder stand for the real root, which never overflows; the special cases and constants are evaluated. -/
theorem namedConstantsAgree : Obligations.NamedConstantsAgree := fun nan =>
  ⟨fun _ hx hs h0 => fSqrt_rounds nan hx hs h0, rfl, rfl, rfl, fun _ h => fSqrt_of_invalid nan h,
    namedConstants_eval nan⟩

end Sys2Proof.Machine
end

section
/-! PROOFS. Rules for the host's word writes and reads and for a step's events, said once: which register stands at an offset, everything a transaction and a write can do, and what a register write leaves alone (20_memory.md R81 to R83, 44_control.md R267 to R270). -/

namespace Sys2Proof.Machine

/-! Registers and their offsets. -/

@[simp] theorem targetAt_regOffset (p : Params) (r : Reg) : targetAt p (regOffset r) = .reg r := by
  cases r <;> rfl

theorem eq_regOffset_of_targetAt {p : Params} {off : Nat} {r : Reg} (h : targetAt p off = .reg r) :
    off = regOffset r := by
  by_cases hlow : off < 0x010000
  · rw [targetAt, if_pos (Nat.blt_eq.mpr hlow)] at h
    split at h
    · rename_i hreg
      injection h with h
      exact (regAt_offset (h ▸ hreg)).symm
    · cases h
  · have hbit : ∀ b j, bitTarget p b j ≠ .reg r := fun b j => by
      rcases bitTarget_cases p b j with ⟨-, e⟩ | e <;> simp [e]
    have hsym : ∀ b j, symTarget p b j ≠ .reg r := fun b j => by
      rcases symTarget_cases p b j with ⟨-, e⟩ | e <;> simp [e]
    rw [targetAt, if_neg (by rwa [Nat.blt_eq])] at h
    split_ifs at h
    exacts [absurd h (hbit _ _), absurd h (hbit _ _), absurd h (hsym _ _), absurd h (hsym _ _)]

theorem regOffset_legal (r : Reg) : regOffset r < 0x400000 ∧ regOffset r % 4 = 0 := by
  cases r <;> decide

/-- A word write at a register's offset. -/
theorem write_register {s : State} (v : Word) (r : Reg) (hr : s.inReset = false) :
    s.transact (.write 4 (s.cfg.base + regOffset r) v) = { s.hostWrite (.reg r) v with resp := .some ⟨true, 0#32⟩ } := by
  obtain ⟨hlt, h4⟩ := regOffset_legal r
  rw [write_at v hr hlt h4, targetAt_regOffset]

/-- A word read at a register's offset. -/
theorem read_register {s : State} (r : Reg) (hr : s.inReset = false) :
    s.transact (.read 4 (s.cfg.base + regOffset r)) = s.hostRead (.reg r) := by
  obtain ⟨hlt, h4⟩ := regOffset_legal r
  rw [read_at hr hlt h4, targetAt_regOffset]

/-! Everything that can happen. -/

/-- Everything a step can do, by the event it takes. -/
theorem step_event_cases {s t : State} (h : step s = .next t) :
    (s.engineNext = true ∧ engineTurn s.turned = .next t)
      ∨ (∃ tr, s.inputs.head? = .some (.bus tr) ∧ t = s.turned.transact tr)
      ∨ (s.inputs.head? = .some .assertReset ∧ t = s.turned.assertReset)
      ∨ (s.inputs.head? = .some .releaseReset ∧ t = s.turned.releaseReset) := by
  rcases step_cases h with ⟨hin, h⟩ | ⟨e, es, hin, h⟩
  · have hturned : s.turned = s := by rw [State.turned, hin, List.tail_nil, ← hin]
    exact .inl ⟨by simp [State.engineNext, hin], by rwa [hturned]⟩
  · have hturned : s.turned = { s with inputs := es } := by simp [State.turned, hin]
    rw [← hturned] at h
    cases e with
    | engine => exact .inl ⟨by simp [State.engineNext, hin], h⟩
    | bus tr =>
      injection h with h
      exact .inr (.inl ⟨tr, by simp [hin], h.symm⟩)
    | assertReset =>
      injection h with h
      exact .inr (.inr (.inl ⟨by simp [hin], h.symm⟩))
    | releaseReset =>
      injection h with h
      exact .inr (.inr (.inr ⟨by simp [hin], h.symm⟩))

/-- A transaction changes nothing but the answer and the draw counter, or it is a word write at an aligned offset of the block. -/
theorem transact_write_cases (s : State) (tr : Transaction) :
    (∃ r d, s.transact tr = { s with resp := r, draws := d } ∧ s.draws ≤ d)
      ∨ ∃ off v, tr = .write 4 (s.cfg.base + off) v
        ∧ s.transact tr = { s.hostWrite (targetAt s.cfg off) v with resp := .some ⟨true, 0#32⟩ } := by
  have hread : ∀ tgt, ∃ r d, s.hostRead tgt = { s with resp := r, draws := d } ∧ s.draws ≤ d := fun tgt =>
    ⟨_, _, rfl, by split <;> omega⟩
  rcases transact_cases s tr with h | h | ⟨-, off, hoff, hlegal, h⟩
  · exact .inl ⟨_, s.draws, h, le_rfl⟩
  · exact .inl ⟨_, s.draws, h, le_rfl⟩
  · cases tr with
    | read size addr => exact .inl (by rw [h]; exact hread _)
    | fetch size addr => exact .inl (by rw [h]; exact hread _)
    | write size addr v =>
      simp only [legalAccess, Transaction.size, Bool.and_eq_true, beq_iff_eq] at hlegal
      obtain ⟨rfl, -⟩ := hlegal
      simp only [offsetOf, Transaction.addr, Bool.and_eq_true, Nat.ble_eq] at hoff
      split at hoff
      · rename_i hrange
        injection hoff with hoff
        exact .inr ⟨off, v, by rw [show addr = s.cfg.base + off by omega], h⟩
      · cases hoff

/-- A write is stopped by busy protection, or reaches its target. -/
theorem hostWrite_cases (s : State) (tgt : Target) (v : Word) :
    s.hostWrite tgt v = s.flagWbusy
      ∨ ((s.status.busy = false ∨ tgt.busyProtected = false) ∧ s.hostWrite tgt v = s.writeTarget v tgt) := by
  unfold State.hostWrite
  split
  · exact .inl rfl
  · rename_i h
    exact .inr ⟨by simpa [imp_iff_not_or] using h, rfl⟩

end Sys2Proof.Machine
end

section
/-! PROOFS. The invariant (00_scope.md R8, 10_state.md R46, R52 to R55, 44_control.md R261 to R263, 60_exceptions.md R301): it holds right after reset, and each operation a step is made of keeps it. -/

namespace Sys2Proof.Machine

/-! What the parts of the invariant ask. -/

theorem runningAccepted_of_idle {s : State} (hb : s.status.busy = false) : s.runningAccepted = true := by
  simp [State.runningAccepted, hb]

/-- In a safe state the word in CUR of a busy block is a command whose checks pass. -/
theorem Inv.runningCommand {s : State} (h : Inv s) (hb : s.status.busy = true) :
    ∃ i, decode s.cur = .ok i ∧ checks s i = .none := by
  have hrun := h.running
  simp only [State.runningAccepted, hb, Bool.not_true, Bool.false_or, beq_iff_eq] at hrun
  exact wordChecks_none hrun

/-- Acknowledging ERR clears its description with it (60_exceptions.md R306). -/
theorem described_clear {st : Status} (h : st.described = true) (v : Word) : (st.clear v).described = true := by
  unfold Status.described Status.clear at *
  cases hv : v.getLsbD 2
  · simpa [hv] using h
  · simp

/-- A rejection describes the first error by its code and leaves a described one alone (60_exceptions.md R305). -/
theorem described_reject {st : Status} (h : st.described = true) {code : ErrCode} (hc : code ≠ .none) (w : Word) :
    (st.reject code w).described = true := by
  unfold Status.reject
  split
  · exact h
  · cases code
    case none => contradiction
    all_goals rfl

/-- A command's checks pass when it is well formed and each check of its own passes (60_exceptions.md R302, R303). -/
theorem checks_none_iff {i : Instr} {s : State} :
    checks s i = .none ↔ i.wf = true ∧ ∀ e ∈ commandChecks s i, e.1 = false := by
  have hcodes : ∀ e ∈ (!i.wf, .reserved) :: commandChecks s i, e.2 ≠ .none := by
    cases i <;> simp [commandChecks]
  rw [checks, firstFailing_none hcodes]
  simp

/-- LASTCNT counts positions below a checked length (10_state.md R46, 43_metrics.md R230). -/
theorem lastcnt_effectOf_le {i : Instr} {s : State} (hc : checks s i = .none) (h : s.lastcnt.toNat ≤ s.cfg.nbMax) :
    (effectOf i s).lastcnt.toNat ≤ s.cfg.nbMax := by
  cases i
  case countErr rsvd =>
    obtain ⟨-, hpass⟩ := checks_none_iff.mp hc
    have hlen : lengthOf s.txbLen ≤ s.cfg.nbMax := exceeds_eq_false.mp (hpass (_, .range) (.head _))
    calc (effectOf (.countErr rsvd) s).lastcnt.toNat ≤ s.mismatches (lengthOf s.txbLen) := by
          rw [effectOf, countErrEffect, BitVec.toNat_ofNat]
          exact Nat.mod_le _ _
      _ ≤ lengthOf s.txbLen := by simpa [State.mismatches] using List.countP_le_length (l := List.range _)
      _ ≤ s.cfg.nbMax := hlen
  case genbits => simpa [effectOf, genbitsEffect] using h
  all_goals exact h

/-! The resets. -/

theorem inv_powerUp {p : Params} (hp : p.legal = true) (d : Nat) : Inv (State.powerUp p d) where
  params := hp
  buffers := wf_powerUp p d
  running := rfl
  errors := rfl
  lastcnt := Nat.zero_le _
  drawn := Nat.lt_succ_self d

/-- Settles O14: reset is the power-up state of the standard parameters. -/
theorem invHoldsAtReset : Obligations.InvHoldsAtReset := inv_powerUp (by decide) 0

theorem inv_releaseReset {s : State} (h : Inv s) : Inv s.releaseReset := by
  unfold State.releaseReset
  split
  · exact { inv_powerUp h.params s.draws with }
  · exact h

theorem inv_clearRegisters {s : State} (hp : s.cfg.legal = true) (hm : s.mem.wf s.cfg = true)
    (hd : s.epoch < s.draws) : Inv s.clearRegisters where
  params := hp
  buffers := hm
  running := rfl
  errors := rfl
  lastcnt := Nat.zero_le _
  drawn := hd

/-- The write set of an abandoned command lies inside the buffers, because its checks pass (70_reset_and_hazards.md R343). -/
theorem inv_softReset {s : State} (h : Inv s) : Inv s.softReset := by
  unfold State.softReset
  split
  · rename_i hb
    obtain ⟨i, hi, hc⟩ := h.runningCommand hb
    obtain ⟨htxb, hrxb, htxs, hrxs⟩ := writeSet_fits hc
    have hd := h.drawn
    rw [runningWriteSet_busy hb hi]
    apply inv_clearRegisters
    · rw [abandon_cfg]
      exact h.params
    · rw [abandon_cfg]
      exact wf_abandon h.buffers htxb hrxb htxs hrxs
    · rw [abandon_epoch, abandon_draws]
      omega
  · exact inv_clearRegisters h.params h.buffers h.drawn

/-! The engine. -/

theorem inv_complete_effectOf {i : Instr} {s : State} (h : Inv s) (hc : checks s i = .none) :
    Inv (effectOf i s).complete := by
  obtain ⟨hcfg, -, -, -, -, -, -, -, -, hdraws, hepoch⟩ := effectOf_frame i s
  obtain ⟨n, a, hstatus⟩ := effectOf_status i s
  have hdrawn := h.drawn
  constructor
  · rw [complete_cfg, hcfg]
    exact h.params
  · rw [complete_cfg, hcfg, complete_mem]
    exact wf_effectOf hc h.buffers
  · exact runningAccepted_of_idle rfl
  · rw [complete_status, hstatus]
    exact h.errors
  · rw [complete_cfg, hcfg, complete_lastcnt]
    exact lastcnt_effectOf_le hc h.lastcnt
  · rw [complete_epoch, complete_draws, hepoch, hdraws]
    omega

theorem inv_engineTurn {s t : State} (h : Inv s) (ht : engineTurn s = .next t) : Inv t := by
  rcases engineTurn_cases ht with ⟨-, rfl⟩ | ⟨-, hb, i, hi, he⟩
  · exact h
  · obtain ⟨j, hj, hc⟩ := h.runningCommand hb
    obtain rfl : i = j := Except.ok.inj (hi.symm.trans hj)
    rw [exec_of_none hc] at he
    injection he with he
    exact he ▸ inv_complete_effectOf h hc

/-! The host. -/

theorem inv_reject {s : State} (h : Inv s) {code : ErrCode} (hc : code ≠ .none) (w : Word) :
    Inv (s.reject code w) where
  params := h.params
  buffers := h.buffers
  running := by
    have hbusy : (s.reject code w).status.busy = s.status.busy := by
      rw [reject_status, Status.reject]
      split <;> rfl
    rw [State.runningAccepted, hbusy]
    exact h.running
  errors := described_reject h.errors hc w
  lastcnt := h.lastcnt
  drawn := h.drawn

theorem inv_issue {s : State} (h : Inv s) (w : Word) : Inv (s.issue w) := by
  rcases issue_cases s w with ⟨-, e⟩ | ⟨-, hc, e⟩ | ⟨-, hc, e⟩ <;> rw [e]
  · exact inv_reject h (by decide) w
  · have haccepted : wordChecks (s.accept w) w = .none := hc
    exact ⟨h.params, h.buffers, by simp [State.runningAccepted, haccepted], h.errors, h.lastcnt, h.drawn⟩
  · exact inv_reject h hc w

/-- Busy protection keeps the length registers of a running command as its checks read them (44_control.md R268). -/
theorem inv_writeReg {s : State} (h : Inv s) (v : Word) {r : Reg}
    (hopen : s.status.busy = false ∨ r.busyProtected = false) : Inv (s.writeReg v r) := by
  cases r
  case ctrl =>
    rw [State.writeReg]
    split
    · exact inv_softReset h
    · exact h
  case cmd => exact inv_issue h v
  case status => exact ⟨h.params, h.buffers, h.running, described_clear h.errors v, h.lastcnt, h.drawn⟩
  case irqEn => exact ⟨h.params, h.buffers, h.running, h.errors, h.lastcnt, h.drawn⟩
  case txbLen | txsLen | rxsLen | rxbLen | phaseLo | phaseHi | snrLo | snrHi | ebnoLo | ebnoHi | seedLo | seedHi =>
    have hidle : s.status.busy = false := by simpa [Reg.busyProtected] using hopen
    exact ⟨h.params, h.buffers, runningAccepted_of_idle hidle, h.errors, h.lastcnt, h.drawn⟩
  all_goals exact h

theorem Inv.of_mem_changed {s t : State} (h : Inv s) (hidle : s.status.busy = false) (hmem : t.mem.wf s.cfg = true)
    (ht : t = { s with mem := t.mem }) : Inv t := by
  rw [ht]
  exact ⟨h.params, hmem, runningAccepted_of_idle hidle, h.errors, h.lastcnt, h.drawn⟩

/-- The words of a window lie inside its buffer (20_memory.md R84, R86). -/
theorem inv_hostWrite_targetAt {s : State} (h : Inv s) (off : Nat) (v : Word) :
    Inv (s.hostWrite (targetAt s.cfg off) v) := by
  rcases hostWrite_cases s (targetAt s.cfg off) v with e | ⟨hopen, e⟩ <;> rw [e]
  · exact ⟨h.params, h.buffers, h.running, h.errors, h.lastcnt, h.drawn⟩
  rcases targetAt_cases s.cfg off with ⟨r, e⟩ | e | ⟨b, j, hj, e⟩ | ⟨b, j, hj, e⟩ <;> rw [e] at hopen ⊢
  · exact inv_writeReg h v hopen
  · exact h
  · have hidle : s.status.busy = false := by simpa [Target.busyProtected] using hopen
    exact h.of_mem_changed hidle (wf_putBits b _ _ h.buffers (by rw [wordBits_length]; omega)) (by cases b <;> rfl)
  · have hidle : s.status.busy = false := by simpa [Target.busyProtected] using hopen
    exact h.of_mem_changed hidle (wf_putWords b _ _ h.buffers (by simpa using hj)) (by cases b <;> rfl)

theorem inv_transact {s : State} (h : Inv s) (tr : Transaction) : Inv (s.transact tr) := by
  rcases transact_write_cases s tr with ⟨r, d, e, hd⟩ | ⟨off, v, -, e⟩ <;> rw [e]
  · exact ⟨h.params, h.buffers, h.running, h.errors, h.lastcnt, h.drawn.trans_le hd⟩
  · exact { inv_hostWrite_targetAt h off v with }

/-- Settles O15: the engine's turn, a transaction and the two reset events each keep the invariant, which does not read the events to come. -/
theorem stepKeepsInv : Obligations.StepKeepsInv := by
  intro s t h hstep
  have hturned : Inv s.turned := { h with }
  rcases step_event_cases hstep with ⟨-, he⟩ | ⟨tr, -, rfl⟩ | ⟨-, rfl⟩ | ⟨-, rfl⟩
  · exact inv_engineTurn hturned he
  · exact inv_transact hturned tr
  · exact { hturned with }
  · exact inv_releaseReset hturned

end Sys2Proof.Machine
end

section
/-! PROOFS. What changes STATUS (10_state.md R36, R57): the engine's turn sets flags and clears BUSY, a transaction changes it only by a stopped write and by a write to CMD, STATUS or CTRL, and of those only an acknowledgement and a soft reset clear a sticky flag. -/

namespace Sys2Proof.Machine

/-! Everything that can change STATUS. -/

/-- A soft reset clears STATUS, running command or not (70_reset_and_hazards.md R342). -/
@[simp] theorem softReset_status (s : State) : s.softReset.status = Status.zero := by
  unfold State.softReset
  split <;> rfl

theorem writeCtrl_status (s : State) {v : Word} (hv : v.getLsbD 0 = true) :
    (s.writeTarget v (.reg .ctrl)).status = Status.zero := by
  rw [State.writeTarget, State.writeReg, if_pos hv, softReset_status]

/-- A write that reaches its target leaves STATUS alone, but for the registers CMD, STATUS and CTRL. -/
theorem writeTarget_status_cases (s : State) (v : Word) (tgt : Target) :
    (s.writeTarget v tgt).status = s.status ∨ tgt = .reg .cmd ∨ tgt = .reg .status
      ∨ tgt = .reg .ctrl ∧ v.getLsbD 0 = true := by
  cases tgt with
  | bitWord b j => exact .inl (putBits_status s b _ _)
  | symWord b j => exact .inl (putWords_status s b _ _)
  | reserved => exact .inl rfl
  | reg r =>
    cases r
    case cmd => exact .inr (.inl rfl)
    case status => exact .inr (.inr (.inl rfl))
    case ctrl =>
      by_cases hv : v.getLsbD 0 = true
      · exact .inr (.inr (.inr ⟨rfl, hv⟩))
      · exact .inl (by rw [State.writeTarget, State.writeReg, if_neg hv])
    all_goals exact .inl rfl

/-- Everything a transaction can do to STATUS. -/
theorem transact_status_cases (s : State) (tr : Transaction) :
    (s.transact tr).status = s.status
      ∨ (s.transact tr).status = { s.status with wbusy := true }
      ∨ (∃ v, tr = .write 4 (s.cfg.base + 0x014) v
          ∧ s.transact tr = { s.issue v with resp := .some ⟨true, 0#32⟩ })
      ∨ (∃ v, tr = .write 4 (s.cfg.base + 0x018) v ∧ (s.transact tr).status = s.status.clear v)
      ∨ ∃ v, tr = .write 4 (s.cfg.base + 0x010) v ∧ v.getLsbD 0 = true
          ∧ (s.transact tr).status = Status.zero := by
  rcases transact_write_cases s tr with ⟨r, d, e, -⟩ | ⟨off, v, htr, e⟩
  · exact .inl (by rw [e])
  rcases hostWrite_cases s (targetAt s.cfg off) v with hw | ⟨-, hw⟩ <;> rw [hw] at e
  · exact .inr (.inl (by rw [e]; rfl))
  rcases writeTarget_status_cases s v (targetAt s.cfg off) with h | h | h | ⟨h, hv⟩
  · exact .inl (by rw [e]; exact h)
  all_goals obtain rfl := eq_regOffset_of_targetAt h
  · exact .inr (.inr (.inl ⟨v, htr, by rw [e, h]; rfl⟩))
  · exact .inr (.inr (.inr (.inl ⟨v, htr, by rw [e, h]; rfl⟩)))
  · exact .inr (.inr (.inr (.inr ⟨v, htr, hv, by rw [e, h]; exact writeCtrl_status s hv⟩)))

/-- A rejection sets ERR or ERR_OVF and clears nothing. -/
theorem reject_flags (st : Status) (code : ErrCode) (w : Word) : ∃ e o c b, st.reject code w
    = { st with err := st.err || e, errOvf := st.errOvf || o, errcode := c, errcmd := b } := by
  unfold Status.reject
  split
  · exact ⟨false, true, st.errcode, st.errcmd, by simp⟩
  · exact ⟨true, false, code.code, w.extractLsb' 0 8, by simp⟩

/-! The sticky flags. -/

/-- The sticky flags with their bits of STATUS (R36, R57). -/
def stickyFlags : List (Nat × (Status → Bool)) :=
  [(1, Status.done), (2, Status.err), (3, Status.errOvf), (4, Status.numerr), (5, Status.accOvf), (6, Status.wbusy)]

/-- No sticky flag of `a` is clear in `b`. -/
def Status.KeepsFlags (a b : Status) : Prop := ∀ e ∈ stickyFlags, e.2 a = true → e.2 b = true

theorem keepsFlags_refl (a : Status) : a.KeepsFlags a := fun _ _ h => h

theorem keepsFlags_iff (a b : Status) : a.KeepsFlags b ↔ (a.done = true → b.done = true)
    ∧ (a.err = true → b.err = true) ∧ (a.errOvf = true → b.errOvf = true) ∧ (a.numerr = true → b.numerr = true)
    ∧ (a.accOvf = true → b.accOvf = true) ∧ (a.wbusy = true → b.wbusy = true) := by
  simp [Status.KeepsFlags, stickyFlags]

theorem keepsFlags_reject (st : Status) (code : ErrCode) (w : Word) : st.KeepsFlags (st.reject code w) := by
  obtain ⟨e, o, c, b, h⟩ := reject_flags st code w
  rw [h, keepsFlags_iff]
  simp +contextual

theorem keepsFlags_issue (s : State) (w : Word) : s.status.KeepsFlags (s.issue w).status := by
  rcases issue_cases s w with ⟨-, e⟩ | ⟨-, -, e⟩ | ⟨-, -, e⟩ <;> rw [e]
  · exact keepsFlags_reject _ _ _
  · rw [accept_status, keepsFlags_iff]
    simp
  · exact keepsFlags_reject _ _ _

theorem keepsFlags_exec {i : Instr} {s t : State} (h : exec i s = .next t) : s.status.KeepsFlags t.status := by
  rcases exec_cases h with ⟨-, rfl⟩ | ⟨-, rfl⟩
  · obtain ⟨n, a, hstatus⟩ := effectOf_status i s
    rw [complete_status, hstatus, keepsFlags_iff]
    simp +contextual
  · exact keepsFlags_reject _ _ _

theorem keepsFlags_engineTurn {s t : State} (h : engineTurn s = .next t) : s.status.KeepsFlags t.status := by
  rcases engineTurn_cases h with ⟨-, rfl⟩ | ⟨-, -, i, -, he⟩
  · exact keepsFlags_refl _
  · exact keepsFlags_exec he

/-- An acknowledgement clears the flags whose bit it writes as 1, and no other (R36). -/
theorem clear_flag (st : Status) (v : Word) :
    ∀ e ∈ stickyFlags, e.2 (st.clear v) = (e.2 st && !v.getLsbD e.1) := by
  simp [stickyFlags, Status.clear]

/-- A transaction clears a sticky flag only by a word write of 1 to its bit of STATUS, or by a soft reset. -/
theorem transact_clears_flag {s : State} {tr : Transaction} {e : Nat × (Status → Bool)} (he : e ∈ stickyFlags)
    (hset : e.2 s.status = true) (hclear : e.2 (s.transact tr).status = false) :
    ∃ addr v, tr = .write 4 addr v ∧ (addr = s.cfg.base + 0x018 ∧ v.getLsbD e.1 = true
      ∨ addr = s.cfg.base + 0x010 ∧ v.getLsbD 0 = true) := by
  have hkeeps : ¬ s.status.KeepsFlags (s.transact tr).status := fun h => by simp [h e he hset] at hclear
  rcases transact_status_cases s tr with h | h | ⟨v, -, h⟩ | ⟨v, htr, h⟩ | ⟨v, htr, hv, -⟩
  · exact absurd (h ▸ keepsFlags_refl s.status) hkeeps
  · exact absurd (by rw [h, keepsFlags_iff]; simp) hkeeps
  · exact absurd (by rw [h]; exact keepsFlags_issue s v) hkeeps
  · rw [h, clear_flag _ _ _ he, hset] at hclear
    exact ⟨_, v, htr, .inl ⟨rfl, by simpa using hclear⟩⟩
  · exact ⟨_, v, htr, .inr ⟨rfl, hv⟩⟩

/-- Settles O18: no event but a transaction and the release of the reset input clears a sticky flag. -/
theorem flagsAreSticky : Obligations.FlagsAreSticky := by
  intro s t hstep e he hset hclear
  rcases step_event_cases hstep with ⟨-, h⟩ | ⟨tr, hin, rfl⟩ | ⟨-, rfl⟩ | ⟨hin, -⟩
  · have hkept := keepsFlags_engineTurn h e he hset
    simp [hkept] at hclear
  · obtain ⟨addr, v, rfl, hv⟩ := transact_clears_flag he (s := s.turned) hset hclear
    exact .inr ⟨addr, v, hin, hv⟩
  · exact nomatch hset.symm.trans hclear
  · exact .inl hin

/-! BUSY. -/

theorem reject_busy (st : Status) (code : ErrCode) (w : Word) : (st.reject code w).busy = st.busy := by
  obtain ⟨e, o, c, b, h⟩ := reject_flags st code w
  rw [h]

/-- An issue never clears BUSY, and sets it only by accepting the word (44_control.md R261). -/
theorem issue_busy (s : State) (w : Word) : (s.issue w).status.busy = s.status.busy
    ∨ wordChecks s w = .none ∧ s.issue w = s.accept w := by
  rcases issue_cases s w with ⟨-, e⟩ | ⟨-, hc, e⟩ | ⟨-, -, e⟩ <;> rw [e]
  · exact .inl (reject_busy _ _ _)
  · exact .inr ⟨hc, rfl⟩
  · exact .inl (reject_busy _ _ _)

/-- The engine never sets BUSY: a completion clears it, a rejection keeps it. -/
theorem exec_busy {i : Instr} {s t : State} (h : exec i s = .next t) :
    t.status.busy = true → s.status.busy = true := by
  rcases exec_cases h with ⟨-, rfl⟩ | ⟨-, rfl⟩
  · simp
  · rw [reject_status, reject_busy]
    exact id

theorem engineTurn_busy {s t : State} (h : engineTurn s = .next t) :
    t.status.busy = true → s.status.busy = true := by
  rcases engineTurn_cases h with ⟨-, rfl⟩ | ⟨-, -, i, -, he⟩
  · exact id
  · exact exec_busy he

theorem releaseReset_busy (s : State) : s.releaseReset.status.busy = true → s.status.busy = true := by
  unfold State.releaseReset
  split
  · exact fun h => nomatch h
  · exact id

/-- A transaction keeps BUSY, unless it is a CMD write that is accepted or a soft reset. -/
theorem transact_busy_cases (s : State) (tr : Transaction) : (s.transact tr).status.busy = s.status.busy
    ∨ (∃ v, tr = .write 4 (s.cfg.base + 0x014) v ∧ wordChecks s v = .none
        ∧ (s.transact tr).status.busy = true ∧ (s.transact tr).cur = v)
    ∨ ∃ v, tr = .write 4 (s.cfg.base + 0x010) v ∧ v.getLsbD 0 = true ∧ (s.transact tr).status.busy = false := by
  rcases transact_status_cases s tr with h | h | ⟨v, htr, h⟩ | ⟨v, -, h⟩ | ⟨v, htr, hv, h⟩ <;> rw [h]
  · exact .inl rfl
  · exact .inl rfl
  · rcases issue_busy s v with hbusy | ⟨hc, hissue⟩
    · exact .inl hbusy
    · exact .inr (.inl ⟨v, htr, hc, by simp [hissue]⟩)
  · exact .inl rfl
  · exact .inr (.inr ⟨v, htr, hv, rfl⟩)

/-- Settles O19: the one transaction that sets BUSY accepts its word, the one that clears it is a soft reset; else only the engine and the release of the reset input clear it. -/
theorem busyIsTheEngines : Obligations.BusyIsTheEngines := by
  intro s t hstep
  have hturned : s.turned.status.busy = s.status.busy := rfl
  rcases step_event_cases hstep with ⟨hnext, h⟩ | ⟨tr, hin, rfl⟩ | ⟨-, rfl⟩ | ⟨hin, rfl⟩
  · exact ⟨fun hidle hset => (nomatch hidle.symm.trans (hturned.symm.trans (engineTurn_busy h hset))),
      fun _ _ => .inl hnext⟩
  · rcases transact_busy_cases s.turned tr with h | ⟨v, rfl, hc, hset, hcur⟩ | ⟨v, rfl, hv, hclear⟩
    · rw [h, hturned]
      cases s.status.busy <;> simp
    · exact ⟨fun _ _ => ⟨v, hin, hc, hcur⟩, fun _ hclear => (nomatch hset.symm.trans hclear)⟩
    · exact ⟨fun _ hset => (nomatch hclear.symm.trans hset), fun _ _ => .inr (.inr ⟨v, hin, hv⟩)⟩
  · rw [assertReset_status, hturned]
    cases s.status.busy <;> simp
  · exact ⟨fun hidle hset => (nomatch hidle.symm.trans (releaseReset_busy s.turned hset)), fun _ _ => .inr (.inl hin)⟩

end Sys2Proof.Machine
end

section
/-! PROOFS. The host's view of the registers: what each reads, what a write of each replaces, where nothing stands, and the acknowledgement and the soft reset (10_state.md R32 to R51, 20_memory.md R83 to R87, 44_control.md R268 to R270, 60_exceptions.md R306, 70_reset_and_hazards.md R342). -/

namespace Sys2Proof.Machine

/-! Reads and writes of registers. -/

/-- The registers in the order of their offsets (R51). -/
def registers : List Reg :=
  [.id, .version, .capBits, .capSyms, .ctrl, .cmd, .status, .irqEn, .txbLen, .txsLen, .rxsLen, .rxbLen,
    .phaseLo, .phaseHi, .snrLo, .snrHi, .ebnoLo, .ebnoHi, .seedLo, .seedHi, .rngLo, .rngHi, .errcntLo, .errcntHi,
    .bitcntLo, .bitcntHi, .lastcnt, .berLo, .berHi, .nscaleLo, .nscaleHi]

/-- Settles O47: the table lists the registers with their offsets and values, and an idle read answers the exact value. -/
theorem registersReadAtTheirOffsets : Obligations.RegistersReadAtTheirOffsets := by
  intro s hr hidle
  change ∀ e ∈ registers.map (fun r => (regOffset r, fun t : State => t.readReg r)),
    s.transact (.read 4 (s.cfg.base + e.1)) = { s with resp := .some ⟨true, e.2 s⟩ }
  rw [List.forall_mem_map]
  intro r _
  rw [read_register r hr, hostRead_idle hidle]
  rfl

/-- A write to a register that busy protection does not stop is the register's own. -/
theorem write_register_of_open {s : State} (v : Word) {r : Reg} (hr : s.inReset = false)
    (hopen : s.status.busy = false ∨ r.busyProtected = false) :
    s.transact (.write 4 (s.cfg.base + regOffset r) v) = { s.writeReg v r with resp := .some ⟨true, 0#32⟩ } := by
  rw [write_register v r hr, hostWrite_of_open v hopen]
  rfl

/-- The busy-protected RW registers in the order of their offsets (R51, R268). -/
def protectedRegisters : List Reg :=
  [.txbLen, .txsLen, .rxsLen, .rxbLen, .phaseLo, .phaseHi, .snrLo, .snrHi, .ebnoLo, .ebnoHi, .seedLo, .seedHi]

/-- Settles O48: IRQ_EN is not protected, and the table lists the protected registers with their offsets and what a write of each makes of the state. -/
theorem writesReplaceOneRegister : Obligations.WritesReplaceOneRegister := by
  intro s v hr
  refine ⟨write_register_of_open v (r := .irqEn) hr (.inr rfl), fun hidle => ?_⟩
  change ∀ e ∈ protectedRegisters.map (fun r => (regOffset r, s.writeReg v r)),
    s.transact (.write 4 (s.cfg.base + e.1) v) = { e.2 with resp := .some ⟨true, 0#32⟩ }
  rw [List.forall_mem_map]
  exact fun r _ => write_register_of_open v hr (.inl hidle)

/-! Places where nothing stands, and registers that take no write. -/

theorem bitTarget_of_le {p : Params} (b : BitBuf) {j : Nat} (h : p.nbMax / 32 ≤ j) : bitTarget p b j = .reserved :=
  if_neg (by rw [Nat.blt_eq]; omega)

theorem symTarget_of_le {p : Params} (b : SymBuf) {j : Nat} (h : 4 * p.nsMax ≤ j) : symTarget p b j = .reserved :=
  if_neg (by rw [Nat.blt_eq]; omega)

theorem targetAt_unassigned (p : Params) {off : Nat} (hlow : off < 0x010000) (h : regAt off = .none) :
    targetAt p off = .reserved := by
  rw [targetAt, if_pos (Nat.blt_eq.mpr hlow), h]

/-- The reserved places of the address map: unassigned offsets below 0x10000 (10_state.md R50), the reserved regions (R83), and the tails of the windows (R84 to R87). -/
theorem targetAt_reserved {p : Params} {off : Nat} (h4 : off % 4 = 0)
    (h : off = 0x06C ∨ 0x080 ≤ off ∧ off < 0x010000
      ∨ 0x020000 ≤ off ∧ off < 0x100000 ∨ 0x300000 ≤ off ∧ off < 0x400000
      ∨ 0x010000 + 4 * (p.nbMax / 32) ≤ off ∧ off < 0x018000
      ∨ 0x018000 + 4 * (p.nbMax / 32) ≤ off ∧ off < 0x020000
      ∨ 0x100000 + 16 * p.nsMax ≤ off ∧ off < 0x200000
      ∨ 0x200000 + 16 * p.nsMax ≤ off ∧ off < 0x300000) : targetAt p off = .reserved := by
  have hbit : ∀ b, bitWindow b + 4 * (p.nbMax / 32) ≤ off → off < bitWindow b + 0x8000 →
      targetAt p off = .reserved := fun b hlo hhi => by
    rw [show off = bitWindow b + 4 * ((off - bitWindow b) / 4) by cases b <;> simp only [bitWindow] at * <;> omega,
      targetAt_bitWindow p b (by omega), bitTarget_of_le b (by omega)]
  have hsym : ∀ b, symWindow b + 16 * p.nsMax ≤ off → off < symWindow b + 0x100000 →
      targetAt p off = .reserved := fun b hlo hhi => by
    rw [show off = symWindow b + 4 * ((off - symWindow b) / 4) by cases b <;> simp only [symWindow] at * <;> omega,
      targetAt_symWindow p b (by omega), symTarget_of_le b (by omega)]
  rcases h with rfl | ⟨hlo, hhi⟩ | ⟨hlo, hhi⟩ | ⟨hlo, hhi⟩ | ⟨hlo, hhi⟩ | ⟨hlo, hhi⟩ | ⟨hlo, hhi⟩ | ⟨hlo, hhi⟩
  · rfl
  · exact targetAt_unassigned p hhi (regAt_none hlo)
  · simp only [targetAt, Nat.blt_eq]
    rw [if_neg (by omega), if_neg (by omega), if_neg (by omega), if_pos (by omega)]
  · simp only [targetAt, Nat.blt_eq]
    rw [if_neg (by omega), if_neg (by omega), if_neg (by omega), if_neg (by omega), if_neg (by omega),
      if_neg (by omega)]
  · exact hbit .txb hlo hhi
  · exact hbit .rxb hlo hhi
  · exact hsym .txs hlo hhi
  · exact hsym .rxs hlo hhi

theorem hostWrite_readOnly {s : State} (v : Word) {r : Reg}
    (hr : regOffset r < 0x010 ∨ 0x050 ≤ regOffset r) : s.hostWrite (.reg r) v = s := by
  cases r
  case ctrl | cmd | status | irqEn | txbLen | txsLen | rxsLen | rxbLen | phaseLo | phaseHi | snrLo | snrHi | ebnoLo
    | ebnoHi | seedLo | seedHi => exact absurd hr (by decide)
  all_goals exact hostWrite_of_open v (.inr rfl)

/-- Settles O49: a reserved place and a read-only register keep the state, busy or not. -/
theorem reservedOffsetsReadZeroAndIgnoreWrites : Obligations.ReservedOffsetsReadZeroAndIgnoreWrites := by
  intro s off v hr h4
  refine ⟨fun h => ?_, fun h => ?_⟩
  · have htgt := targetAt_reserved (p := s.cfg) h4 h
    rw [read_at hr (by omega) h4, write_at v hr (by omega) h4, htgt, hostRead_reserved, hostWrite_reserved]
    exact ⟨rfl, rfl⟩
  · rw [write_at v hr (by omega) h4]
    cases hreg : regAt off with
    | none => rw [targetAt_unassigned s.cfg (by omega) hreg, hostWrite_reserved]
    | some r =>
      obtain rfl := regAt_offset hreg
      rw [targetAt_regOffset, hostWrite_readOnly v (by omega)]

/-! STATUS and CTRL. -/

/-- Settles O55: STATUS is not protected, and its write is the acknowledgement, bit by bit. -/
theorem statusWritesClearWhatTheyName : Obligations.StatusWritesClearWhatTheyName := by
  intro s v hr
  have hbit : ∀ flag written : Bool, (if written = true then false else flag) = (flag && !written) := by decide
  simp only [hbit]
  exact write_register_of_open v (r := .status) hr (.inr rfl)

/-- Settles O58: CTRL is not protected, its bit 0 asks for the soft reset, and a soft reset while idle clears the registers alone. -/
theorem softResetKeepsGeneratorAndBuffers : Obligations.SoftResetKeepsGeneratorAndBuffers := by
  intro s v hr
  have hwrite := write_register_of_open v (r := .ctrl) hr (.inr rfl)
  rw [State.writeReg] at hwrite
  refine ⟨fun hv hidle => ?_, fun hv => ?_⟩
  · rw [if_pos hv, State.softReset, if_neg (by rw [hidle]; decide)] at hwrite
    exact hwrite
  · rwa [if_neg (by rw [hv]; decide)] at hwrite

/-- The fields of STATUS one after the other (R36), at the width that is the sum of theirs. -/
abbrev Status.fields (st : Status) :=
  0#8 ++ st.errcmd ++ 0#4 ++ st.errcode ++ 0#1 ++ BitVec.ofBool st.wbusy ++ BitVec.ofBool st.accOvf
    ++ BitVec.ofBool st.numerr ++ BitVec.ofBool st.errOvf ++ BitVec.ofBool st.err
    ++ BitVec.ofBool st.done ++ BitVec.ofBool st.busy

theorem word_getLsbD (st : Status) (i : Nat) : st.word.getLsbD i = st.fields.getLsbD i := rfl

theorem word_extractLsb' (st : Status) (lo len : Nat) :
    st.word.extractLsb' lo len = st.fields.extractLsb' lo len := rfl

/-- Settles O56: a bit or a field is looked up past the fields below it. The widths stay sums, so that each is the part of a concatenation. -/
theorem statusWordLayout : Obligations.StatusWordLayout := by
  intro st
  simp only [word_getLsbD, word_extractLsb', Status.fields]
  simp [BitVec.getLsbD_append, BitVec.extractLsb'_append_eq_of_le, BitVec.extractLsb'_append_eq_of_add_le,
    -BitVec.getLsbD_eq_getElem, -Nat.reduceAdd]

end Sys2Proof.Machine
end

section
/-! PROOFS. The host's view of the address space: transactions that are not legal, fetches, reads, and the windows of the four buffers (20_memory.md R82 to R91, 44_control.md R269, R270). -/

namespace Sys2Proof.Machine

/-! Any transaction. -/

/-- Settles O46: an illegal access ends in the ERROR branch, and a fetch is served as a read. -/
theorem illegalTransactionsChangeNothing : Obligations.IllegalTransactionsChangeNothing := by
  intro s t off hr haddr hoff
  refine ⟨fun hillegal => ?_, rfl⟩
  have hacc : ¬ legalAccess t.size off = true := by
    simpa [legalAccess, ← not_and_or] using hillegal
  rw [transact_at hr haddr hoff, if_neg hacc]

/-- Settles O53: a read is not answered, answered ERROR, or a host read of its target, which draws only in a running command's write set. -/
theorem readsHaveNoSideEffect : Obligations.ReadsHaveNoSideEffect := by
  intro s size addr
  rcases transact_cases s (.read size addr) with h | h | ⟨-, off, -, -, h⟩
  · exact ⟨_, s.draws, h, fun _ => rfl⟩
  · exact ⟨_, s.draws, h, fun _ => rfl⟩
  · exact ⟨_, _, h, fun hidle => if_pos (by rw [drawnBits_idle hidle, beq_self_eq_true])⟩

/-! A word of a window while idle. -/

section window
variable {s : State} {off : Nat} {tgt : Target} (v : Word) (hr : s.inReset = false) (hidle : s.status.busy = false)
  (hoff : off < 0x400000) (h4 : off % 4 = 0) (htgt : targetAt s.cfg off = tgt)
include hr hidle hoff h4 htgt

theorem read_at_idle :
    s.transact (.read 4 (s.cfg.base + off)) = { s with resp := .some ⟨true, s.exactRead tgt⟩ } := by
  rw [read_at hr hoff h4, hostRead_idle hidle, htgt]

theorem write_at_idle :
    s.transact (.write 4 (s.cfg.base + off) v) = { s.writeTarget v tgt with resp := .some ⟨true, 0#32⟩ } := by
  rw [write_at v hr hoff h4, hostWrite_of_open v (.inl hidle), htgt]

end window

/-- A write outside the registers changes the buffers alone. -/
theorem writeTarget_eq_mem (s : State) (v : Word) {tgt : Target} (hreg : ∀ r, tgt ≠ .reg r) :
    ∃ m, s.writeTarget v tgt = { s with mem := m } := by
  cases tgt with
  | reg r => exact absurd rfl (hreg r)
  | bitWord b j => cases b <;> exact ⟨_, rfl⟩
  | symWord b j => cases b <;> exact ⟨_, rfl⟩
  | reserved => exact ⟨_, rfl⟩

/-- A word write outside the registers leaves the block as it was but for the buffers and the answer, and a read of the same place then answers the word where the place holds it. -/
theorem write_then_read {s t : State} {off : Nat} {v : Word} {tgt : Target} (hr : s.inReset = false)
    (hidle : s.status.busy = false) (hoff : off < 0x400000) (h4 : off % 4 = 0) (htgt : targetAt s.cfg off = tgt)
    (hreg : ∀ r, tgt ≠ .reg r) (ht : { s.writeTarget v tgt with resp := .some ⟨true, 0#32⟩ } = t)
    (hval : t.exactRead tgt = v) :
    t = { s with mem := t.mem, resp := .some ⟨true, 0#32⟩ }
      ∧ (t.transact (.read 4 (s.cfg.base + off))).resp = .some ⟨true, v⟩ := by
  obtain ⟨m, hm⟩ := writeTarget_eq_mem s v hreg
  rw [hm] at ht
  subst ht
  refine ⟨rfl, ?_⟩
  rw [read_at_idle (s := { s with mem := m, resp := .some ⟨true, 0#32⟩ }) hr hidle hoff h4 htgt, hval]

/-! Bit windows. -/

theorem bitTarget_of_lt {p : Params} (b : BitBuf) {j : Nat} (h : j < p.nbMax / 32) :
    bitTarget p b j = .bitWord b j :=
  if_pos (Nat.blt_eq.mpr h)

theorem bitWindow_add_lt (b : BitBuf) {j : Nat} (h : j < 8192) : bitWindow b + 4 * j < 0x400000 := by
  cases b <;> simp only [bitWindow] <;> omega

theorem bitWindow_add_mod (b : BitBuf) (j : Nat) : (bitWindow b + 4 * j) % 4 = 0 := by
  cases b <;> simp only [bitWindow] <;> omega

theorem eq_bitWindow_of_mem {b : BitBuf} {base : Nat}
    (h : (b, base) ∈ ([(.txb, 0x010000), (.rxb, 0x018000)] : List (BitBuf × Nat))) : base = bitWindow b := by
  cases b <;> simpa [bitWindow] using h

/-- A window word is its buffer's 32 bits, bit i of the word being element 32j + i (R84). -/
theorem bit_writeBitWord (s : State) (b b' : BitBuf) (j : Nat) (v : Word) (i : Nat) :
    (s.writeTarget v (.bitWord b j)).bit b' i
      = if b' = b ∧ i / 32 = j then v.getLsbD (i % 32) else s.bit b' i := by
  have hin : (32 * j ≤ i ∧ i < 32 * j + (wordBits v).length) ↔ i / 32 = j := by
    rw [wordBits_length]
    omega
  rw [State.writeTarget, bit_putBits]
  refine if_ctx_congr (and_congr_right' hin) (fun ⟨_, hj⟩ => ?_) (fun _ => rfl)
  have hlt : i % 32 < 32 := by omega
  rw [show i - 32 * j = i % 32 by omega]
  simp [wordBits, hlt]

/-- A window word reads back as it was written. -/
theorem bitWord_writeBitWord (s : State) (b : BitBuf) (j : Nat) (v : Word) :
    (s.writeTarget v (.bitWord b j)).bitWord b j = v := by
  ext i hi
  rw [← BitVec.getLsbD_eq_getElem, bitWord_getLsbD _ _ _ hi, bit_writeBitWord, if_pos ⟨rfl, by omega⟩,
    show (32 * j + i) % 32 = i by omega, BitVec.getLsbD_eq_getElem]

/-- Settles O50: inside the capacity the word stands in the buffer, beyond it the place is reserved. -/
theorem bitWindowsPackThirtyTwoBits : Obligations.BitWindowsPackThirtyTwoBits := by
  intro s b base j v hr hidle _ hbase hj
  obtain rfl := eq_bitWindow_of_mem hbase
  have hoff := bitWindow_add_lt b hj
  have h4 := bitWindow_add_mod b j
  have htgt := targetAt_bitWindow s.cfg b hj
  by_cases hcap : j < s.cfg.nbMax / 32
  · rw [if_pos hcap]
    rw [bitTarget_of_lt b hcap] at htgt
    obtain ⟨hframe, hback⟩ := write_then_read hr hidle hoff h4 htgt (fun _ => Target.noConfusion) rfl
      (bitWord_writeBitWord s b j v)
    exact ⟨⟨_, read_at_idle hr hidle hoff h4 htgt, fun i hi => bitWord_getLsbD s b j hi⟩,
      _, write_at_idle v hr hidle hoff h4 htgt, hframe, fun b' i => bit_writeBitWord s b b' j v i,
      fun b' i => symWord_putBits s b _ _ b' i, hback⟩
  · rw [if_neg hcap]
    rw [bitTarget_of_le b (Nat.le_of_not_lt hcap)] at htgt
    exact ⟨write_at_idle v hr hidle hoff h4 htgt, read_at_idle hr hidle hoff h4 htgt⟩

/-! Symbol windows. -/

theorem symTarget_of_lt {p : Params} (b : SymBuf) {j : Nat} (h : j < 4 * p.nsMax) :
    symTarget p b j = .symWord b j :=
  if_pos (Nat.blt_eq.mpr h)

theorem symWindow_add_lt (b : SymBuf) {j : Nat} (h : j < 262144) : symWindow b + 4 * j < 0x400000 := by
  cases b <;> simp only [symWindow] <;> omega

theorem symWindow_add_mod (b : SymBuf) (j : Nat) : (symWindow b + 4 * j) % 4 = 0 := by
  cases b <;> simp only [symWindow] <;> omega

theorem eq_symWindow_of_mem {b : SymBuf} {base : Nat}
    (h : (b, base) ∈ ([(.txs, 0x100000), (.rxs, 0x200000)] : List (SymBuf × Nat))) : base = symWindow b := by
  cases b <;> simpa [symWindow] using h

/-- Part p of a symbol, in window order (R86). -/
def symPart (z : Symbol) (p : Nat) : Word :=
  if p = 0 then loHalf z.1 else if p = 1 then hiHalf z.1 else if p = 2 then loHalf z.2 else hiHalf z.2

/-- A symbol with part p replaced (R86). -/
def setSymPart (z : Symbol) (p : Nat) (v : Word) : Symbol :=
  if p = 0 then (setLo z.1 v, z.2) else if p = 1 then (setHi z.1 v, z.2)
  else if p = 2 then (z.1, setLo z.2 v) else (z.1, setHi z.2 v)

@[simp] theorem loHalf_append (hi lo : Word) : loHalf (hi ++ lo) = lo :=
  BitVec.extractLsb'_append_eq_right

@[simp] theorem hiHalf_append (hi lo : Word) : hiHalf (hi ++ lo) = hi :=
  BitVec.extractLsb'_append_eq_left

theorem symPart_sym (s : State) (b : SymBuf) (k : Nat) {p : Nat} (hp : p < 4) :
    symPart (s.sym b k) p = s.symWord b (4 * k + p) := by
  interval_cases p <;> simp [symPart, State.sym]

/-- A write of a storage word replaces that word alone. -/
theorem symWord_writeSymWord (s : State) (b b' : SymBuf) (j : Nat) (v : Word) (i : Nat) :
    (s.writeTarget v (.symWord b j)).symWord b' i = if b' = b ∧ i = j then v else s.symWord b' i := by
  have hin : (j ≤ i ∧ i < j + [v].length) ↔ i = j := by
    rw [List.length_singleton]
    omega
  rw [State.writeTarget, symWord_putWords]
  refine if_ctx_congr (and_congr_right' hin) (fun ⟨_, hj⟩ => ?_) (fun _ => rfl)
  simp [hj]

theorem symWord_writeSymWord_same (s : State) (b : SymBuf) (j : Nat) (v : Word) :
    (s.writeTarget v (.symWord b j)).symWord b j = v := by
  rw [symWord_writeSymWord, if_pos ⟨rfl, rfl⟩]

/-- A write of part p of a symbol replaces that part of it. -/
theorem sym_writeSymWord_same (s : State) (b : SymBuf) (k : Nat) {p : Nat} (hp : p < 4) (v : Word) :
    (s.writeTarget v (.symWord b (4 * k + p))).sym b k = setSymPart (s.sym b k) p v := by
  simp only [State.sym, symWord_writeSymWord]
  interval_cases p <;> simp [setSymPart, setLo, setHi]

/-- A write of part p of symbol k keeps every other symbol. -/
theorem sym_writeSymWord_other (s : State) {b b' : SymBuf} {k i p : Nat} (hp : p < 4) (v : Word)
    (h : b' ≠ b ∨ i ≠ k) : (s.writeTarget v (.symWord b (4 * k + p))).sym b' i = s.sym b' i := by
  have hword : ∀ j, j / 4 = i →
      (s.writeTarget v (.symWord b (4 * k + p))).symWord b' j = s.symWord b' j := fun j hj => by
    rw [symWord_writeSymWord, if_neg]
    rintro ⟨hb, rfl⟩
    exact h.elim (fun hne => hne hb) (fun hne => hne (by omega))
  simp only [State.sym]
  rw [hword _ (by omega), hword _ (by omega), hword _ (by omega), hword _ (by omega)]

/-- Settles O51: inside the capacity the part stands in the buffer, beyond it the place is reserved. -/
theorem symbolWindowsHoldFourWords : Obligations.SymbolWindowsHoldFourWords := by
  intro s b base k p v hr hidle _ hbase hk hp
  obtain rfl := eq_symWindow_of_mem hbase
  rw [show symWindow b + 16 * k + 4 * p = symWindow b + 4 * (4 * k + p) by omega]
  have hj : 4 * k + p < 262144 := by omega
  have hoff := symWindow_add_lt b hj
  have h4 := symWindow_add_mod b (4 * k + p)
  have htgt := targetAt_symWindow s.cfg b hj
  by_cases hcap : k < s.cfg.nsMax
  · rw [if_pos hcap]
    rw [symTarget_of_lt b (by omega)] at htgt
    obtain ⟨hframe, hback⟩ := write_then_read hr hidle hoff h4 htgt (fun _ => Target.noConfusion) rfl
      (symWord_writeSymWord_same s b _ v)
    have hread := read_at_idle hr hidle hoff h4 htgt
    rw [State.exactRead, ← symPart_sym s b k hp] at hread
    exact ⟨hread, _, write_at_idle v hr hidle hoff h4 htgt, hframe, fun b' i => bit_putWords s b _ _ b' i,
      fun b' i h => sym_writeSymWord_other s hp v h, sym_writeSymWord_same s b k hp v, hback⟩
  · rw [if_neg hcap]
    rw [symTarget_of_le b (by omega)] at htgt
    exact ⟨write_at_idle v hr hidle hoff h4 htgt, read_at_idle hr hidle hoff h4 htgt⟩

end Sys2Proof.Machine
end

section
/-! PROOFS. Encoding (30_encoding.md R110 to R117): decode and encode are inverse to each other, the words that decode are those with an assigned opcode, and an idle block rejects the others with ILLEGAL and the ill-formed ones with RESERVED. -/

namespace Sys2Proof

/-! Decoding what was encoded. -/

@[simp] theorem orderField_encode_convEbno (rsvd : BitVec 22) (ord : BitVec 2) :
    orderField (encode (.convEbno rsvd ord)) = ord :=
  (orderField_append _ _).trans (extract_append_low rsvd ord)

@[simp] theorem orderRsvdField_encode_convEbno (rsvd : BitVec 22) (ord : BitVec 2) :
    orderRsvdField (encode (.convEbno rsvd ord)) = rsvd :=
  (orderRsvdField_append _ _).trans ((extract_append_field rsvd ord 0 22).trans BitVec.extractLsb'_eq_self)

/-- The opcode selects the command's own row, and the fields of the row are its operands. -/
theorem decode_encode (i : Instr) : decode (encode i) = .ok i := by
  unfold decode
  rw [opcodeField_encode]
  cases i
  case convEbno rsvd ord =>
    simp only [Instr.opcode, orderRsvdField_encode_convEbno, orderField_encode_convEbno]
    rfl
  all_goals
    simp only [Instr.opcode, upperField_encode, Instr.upper]
    rfl

/-- Settles O1: each opcode selects its own row, which reads the operands where encode puts them. -/
theorem decodeOfEncode : Obligations.DecodeOfEncode := decode_encode

/-! Encoding what was decoded. -/

/-- A word is put together from the opcode and the upper field of the command it decodes to. -/
theorem fields_of_decode {w : Word} {i : Instr} (h : decode w = .ok i) :
    i.opcode = opcodeField w ∧ i.upper = upperField w := by
  unfold decode at h
  split at h
  case h_15 => nomatch h -- no row
  case h_9 hopc => -- CONV_EBNO, the row of format O
    obtain rfl := Except.ok.inj h
    exact ⟨(BitVec.eq_of_toNat_eq hopc).symm, orderRsvdField_append_orderField w⟩
  all_goals
    rename_i hopc
    obtain rfl := Except.ok.inj h
    exact ⟨(BitVec.eq_of_toNat_eq hopc).symm, rfl⟩

theorem encode_of_decode {w : Word} {i : Instr} (h : decode w = .ok i) : encode i = w := by
  obtain ⟨hopc, hupper⟩ := fields_of_decode h
  rw [encode, hopc, hupper, upperField_append_opcodeField]

/-- The four byte lanes of a word make the word again (R88). -/
theorem decodeBytes_bytesOfWord (w : Word) : decodeBytes (bytesOfWord w) = decode w := by
  have hword : wordOfBytes (w.extractLsb' 0 8) (w.extractLsb' 8 8) (w.extractLsb' 16 8) (w.extractLsb' 24 8)
      = w := by
    rw [wordOfBytes, append_fields w 16 8 8, append_fields w 8 8 16, append_fields w 0 8 24]
    exact BitVec.extractLsb'_eq_self
  rw [bytesOfWord, decodeBytes, hword]

/-- Settles O2: a decoded command keeps both fields of its word, and the byte lanes make the word again. -/
theorem encodeOfDecode : Obligations.EncodeOfDecode := fun w _ h =>
  ⟨encode_of_decode h, (decodeBytes_bytesOfWord w).trans h⟩

/-- Settles O3: each word's opcode selects its row, and its operand is read off the word. -/
theorem specWordsDecode : Obligations.SpecWordsDecode :=
  ⟨rfl, rfl, rfl, rfl, rfl, rfl, rfl, rfl⟩

/-! Which words decode, and which of those are well formed. -/

/-- The opcodes of format N (R111, R115). -/
def formatNOpcodes : List Byte :=
  [0x00#8, 0x01#8, 0x10#8, 0x11#8, 0x18#8, 0x19#8, 0x21#8, 0x22#8, 0x30#8, 0x31#8, 0x32#8]

/-- The assigned opcodes (R115). -/
def assignedOpcodes : List Byte :=
  [0x00#8, 0x01#8, 0x02#8, 0x03#8, 0x10#8, 0x11#8, 0x18#8, 0x19#8, 0x20#8, 0x21#8, 0x22#8, 0x30#8, 0x31#8, 0x32#8]

theorem opcode_mem_assigned (i : Instr) : i.opcode ∈ assignedOpcodes := by
  cases i <;> simp [Instr.opcode, assignedOpcodes]

theorem formatN_assigned : formatNOpcodes ⊆ assignedOpcodes := by decide

theorem formatO_assigned : 0x20#8 ∈ assignedOpcodes := by decide

/-- A word decodes exactly when its opcode is assigned (R115, R116). -/
theorem decodes_iff {w : Word} : (∃ i, decode w = .ok i) ↔ opcodeField w ∈ assignedOpcodes := by
  constructor
  · rintro ⟨i, h⟩
    obtain ⟨hopc, -⟩ := fields_of_decode h
    exact hopc ▸ opcode_mem_assigned i
  · intro h
    unfold decode
    generalize opcodeField w = o at h ⊢
    fin_cases h <;> exact ⟨_, rfl⟩

/-- A command of format N with a reserved bit set is ill-formed (R111, R117). -/
theorem wf_eq_false_of_formatN {i : Instr} (hn : i.opcode ∈ formatNOpcodes) (h : i.upper ≠ 0#24) :
    i.wf = false := by
  cases i
  case genbits | genNoise | convEbno => exact absurd hn (by simp [Instr.opcode, formatNOpcodes])
  all_goals exact beq_eq_false_iff_ne.mpr h

/-- A command of format O with a reserved bit set, or with ORD 00 or 11, is ill-formed (R113, R117). -/
theorem wf_eq_false_of_formatO {i : Instr} (ho : i.opcode = 0x20#8)
    (h : orderRsvdField (encode i) ≠ 0#22 ∨ orderField (encode i) = 0#2 ∨ orderField (encode i) = 3#2) :
    i.wf = false := by
  cases i
  case convEbno rsvd ord =>
    rw [orderRsvdField_encode_convEbno, orderField_encode_convEbno] at h
    rcases h with hrsvd | rfl | rfl
    · simp [Instr.wf, hrsvd]
    · exact Bool.and_false _
    · exact Bool.and_false _
  all_goals exact absurd ho (by simp [Instr.opcode])

theorem decodes_ill_formed_of_formatN {w : Word} (hn : opcodeField w ∈ formatNOpcodes) (h : upperField w ≠ 0#24) :
    ∃ i, decode w = .ok i ∧ i.wf = false := by
  obtain ⟨i, hd⟩ := decodes_iff.mpr (formatN_assigned hn)
  obtain ⟨hopc, hupper⟩ := fields_of_decode hd
  exact ⟨i, hd, wf_eq_false_of_formatN (hopc ▸ hn) (hupper ▸ h)⟩

theorem decodes_ill_formed_of_formatO {w : Word} (ho : opcodeField w = 0x20#8)
    (h : orderRsvdField w ≠ 0#22 ∨ orderField w = 0#2 ∨ orderField w = 3#2) :
    ∃ i, decode w = .ok i ∧ i.wf = false := by
  obtain ⟨i, hd⟩ := decodes_iff.mpr (ho ▸ formatO_assigned)
  obtain rfl := encode_of_decode hd
  exact ⟨i, hd, wf_eq_false_of_formatO ((opcodeField_encode i).symm.trans ho) h⟩

end Sys2Proof

namespace Sys2Proof.Machine

/-- An idle block rejects a word one of whose checks fails, with the code of the first (44_control.md R261). -/
theorem issue_of_ne {s : State} {w : Word} (hidle : s.status.busy = false) (hne : wordChecks s w ≠ .none) :
    s.issue w = s.reject (wordChecks s w) w := by
  rcases issue_cases s w with ⟨hb, -⟩ | ⟨-, hc, -⟩ | ⟨-, -, h⟩
  · exact absurd hb (by simp [hidle])
  · exact absurd hc hne
  · exact h

theorem wordChecks_encode (s : State) (i : Instr) : wordChecks s (encode i) = checks s i := by
  rw [wordChecks, decode_encode]

theorem wordChecks_unassigned (s : State) {w : Word} (h : opcodeField w ∉ assignedOpcodes) :
    wordChecks s w = .illegal := by
  unfold wordChecks
  split
  case h_1 i hd => exact absurd (decodes_iff.mp ⟨i, hd⟩) h
  case h_2 => rfl

/-- Reserved bits are checked before anything else of the command (60_exceptions.md R302). -/
theorem checks_ill_formed (s : State) {i : Instr} (h : i.wf = false) : checks s i = .reserved := by
  simp [checks, firstFailing, h]

/-- Settles O4: a word with an unassigned opcode does not decode, and ILLEGAL is the first check. -/
theorem unassignedOpcodesAreIllegal : Obligations.UnassignedOpcodesAreIllegal := by
  intro s w hidle hopc
  have hc := wordChecks_unassigned s hopc
  rw [issue_of_ne hidle (by simp [hc]), hc]

/-- Settles O5: the word decodes to an ill-formed command, and RESERVED is the first check of a command. -/
theorem reservedFieldsAreRejected : Obligations.ReservedFieldsAreRejected := by
  intro s w hidle hbad
  obtain ⟨i, hd, hwf⟩ : ∃ i, decode w = .ok i ∧ i.wf = false := by
    rcases hbad with ⟨hn, hrsvd⟩ | ⟨ho, hfields⟩
    · exact decodes_ill_formed_of_formatN hn hrsvd
    · exact decodes_ill_formed_of_formatO ho hfields
  obtain rfl := encode_of_decode hd
  have hc : checks s i = .reserved := checks_ill_formed s hwf
  have hw : wordChecks s (encode i) = .reserved := (wordChecks_encode s i).trans hc
  refine ⟨?_, i, hd, ?_⟩
  · rw [issue_of_ne hidle (by simp [hw]), hw]
  · rw [exec_of_ne (by simp [hc]), hc]

end Sys2Proof.Machine
end

section
/-! PROOFS. What the completion of a command leaves alone (44_control.md R264, R266): one frame for all fourteen, by the command's write set. -/

namespace Sys2Proof.Machine

/-- A register outside the command's write set keeps its value (R266). -/
theorem effectOf_registers (i : Instr) (s : State) :
    ((writeSet s i).txbLen = false → (effectOf i s).txbLen = s.txbLen)
      ∧ ((writeSet s i).txsLen = false → (effectOf i s).txsLen = s.txsLen)
      ∧ ((writeSet s i).rxsLen = false → (effectOf i s).rxsLen = s.rxsLen)
      ∧ ((writeSet s i).rxbLen = false → (effectOf i s).rxbLen = s.rxbLen)
      ∧ ((writeSet s i).snr = false → (effectOf i s).snr = s.snr)
      ∧ ((writeSet s i).rng = false → (effectOf i s).rng = s.rng)
      ∧ ((writeSet s i).errcnt = false → (effectOf i s).errcnt = s.errcnt)
      ∧ ((writeSet s i).bitcnt = false → (effectOf i s).bitcnt = s.bitcnt)
      ∧ ((writeSet s i).lastcnt = false → (effectOf i s).lastcnt = s.lastcnt)
      ∧ ((writeSet s i).ber = false → (effectOf i s).ber = s.ber)
      ∧ ((writeSet s i).nscale = false → (effectOf i s).nscale = s.nscale) := by
  cases i <;> simp [writeSet, effectOf, genbitsEffect, genNoiseEffect, modBpskEffect, modQpskEffect, demodBpskEffect,
    demodQpskEffect, convEbnoEffect, addNoiseEffect, bypassEffect, countErrEffect, berCalcEffect]

/-- A bit beyond the command's write set keeps its value (R266). -/
theorem bit_effectOf (i : Instr) (s : State) (b : BitBuf) {j : Nat} (hj : (writeSet s i).bits b ≤ j) :
    (effectOf i s).bit b j = s.bit b j := by
  obtain ⟨-, -, -, -, -, -, -, -, -, -, hepoch⟩ := effectOf_frame i s
  rcases effectOf_mem i s with ⟨b', vs, hm, hlen, -, -⟩ | ⟨b', zs, hm, -⟩ | hm
  · rw [bit_of_putBits (s := s) hm (by rw [hepoch, putBits_epoch]) rfl, if_neg]
    rintro ⟨rfl, hlt⟩
    omega
  · rw [bit_congr hm (by rw [hepoch, putSyms_epoch]), bit_putSyms]
  · exact bit_congr hm hepoch b j

/-- A storage word beyond the command's write set keeps its value (R266). -/
theorem symWord_effectOf (i : Instr) (s : State) (b : SymBuf) {j : Nat} (hj : 4 * (writeSet s i).syms b ≤ j) :
    (effectOf i s).symWord b j = s.symWord b j := by
  obtain ⟨-, -, -, -, -, -, -, -, -, -, hepoch⟩ := effectOf_frame i s
  rcases effectOf_mem i s with ⟨b', vs, hm, -⟩ | ⟨b', zs, hm, hlen, -, -⟩ | hm
  · rw [symWord_congr hm (by rw [hepoch, putBits_epoch]), symWord_putBits]
  · rw [symWord_congr hm (by rw [hepoch, putSyms_epoch]), symWord_putSyms_of_le]
    rintro rfl
    omega
  · exact symWord_congr hm hepoch b j

/-- A completion stays inside the command's write set: the frame of every command, said once. -/
theorem sameExcept_complete_effectOf (i : Instr) (s : State) : SameExcept (writeSet s i) s (effectOf i s).complete := by
  obtain ⟨hcfg, hirqEn, hphase, hebno, hseed, hcur, hinReset, hinputs, hresp, -, hepoch⟩ := effectOf_frame i s
  obtain ⟨htxbLen, htxsLen, hrxsLen, hrxbLen, hsnr, hrng, herrcnt, hbitcnt, hlastcnt, hber, hnscale⟩ :=
    effectOf_registers i s
  exact {
    cfg := hcfg, irqEn := hirqEn, txbLen := htxbLen, txsLen := htxsLen, rxsLen := hrxsLen, rxbLen := hrxbLen
    phase := hphase, snr := hsnr, ebno := hebno, seed := hseed, rng := hrng, errcnt := herrcnt, bitcnt := hbitcnt
    lastcnt := hlastcnt, ber := hber, nscale := hnscale, cur := hcur, inReset := hinReset, inputs := hinputs
    resp := hresp, epoch := hepoch
    bit := fun b _ hj => (bit_complete _ b _).trans (bit_effectOf i s b hj)
    word := fun b _ hj => (symWord_complete _ b _).trans (symWord_effectOf i s b hj) }

end Sys2Proof.Machine
end

section
/-! PROOFS. The random source (40_random.md R140 to R142, R148, R151, R152): what moves rng_state, the generator in natural numbers, GENBITS and GEN_NOISE. -/

namespace Sys2Proof.Machine

/-! What moves rng_state (R140). -/

/-- The opcodes of SEED, GENBITS, GEN_NOISE and ADD_NOISE, the commands that move rng_state (R140, R148). -/
def randomOpcodes : List Byte := [0x01#8, 0x02#8, 0x03#8, 0x21#8]

/-- The random commands are those with rng_state in their write set (44_control.md R266). -/
theorem writeSet_rng_iff (i : Instr) (s : State) : (writeSet s i).rng = true ↔ i.opcode ∈ randomOpcodes := by
  cases i <;> simp [writeSet, Instr.opcode, randomOpcodes]

/-- A command that moves rng_state is a random command. -/
theorem exec_rng {i : Instr} {s t : State} (h : exec i s = .next t) (hne : t.rng ≠ s.rng) :
    i.opcode ∈ randomOpcodes := by
  rw [← writeSet_rng_iff i s]
  rcases exec_cases h with ⟨-, rfl⟩ | ⟨-, rfl⟩
  · by_contra hws
    exact hne ((sameExcept_complete_effectOf i s).rng (by simpa using hws))
  · exact absurd (reject_rng _ _ _) hne

/-- The engine moves rng_state only by completing a random command. -/
theorem engineTurn_rng {s t : State} (h : engineTurn s = .next t) (hne : t.rng ≠ s.rng) :
    s.status.busy = true ∧ opcodeField s.cur ∈ randomOpcodes := by
  rcases engineTurn_cases h with ⟨-, rfl⟩ | ⟨-, hb, i, hd, he⟩
  · exact absurd rfl hne
  · obtain ⟨hopc, -⟩ := fields_of_decode hd
    exact ⟨hb, hopc ▸ exec_rng he hne⟩

/-- A soft reset moves rng_state only by abandoning a random command (R343). -/
theorem softReset_rng {s : State} (hne : s.softReset.rng ≠ s.rng) :
    s.status.busy = true ∧ opcodeField s.cur ∈ randomOpcodes := by
  unfold State.softReset at hne
  split at hne
  · rename_i hb
    refine ⟨hb, ?_⟩
    rw [clearRegisters_rng, abandon_rng] at hne
    have hws : (runningWriteSet s).rng = true := by
      by_contra h
      exact hne (if_neg h)
    rw [runningWriteSet, if_pos hb] at hws
    split at hws
    · rename_i i hd
      obtain ⟨hopc, -⟩ := fields_of_decode hd
      exact hopc ▸ (writeSet_rng_iff i s).mp hws
    · cases hws
  · exact absurd (clearRegisters_rng s) hne

theorem issue_rng (s : State) (w : Word) : (s.issue w).rng = s.rng := by
  rcases issue_cases s w with ⟨-, e⟩ | ⟨-, -, e⟩ | ⟨-, -, e⟩ <;> rw [e]
  · exact reject_rng _ _ _
  · exact accept_rng _ _
  · exact reject_rng _ _ _

/-- A write that reaches its target leaves rng_state alone, unless it is a soft reset. -/
theorem writeTarget_rng_cases (s : State) (v : Word) (tgt : Target) :
    (s.writeTarget v tgt).rng = s.rng
      ∨ tgt = .reg .ctrl ∧ v.getLsbD 0 = true ∧ s.writeTarget v tgt = s.softReset := by
  cases tgt with
  | bitWord b j => exact .inl (putBits_rng s b _ _)
  | symWord b j => exact .inl (putWords_rng s b _ _)
  | reserved => exact .inl rfl
  | reg r =>
    cases r
    case ctrl =>
      by_cases hv : v.getLsbD 0 = true
      · exact .inr ⟨rfl, hv, by rw [State.writeTarget, State.writeReg, if_pos hv]⟩
      · exact .inl (by rw [State.writeTarget, State.writeReg, if_neg hv])
    case cmd => exact .inl (issue_rng s v)
    all_goals exact .inl rfl

/-- A transaction moves rng_state only as the soft reset that abandons a random command. -/
theorem transact_rng {s : State} {tr : Transaction} (hne : (s.transact tr).rng ≠ s.rng) :
    s.status.busy = true ∧ opcodeField s.cur ∈ randomOpcodes
      ∧ ∃ v, tr = .write 4 (s.cfg.base + 0x010) v ∧ v.getLsbD 0 = true := by
  rcases transact_write_cases s tr with ⟨r, d, e, -⟩ | ⟨off, v, htr, e⟩
  · exact absurd (by rw [e]) hne
  rcases hostWrite_cases s (targetAt s.cfg off) v with hw | ⟨-, hw⟩ <;> rw [hw] at e
  · exact absurd (by rw [e]; rfl) hne
  rcases writeTarget_rng_cases s v (targetAt s.cfg off) with h | ⟨htgt, hv, hreset⟩
  · exact absurd (by rw [e]; exact h) hne
  · obtain rfl := eq_regOffset_of_targetAt htgt
    rw [e, hreset] at hne
    obtain ⟨hb, hopc⟩ := softReset_rng hne
    exact ⟨hb, hopc, v, htr, hv⟩

/-- Settles O20: of the events a step takes, the engine's turn and a transaction move rng_state only for a random command in CUR, and the assertion of the reset input does not move it. -/
theorem onlyRandomCommandsMoveTheGenerator : Obligations.OnlyRandomCommandsMoveTheGenerator := by
  intro s t hstep hne
  rcases step_event_cases hstep with ⟨hnext, h⟩ | ⟨tr, hin, rfl⟩ | ⟨-, rfl⟩ | ⟨hin, -⟩
  · obtain ⟨hb, hopc⟩ := engineTurn_rng h hne
    exact .inr ⟨hb, hopc, .inl hnext⟩
  · obtain ⟨hb, hopc, v, rfl, hv⟩ := transact_rng hne
    exact .inr ⟨hb, hopc, .inr ⟨v, hin, hv⟩⟩
  · exact absurd rfl hne
  · exact .inl hin

/-! The generator (R141). -/

/-- The rule's example from 0 (R141). -/
theorem rngNext_zero : rngNext 0#64 = (0xE220A8397B1DCDAF#64, 0x9E3779B97F4A7C15#64) := by decide

/-- The four lines of R141, each modulo 2^64. -/
theorem rngNext_toNat (r : BitVec 64) : ∃ z0 z1 z2 : Nat,
    z0 = (r.toNat + 0x9E3779B97F4A7C15) % 2 ^ 64
    ∧ z1 = ((z0 ^^^ (z0 / 2 ^ 30)) * 0xBF58476D1CE4E5B9) % 2 ^ 64
    ∧ z2 = ((z1 ^^^ (z1 / 2 ^ 27)) * 0x94D049BB133111EB) % 2 ^ 64
    ∧ (rngNext r).2.toNat = z0 ∧ (rngNext r).1.toNat = z2 ^^^ (z2 / 2 ^ 31) := by
  have hshift (z : BitVec 64) (k : Nat) : (z ^^^ z >>> k).toNat = z.toNat ^^^ z.toNat / 2 ^ k := by
    rw [BitVec.toNat_xor, BitVec.toNat_ushiftRight, Nat.shiftRight_eq_div_pow]
  refine ⟨_, _, _, rfl, rfl, rfl, ?_, ?_⟩
  · rw [rngNext, BitVec.toNat_add]
    rfl
  · rw [rngNext, hshift, BitVec.toNat_mul, hshift, BitVec.toNat_mul, hshift, BitVec.toNat_add]
    rfl

/-- Settles O37: each of the generator's mixing lines is read off in natural numbers; the example is evaluated. -/
theorem generatorIsSplitMix64 : Obligations.GeneratorIsSplitMix64 := ⟨rngNext_zero, rngNext_toNat⟩

/-! GENBITS (R151). -/

/-- A length register holds any COUNT (R114). -/
theorem toNat_ofNat_countOf (count : BitVec 24) : (BitVec.ofNat 32 (countOf count)).toNat = count.toNat := by
  rw [BitVec.toNat_ofNat, countOf]
  omega

/-- Each bit GENBITS writes is bit 63 of its own generator word (R142, R148). -/
theorem bit_genbitsEffect (s : State) {n i : Nat} (hi : i < n) :
    (genbitsEffect n s).bit .txb i = (rngNext (rngAfter i s.rng)).1.getLsbD 63 := by
  obtain ⟨-, hwords⟩ := rngBits_spec n s.rng
  rw [bit_of_putBits (t := genbitsEffect n s) (u := s.putBits .txb 0 (rngBits n s.rng).1) rfl
    (by simp [genbitsEffect]) rfl, rngBits_length, if_pos ⟨rfl, hi⟩, hwords i hi, Option.getD_some]

/-- Settles O23: the range check passes, the bits and the state left are those of rngBits_spec, and the write set is the frame. -/
theorem genbitsDrawsOneWordPerBit : Obligations.GenbitsDrawsOneWordPerBit := by
  intro s count hcount
  have hc : checks s (.genbits count) = .none :=
    checks_none_iff.mpr ⟨rfl, by simpa [commandChecks, countOf] using hcount⟩
  obtain ⟨hrng, -⟩ := rngBits_spec count.toNat s.rng
  refine ⟨_, exec_of_none hc, fun i hi => ?_, toNat_ofNat_countOf count, hrng, ?_,
    sameExcept_complete_effectOf (.genbits count) s⟩
  · exact (bit_complete _ _ _).trans (bit_genbitsEffect s hi)
  · simp [effectOf, genbitsEffect, Status.completed]

/-! GEN_NOISE (R152). -/

/-- What GEN_NOISE and ADD_NOISE leave in RXS: the symbols of their list. -/
theorem sym_receive (s : State) {zs : List Symbol} (n : Nat) (scale : F64) (r : BitVec 64) {k : Nat} {z : Symbol}
    (hz : zs[k]? = .some z) : (s.receive zs n scale r).sym .rxs k = z := by
  obtain ⟨hk, -⟩ := List.getElem?_eq_some_iff.mp hz
  rw [sym_of_putSyms (t := s.receive zs n scale r) (u := s.putSyms .rxs zs) rfl (by simp) rfl, if_pos ⟨rfl, hk⟩, hz,
    Option.getD_some]

theorem symNonFinite_iff (z : Symbol) : symNonFinite z = true ↔ fIsFinite z.1 = false ∨ fIsFinite z.2 = false := by
  simp [symNonFinite, nonFinite]

/-- NUMERR after GEN_NOISE and ADD_NOISE: it stood set, or NSCALE or a written component is not finite (60_exceptions.md R310). -/
theorem receive_numerr (s : State) {zs : List Symbol} {n : Nat} (hlen : zs.length = n) (scale : F64) (r : BitVec 64) :
    (s.receive zs n scale r).status.numerr = true ↔ s.status.numerr = true ∨ fIsFinite scale = false
      ∨ ∃ k < n, fIsFinite ((s.receive zs n scale r).sym .rxs k).1 = false
          ∨ fIsFinite ((s.receive zs n scale r).sym .rxs k).2 = false := by
  subst hlen
  have hany : zs.any symNonFinite = true
      ↔ ∃ k < zs.length, symNonFinite ((s.receive zs zs.length scale r).sym .rxs k) = true := by
    rw [List.any_eq_true]
    constructor
    · rintro ⟨z, hz, hbad⟩
      obtain ⟨k, hk⟩ := List.mem_iff_getElem?.mp hz
      obtain ⟨hlt, -⟩ := List.getElem?_eq_some_iff.mp hk
      exact ⟨k, hlt, by rwa [sym_receive s _ scale r hk]⟩
    · rintro ⟨k, hlt, hbad⟩
      rw [sym_receive s _ scale r (List.getElem?_eq_getElem hlt)] at hbad
      exact ⟨_, List.getElem_mem hlt, hbad⟩
  simp only [← symNonFinite_iff, ← hany]
  simp [nonFinite, or_comm]

/-- Element k of a command that takes a pair for each element takes the pair 2k calls on (R148). -/
theorem getElem?_mapFrom_gaussPairs {β : Type} (f : Nat → Symbol → β) (nan : Nat → Nat → F64) {n k : Nat}
    (r : BitVec 64) (hk : k < n) :
    (mapFrom f 0 (gaussPairs nan n 0 r).1)[k]? = .some (f k (gaussPair (nan k) (rngAfter (2 * k) r)).1) := by
  obtain ⟨-, hpairs⟩ := gaussPairs_spec nan n 0 r
  rw [mapFrom_getElem?, hpairs k hk, Option.map_some, Nat.zero_add]

/-- Settles O24: the range check passes, the pairs and the state left are those of gaussPairs_spec, RXS and NUMERR those of State.receive, and the write set is the frame. -/
theorem genNoiseWritesScaledPairs : Obligations.GenNoiseWritesScaledPairs := by
  intro s count hcount
  have hc : checks s (.genNoise count) = .none :=
    checks_none_iff.mpr ⟨rfl, by simpa [commandChecks, countOf] using hcount⟩
  obtain ⟨hrng, -⟩ := gaussPairs_spec s.nan count.toNat 0 s.rng
  refine ⟨_, exec_of_none hc, rfl, fun k hk => ?_, toNat_ofNat_countOf count, hrng, ?_, ?_,
    sameExcept_complete_effectOf (.genNoise count) s⟩
  · exact (sym_complete _ _ _).trans (sym_receive s _ _ _ (getElem?_mapFrom_gaussPairs _ s.nan s.rng hk))
  · exact receive_numerr s (by rw [mapFrom_length, gaussPairs_length, countOf]) _ (rngAfter (2 * count.toNat) s.rng)
  · simp [effectOf, genNoiseEffect, Status.completedNum]

end Sys2Proof.Machine
end

section
/-! PROOFS. The Gaussian synthesizer (40_random.md R143 to R147): its uniform values are exact, and its radius and products never overflow. -/

namespace Sys2Proof.Machine

/-! The order of magnitudes (00_scope.md R9). -/

theorem fExp_eq_fMag (x : F64) : fExp x = fMag x / 2 ^ 52 := by
  unfold fExp fMag
  omega

theorem fFrac_eq_fMag (x : F64) : fFrac x = fMag x % 2 ^ 52 := by
  unfold fFrac fMag
  omega

theorem fMag_of_fSign_false {x : F64} (h : fSign x = false) : fMag x = x.toNat := by
  rw [fSign, ← Bool.not_eq_true, Nat.ble_eq] at h
  exact Nat.mod_eq_of_lt (not_le.mp h)

theorem fLsb_eq (x : F64) : fLsb x = ((max (fExp x) 1 : ℕ) : ℤ) - 1075 := rfl

theorem fExp_le_of_finite {x : F64} (h : fIsFinite x = true) : fExp x ≤ 2046 := by
  have hlt : fExp x < 2048 := Nat.mod_lt _ (by norm_num)
  have hne : fExp x ≠ 2047 := by simpa [fIsFinite] using h
  omega

theorem abs_fVal (x : F64) : |fVal x| = fSig x * 2 ^ fLsb x := by
  rw [fVal_eq, abs_signFactor_mul _ (by positivity)]

theorem fVal_of_fSign_false {x : F64} (h : fSign x = false) : fVal x = |fVal x| := by
  rw [abs_fVal, fVal_eq, h, signFactor, if_neg (by decide), one_mul]

/-- A greater magnitude of the same unit has the greater significand; one of a greater unit is at least 2^52 of its units, and the lesser is below 2^53 of half that unit. -/
theorem abs_fVal_lt_of_fMag_lt {x y : F64} (h : fMag x < fMag y) : |fVal x| < |fVal y| := by
  have hexp := fExp_eq_fMag x
  have hfrac := fFrac_eq_fMag x
  have hexp' := fExp_eq_fMag y
  have hfrac' := fFrac_eq_fMag y
  have hlsbx := fLsb_eq x
  have hlsby := fLsb_eq y
  rw [abs_fVal, abs_fVal]
  by_cases hlsb : fLsb x = fLsb y
  · have hsig : fSig x < fSig y := by
      unfold fSig
      simp only [beq_iff_eq]
      split_ifs <;> omega
    rw [hlsb]
    gcongr
  · obtain ⟨hx53, hxlo, -⟩ := fSig_bounds x
    obtain ⟨-, -, hy52⟩ := fSig_bounds y
    have hlt : fLsb x + 1 ≤ fLsb y := by omega
    have hsigx : (fSig x : ℚ) < 2 ^ 53 := by exact_mod_cast hx53
    have hsigy : (2 : ℚ) ^ 52 ≤ fSig y := by exact_mod_cast hy52 (by omega)
    calc (fSig x : ℚ) * 2 ^ fLsb x < 2 ^ 53 * 2 ^ fLsb x := by gcongr
      _ = 2 ^ 52 * 2 ^ (fLsb x + 1) := by rw [zpow_add_one₀ (by norm_num)]; ring
      _ ≤ 2 ^ 52 * 2 ^ fLsb y := by gcongr; norm_num
      _ ≤ fSig y * 2 ^ fLsb y := by gcongr

/-- The magnitudes encodings stand for are ordered as their bits 62:0 (00_scope.md R9). -/
theorem abs_fVal_le_iff {x y : F64} : |fVal x| ≤ |fVal y| ↔ fMag x ≤ fMag y := by
  constructor
  · intro h
    by_contra hlt
    exact absurd (abs_fVal_lt_of_fMag_lt (not_le.mp hlt)) (not_lt.mpr h)
  · intro h
    rcases h.lt_or_eq with hlt | heq
    · exact (abs_fVal_lt_of_fMag_lt hlt).le
    · simp only [abs_fVal, fLsb_eq, fSig, fExp_eq_fMag, fFrac_eq_fMag, heq, le_refl]

theorem abs_fVal_cONE : |fVal cONE| = 1 := by
  rw [abs_fVal, show fSig cONE = 2 ^ 52 by decide, show fLsb cONE = -52 by decide]
  norm_num

theorem abs_fVal_cTWO_M53 : |fVal cTWO_M53| = 1 / 2 ^ 53 := by
  rw [abs_fVal, show fSig cTWO_M53 = 2 ^ 52 by decide, show fLsb cTWO_M53 = -105 by decide]
  norm_num

/-- No finite value reaches the threshold of overflow. -/
theorem abs_fVal_lt_threshold {x : F64} (hx : fIsFinite x = true) : |fVal x| < 2 ^ 1024 - 2 ^ 970 := by
  have hexp := fExp_le_of_finite hx
  have hlsb := fLsb_eq x
  obtain ⟨hsig, -⟩ := fSig_bounds x
  have hsig' : (fSig x : ℚ) ≤ 2 ^ 53 - 1 := by
    rw [le_sub_iff_add_le]
    exact_mod_cast hsig
  have hunit : (2 : ℚ) ^ fLsb x ≤ 2 ^ (971 : ℤ) := zpow_le_zpow_right₀ (by norm_num) (by omega)
  have hpow : (2 : ℚ) ^ 970 < 2 ^ 971 := pow_lt_pow_right₀ (by norm_num) (by norm_num)
  calc |fVal x| = fSig x * 2 ^ fLsb x := abs_fVal x
    _ ≤ (2 ^ 53 - 1) * 2 ^ (971 : ℤ) := mul_le_mul hsig' hunit (by positivity) (by norm_num)
    _ = 2 ^ 1024 - 2 ^ 971 := by rw [show (971 : ℤ) = (971 : ℕ) from rfl, zpow_natCast, sub_one_mul, ← pow_add]
    _ < 2 ^ 1024 - 2 ^ 970 := sub_lt_sub_left hpow _

/-! Products and square roots that stay finite. -/

theorem fMul_finite_of_lt (nan : F64) {a b : F64} (ha : fIsFinite a = true) (hb : fIsFinite b = true)
    (h : |fVal a * fVal b| < 2 ^ 1024 - 2 ^ 970) :
    fIsFinite (fMul nan a b) = true ∧ RoundsTo (fMul nan a b) (fVal a * fVal b) := by
  have hround := isRounded_fMul nan ha hb
  rwa [IsRounded, if_pos h] at hround

/-- A product that is a binary64 value is that value. -/
theorem fMul_exact (nan : F64) {a b y : F64} (ha : fIsFinite a = true) (hb : fIsFinite b = true)
    (hy : fIsFinite y = true) (hval : fVal y = fVal a * fVal b) :
    fIsFinite (fMul nan a b) = true ∧ fVal (fMul nan a b) = fVal a * fVal b := by
  obtain ⟨hfin, hnear⟩ := fMul_finite_of_lt nan ha hb (hval ▸ abs_fVal_lt_threshold hy)
  exact ⟨hfin, hnear.eq_of_finite hy hval⟩

/-- A factor in [-1, 1] makes no overflow. -/
theorem fMul_finite_of_abs_le_one (nan : F64) {a b : F64} (ha : fIsFinite a = true) (hb : fIsFinite b = true)
    (h : |fVal b| ≤ 1) : fIsFinite (fMul nan a b) = true := by
  have hle : |fVal a * fVal b| ≤ |fVal a| := by
    rw [abs_mul]
    exact mul_le_of_le_one_right (abs_nonneg _) h
  exact (fMul_finite_of_lt nan ha hb (hle.trans_lt (abs_fVal_lt_threshold ha))).1

theorem fSign_fMul (nan : F64) {a b : F64} (ha : fIsFinite a = true) (hb : fIsFinite b = true) :
    fSign (fMul nan a b) = (fSign a != fSign b) := by
  rw [fMul_of_finite nan ha hb, fSign_fRound]

theorem fIsZero_fZero (s : Bool) : fIsZero (fZero s) = true := by
  cases s <;> rfl

theorem fIsZero_fMul (nan : F64) {a b : F64} (ha : fIsFinite a = true) (hb : fIsFinite b = true)
    (h : fIsZero a = true ∨ fIsZero b = true) : fIsZero (fMul nan a b) = true := by
  have hsig : fSig a * fSig b = 0 := by
    rcases h with h | h <;> simp [(fSig_eq_zero_iff _).mpr h]
  rw [fMul_of_finite nan ha hb, hsig, fRound_zero]
  exact fIsZero_fZero _

theorem fSqrt_of_zero (nan : F64) {x : F64} (h : fIsZero x = true) : fSqrt nan x = x := by
  rcases (fIsZero_iff x).mp h with ⟨rfl, -⟩ | ⟨rfl, -⟩ <;> rfl

theorem fSqrt_finite (nan : F64) {x : F64} (hx : fIsFinite x = true) (hs : fSign x = false ∨ fIsZero x = true) :
    fIsFinite (fSqrt nan x) = true := by
  by_cases h0 : fIsZero x = true
  · rwa [fSqrt_of_zero nan h0]
  · exact (fSqrt_rounds nan hx (hs.resolve_right h0) (by simpa using h0)).1

/-! Exact values: integers up to 2^53, and their multiples by 2^-53. -/

/-- Shifted to its greatest bit, a number up to 2^53 fills a significand (2^53 itself carries into the exponent). -/
theorem exists_normalized {n : Nat} (h0 : n ≠ 0) (hn : n ≤ 2 ^ 53) :
    ∃ d ≤ 52, 2 ^ 52 ≤ n * 2 ^ d ∧ n * 2 ^ d ≤ 2 ^ 53 := by
  rcases hn.lt_or_eq with hlt | rfl
  · have hlog : Nat.log2 n ≤ 52 := Nat.le_of_lt_succ ((Nat.log2_lt h0).mpr hlt)
    obtain ⟨d, hd⟩ := Nat.exists_eq_add_of_le hlog
    refine ⟨d, by omega, ?_, ?_⟩
    · rw [hd, pow_add]
      exact Nat.mul_le_mul_right _ (Nat.log2_self_le h0)
    · rw [show 53 = Nat.log2 n + 1 + d by omega, pow_add]
      exact Nat.mul_le_mul_right _ Nat.lt_log2_self.le
  · exact ⟨0, by norm_num⟩

/-- Numbers up to 2^53 are binary64 values, and so are their multiples by a power of two that is not too small. -/
theorem exists_finite_mul_zpow {n : Nat} (hn : n ≤ 2 ^ 53) {e : ℤ} (hlo : -1022 ≤ e) (hhi : e ≤ 0) :
    ∃ y, fIsFinite y = true ∧ fVal y = n * 2 ^ e := by
  by_cases h0 : n = 0
  · exact ⟨fZero false, rfl, by rw [fVal_fZero, h0, Nat.cast_zero, zero_mul]⟩
  obtain ⟨d, hd, hlow, hhigh⟩ := exists_normalized h0 hn
  obtain ⟨hfin, hval, -⟩ := fPack_value false (t := e - d) (n := n * 2 ^ d) (by omega) hhigh (fun _ => hlow)
    (by unfold fInfMag; omega)
  refine ⟨_, hfin, Rat.cast_injective (α := ℝ) ?_⟩
  rw [hval, zpow_sub₀ (by norm_num), zpow_natCast]
  push_cast
  field_simp

theorem fCvt_exact {n : BitVec 64} (hn : n.toNat ≤ 2 ^ 53) : fVal (fCvt n) = n.toNat := by
  obtain ⟨-, hnear, -⟩ := conversionRoundsToNearest n
  obtain ⟨y, hy, hval⟩ := exists_finite_mul_zpow hn (e := 0) (by norm_num) le_rfl
  exact hnear.eq_of_finite hy (by rw [hval, zpow_zero, mul_one])

/-- The scaling of R143 is exact. -/
theorem fMul_fCvt_cTWO_M53 (nan : F64) {n : BitVec 64} (hn : n.toNat ≤ 2 ^ 53) :
    fIsFinite (fMul nan (fCvt n) cTWO_M53) = true ∧ fSign (fMul nan (fCvt n) cTWO_M53) = false
      ∧ fVal (fMul nan (fCvt n) cTWO_M53) = (n.toNat : ℚ) / 2 ^ 53 := by
  obtain ⟨hcvt, -⟩ := conversionRoundsToNearest n
  have hunit : fVal cTWO_M53 = 1 / 2 ^ 53 := (fVal_of_fSign_false rfl).trans abs_fVal_cTWO_M53
  have hprod : fVal (fCvt n) * fVal cTWO_M53 = n.toNat / 2 ^ 53 := by rw [fCvt_exact hn, hunit, mul_one_div]
  obtain ⟨y, hy, hval⟩ := exists_finite_mul_zpow hn (e := -53) (by norm_num) (by norm_num)
  have hy' : fVal y = fVal (fCvt n) * fVal cTWO_M53 := by
    rw [hval, hprod, zpow_neg, div_eq_mul_inv]
    rfl
  obtain ⟨hfin, hexact⟩ := fMul_exact nan hcvt rfl hy hy'
  refine ⟨hfin, ?_, hexact.trans hprod⟩
  rw [fSign_fMul nan hcvt rfl, fCvt, fSign_fRound]
  rfl

/-! The uniform values u1 and u2 (R143). -/

theorem ushiftRight_11_lt (w : BitVec 64) : (w >>> 11).toNat < 2 ^ 53 := by
  rw [BitVec.toNat_ushiftRight, Nat.shiftRight_eq_div_pow]
  omega

theorem unitOpen_exact (nan : F64) (w : BitVec 64) :
    fIsFinite (unitOpen nan w) = true ∧ fSign (unitOpen nan w) = false
      ∧ fVal (unitOpen nan w) = ((w >>> 11).toNat + 1 : ℚ) / 2 ^ 53 := by
  have hlt := ushiftRight_11_lt w
  have hsucc : (w >>> 11 + 1#64).toNat = (w >>> 11).toNat + 1 := by
    rw [BitVec.toNat_add, BitVec.toNat_ofNat]
    omega
  have h := fMul_fCvt_cTWO_M53 nan (n := w >>> 11 + 1#64) (by omega)
  rwa [hsucc, Nat.cast_add_one] at h

theorem unitHalfOpen_exact (nan : F64) (w : BitVec 64) :
    fIsFinite (unitHalfOpen nan w) = true ∧ fSign (unitHalfOpen nan w) = false
      ∧ fVal (unitHalfOpen nan w) = ((w >>> 11).toNat : ℚ) / 2 ^ 53 :=
  fMul_fCvt_cTWO_M53 nan (ushiftRight_11_lt w).le

/-- u1 is an argument Ln is requested for: its encoding lies between those of 2^-53 and 1.0 (R143, 00_scope.md R18). -/
theorem unitOpen_range (nan : F64) (w : BitVec 64) :
    0x3CA0000000000000 ≤ (unitOpen nan w).toNat ∧ (unitOpen nan w).toNat ≤ 0x3FF0000000000000 := by
  obtain ⟨-, hs, hval⟩ := unitOpen_exact nan w
  have hlt : ((w >>> 11).toNat : ℚ) + 1 ≤ 2 ^ 53 := by exact_mod_cast ushiftRight_11_lt w
  rw [fVal_of_fSign_false hs] at hval
  rw [← fMag_of_fSign_false hs]
  constructor
  · refine abs_fVal_le_iff (x := cTWO_M53).mp ?_
    rw [abs_fVal_cTWO_M53, hval]
    gcongr
    exact le_add_of_nonneg_left (Nat.cast_nonneg _)
  · refine abs_fVal_le_iff (y := cONE).mp ?_
    rw [abs_fVal_cONE, hval]
    exact div_le_one_of_le₀ hlt (by positivity)

theorem unitOpen_eq_one (nan : F64) {w : BitVec 64} (h : w >>> 11 = 0x1FFFFFFFFFFFFF#64) : unitOpen nan w = cONE := by
  have hnan : unitOpen nan w = fMul 0#64 (fCvt (0x1FFFFFFFFFFFFF#64 + 1#64)) cTWO_M53 := by
    rw [unitOpen, h]
    rfl
  rw [hnan]
  decide +kernel

/-- R18 with Ln(1.0) = 0: on [2^-53, 1] Ln is a zero or negative, and not beyond -36.8. -/
theorem mLn_le_zero {x : F64} (hlo : 0x3CA0000000000000 ≤ x.toNat) (hhi : x.toNat ≤ 0x3FF0000000000000) :
    (fSign (mLn x) = true ∨ fIsZero (mLn x) = true) ∧ fMag (mLn x) ≤ 0x4042666666666666 := by
  rcases hhi.lt_or_eq with hlt | heq
  · exact mLn_range hlo hlt
  · obtain rfl : x = cONE := BitVec.eq_of_toNat_eq heq
    exact ⟨.inr rfl, Nat.zero_le _⟩

/-! The polar form of a pair (R144, R145). -/

/-- fl(MTWO * Ln u1), the square of the radius. -/
def gaussRadiusSq (nan : Nat → F64) (w1 : BitVec 64) : F64 := fMul (nan 4) cMTWO (mLn (unitOpen (nan 2) w1))

/-- The radius: sqrt of fl(MTWO * Ln u1). -/
def gaussRadius (nan : Nat → F64) (w1 : BitVec 64) : F64 := fSqrt (nan 5) (gaussRadiusSq nan w1)

/-- The angle: fl(TWO_PI * u2). -/
def gaussAngle (nan : Nat → F64) (w2 : BitVec 64) : F64 := fMul (nan 6) cTWO_PI (unitHalfOpen (nan 3) w2)

/-- A Gaussian pair is its radius times the cosine and the sine of its angle, each product rounded. -/
theorem gaussPair_eq_polar (nan : Nat → F64) (r : BitVec 64) : gaussPair nan r =
    ((fMul (nan 7) (gaussRadius nan (rngNext r).1) (mCos (gaussAngle nan (rngNext (rngNext r).2).1)),
      fMul (nan 8) (gaussRadius nan (rngNext r).1) (mSin (gaussAngle nan (rngNext (rngNext r).2).1))),
      (rngNext (rngNext r).2).2) := rfl

/-- Ln u1 is not positive and far from overflow, so its product with -2 is finite and not negative. -/
theorem gaussRadiusSq_nonneg (nan : Nat → F64) (w : BitVec 64) : fIsFinite (gaussRadiusSq nan w) = true
    ∧ (fSign (gaussRadiusSq nan w) = false ∨ fIsZero (gaussRadiusSq nan w) = true) := by
  obtain ⟨hlo, hhi⟩ := unitOpen_range (nan 2) w
  obtain ⟨hsign, hmag⟩ := mLn_le_zero hlo hhi
  unfold gaussRadiusSq
  generalize mLn (unitOpen (nan 2) w) = l at hsign hmag
  have hl : fIsFinite l = true := finite_of_fMag_lt (hmag.trans_lt (by decide))
  constructor
  · have htwo : |fVal cMTWO| = 2 := by
      rw [abs_fVal, show fSig cMTWO = 2 ^ 52 by decide, show fLsb cMTWO = -51 by decide]
      norm_num
    have hbound : |fVal l| ≤ 2 ^ 6 := by
      calc |fVal l| ≤ |fVal 0x4050000000000000#64| := abs_fVal_le_iff.mpr (hmag.trans (by decide))
        _ = 2 ^ 6 := by
          rw [abs_fVal, show fSig 0x4050000000000000#64 = 2 ^ 52 by decide,
            show fLsb 0x4050000000000000#64 = -46 by decide]
          norm_num
    refine (fMul_finite_of_lt _ rfl hl ?_).1
    calc |fVal cMTWO * fVal l| ≤ 2 * 2 ^ 6 := by rw [abs_mul, htwo]; gcongr
      _ ≤ 2 ^ 970 := by rw [← pow_succ']; exact pow_le_pow_right₀ (by norm_num) (by norm_num)
      _ < 2 ^ 1024 - 2 ^ 970 := pow_970_lt_threshold
  · rcases hsign with hneg | hzero
    · left
      rw [fSign_fMul _ rfl hl, hneg]
      rfl
    · exact .inr (fIsZero_fMul _ rfl hl (.inr hzero))

theorem gaussRadius_finite (nan : Nat → F64) (w : BitVec 64) : fIsFinite (gaussRadius nan w) = true := by
  obtain ⟨hfin, hsign⟩ := gaussRadiusSq_nonneg nan w
  exact fSqrt_finite _ hfin hsign

/-- Ln(1.0) is a zero, and so are its product with -2 and the root of that (R147). -/
theorem gaussRadius_zero (nan : Nat → F64) {w : BitVec 64} (h : w >>> 11 = 0x1FFFFFFFFFFFFF#64) :
    fIsZero (gaussRadius nan w) = true := by
  have hlog : fIsZero (gaussRadiusSq nan w) = true := by
    rw [gaussRadiusSq, unitOpen_eq_one _ h]
    exact fIsZero_fMul _ rfl rfl (.inr rfl)
  rwa [gaussRadius, fSqrt_of_zero _ hlog]

theorem gaussAngle_finite (nan : Nat → F64) (w : BitVec 64) : fIsFinite (gaussAngle nan w) = true := by
  obtain ⟨hfin, hs, hval⟩ := unitHalfOpen_exact (nan 3) w
  have hlt : ((w >>> 11).toNat : ℚ) ≤ 2 ^ 53 := by exact_mod_cast (ushiftRight_11_lt w).le
  refine fMul_finite_of_abs_le_one _ rfl hfin ?_
  rw [← fVal_of_fSign_false hs, hval]
  exact div_le_one_of_le₀ hlt (by positivity)

/-- An encoding of magnitude up to that of 1.0 is a value in [-1, 1]. -/
theorem finite_abs_le_one_of_fMag {x : F64} (h : fMag x ≤ 0x3FF0000000000000) :
    fIsFinite x = true ∧ |fVal x| ≤ 1 :=
  ⟨finite_of_fMag_lt (h.trans_lt (by decide)), abs_fVal_cONE ▸ abs_fVal_le_iff.mpr h⟩

/-- Settles O44: u1 and u2 are exact, the radius and the angle are finite, and Cos and Sin of a finite angle lie in [-1, 1], so neither product overflows; a zero radius makes both zero. -/
theorem gaussPairsAreFinite : Obligations.GaussPairsAreFinite := by
  intro nan r
  obtain ⟨hu1, hs1, hval1⟩ := unitOpen_exact (nan 2) (rngNext r).1
  obtain ⟨hu2, hs2, hval2⟩ := unitHalfOpen_exact (nan 3) (rngNext (rngNext r).2).1
  have hrad := gaussRadius_finite nan (rngNext r).1
  have hth := gaussAngle_finite nan (rngNext (rngNext r).2).1
  obtain ⟨hcos, hcos1⟩ := finite_abs_le_one_of_fMag (fMag_mCos_le hth)
  obtain ⟨hsin, hsin1⟩ := finite_abs_le_one_of_fMag (mSin_range hth).1
  refine ⟨⟨_, _, _, _, hu1, hs1, hval1, hu2, hs2, hval2, rfl, rfl, gaussPair_eq_polar nan r⟩, ?_⟩
  rw [gaussPair_eq_polar]
  refine ⟨fMul_finite_of_abs_le_one _ hrad hcos hcos1, fMul_finite_of_abs_le_one _ hrad hsin hsin1, fun h => ?_⟩
  have hzero := gaussRadius_zero nan h
  exact ⟨fIsZero_fMul _ hrad hcos (.inl hzero), fIsZero_fMul _ hrad hsin (.inl hzero)⟩

end Sys2Proof.Machine
end

section
/-! PROOFS. The modulators and demodulators (41_moddemod.md R170 to R177): the symbols and bits each writes, its length register and its validity check. -/

namespace Sys2Proof.Machine

/-! What a written element reads as. -/

/-- A bit that a command writes reads as its element of the list written. -/
theorem bit_of_getElem? {s t : State} {b : BitBuf} {vs : List Bool} (hm : t.mem = (s.putBits b 0 vs).mem)
    (he : t.epoch = s.epoch) {i : Nat} {v : Bool} (hv : vs[i]? = .some v) : t.bit b i = v := by
  obtain ⟨hi, -⟩ := List.getElem?_eq_some_iff.mp hv
  rw [bit_of_putBits hm (he.trans (putBits_epoch s b 0 vs).symm) rfl, if_pos ⟨rfl, hi⟩, hv, Option.getD_some]

/-- A symbol that a command writes reads as its element of the list written. -/
theorem sym_of_getElem? {s t : State} {b : SymBuf} {zs : List Symbol} (hm : t.mem = (s.putSyms b zs).mem)
    (he : t.epoch = s.epoch) {k : Nat} {z : Symbol} (hz : zs[k]? = .some z) : t.sym b k = z := by
  obtain ⟨hk, -⟩ := List.getElem?_eq_some_iff.mp hz
  rw [sym_of_putSyms hm (he.trans (putSyms_epoch s b zs).symm) rfl, if_pos ⟨rfl, hk⟩, hz, Option.getD_some]

theorem getElem?_map_range {α : Type} (f : Nat → α) {n k : Nat} (hk : k < n) :
    ((List.range n).map f)[k]? = .some (f k) := by
  rw [List.getElem?_map, List.getElem?_range hk, Option.map_some]

/-- A length register that is given back the number it holds. -/
theorem ofNat_lengthOf (w : Word) : BitVec.ofNat 32 (lengthOf w) = w := by
  simp [lengthOf]

/-! neg on the fields of an encoding and on its value (00_scope.md R13). -/

/-- neg flips the sign bit alone (00_scope.md R13). -/
theorem fSign_fNeg (x : F64) : fSign (fNeg x) = !fSign x := by
  obtain ⟨-, -, -, hsign⟩ := comparisonsAndNegation x
  rwa [getLsbD_63_eq_fSign, getLsbD_63_eq_fSign] at hsign

@[simp] theorem fMag_fNeg (x : F64) : fMag (fNeg x) = fMag x := by
  obtain ⟨-, -, hmag, -⟩ := comparisonsAndNegation x
  simpa [fMag, BitVec.extractLsb'_toNat] using congrArg BitVec.toNat hmag

theorem fIsFinite_eq_fMag (x : F64) : fIsFinite x = (fMag x / 2 ^ 52 != 2047) := by
  rw [fIsFinite, fExp_eq_fMag]

@[simp] theorem fIsFinite_fNeg (x : F64) : fIsFinite (fNeg x) = fIsFinite x := by
  rw [fIsFinite_eq_fMag, fIsFinite_eq_fMag, fMag_fNeg]

theorem signFactor_not (s : Bool) : signFactor (!s) = -signFactor s := by
  cases s <;> simp [signFactor]

/-- neg negates the number an encoding stands for. -/
theorem fVal_fNeg (x : F64) : fVal (fNeg x) = -fVal x := by
  rw [fVal_eq, fVal_eq, fSign_fNeg, signFactor_not, neg_mul]
  simp only [fSig, fLsb, fExp_eq_fMag, fFrac_eq_fMag, fMag_fNeg]

theorem fNeg_abs_le_one {x : F64} (h : fIsFinite x = true ∧ |fVal x| ≤ 1) :
    fIsFinite (fNeg x) = true ∧ |fVal (fNeg x)| ≤ 1 := by
  rwa [fIsFinite_fNeg, fVal_fNeg, abs_neg]

/-! MOD_BPSK (R170). -/

theorem checks_modBpsk {s : State} (hbits : s.txbLen.toNat ≤ s.cfg.nbMax) (hsyms : s.txbLen.toNat ≤ s.cfg.nsMax) :
    checks s (.modBpsk 0) = .none :=
  checks_none_iff.mpr ⟨rfl, by simpa [commandChecks, lengthOf] using ⟨hbits, hsyms⟩⟩

theorem sym_modBpskEffect (s : State) {i : Nat} (hi : i < s.txbLen.toNat) :
    (modBpskEffect s).sym .txs i = bpskSymbol (mCos s.phase) (mSin s.phase) (s.bit .txb i) := by
  refine sym_of_getElem? (s := s) rfl rfl ?_
  rw [State.bitsUpTo, List.map_map]
  exact getElem?_map_range _ hi

theorem mCos_not_finite {x : F64} (h : fIsFinite x = false) : fIsQuietNan (mCos x) = true := by
  rw [mCos, if_neg (by simp [h])]
  exact makeQuiet_isQuiet _

theorem mCos_finite {x : F64} (h : fIsFinite x = true) : fIsFinite (mCos x) = true ∧ |fVal (mCos x)| ≤ 1 :=
  finite_abs_le_one_of_fMag (fMag_mCos_le h)

theorem mSin_finite {x : F64} (h : fIsFinite x = true) : fIsFinite (mSin x) = true ∧ |fVal (mSin x)| ≤ 1 :=
  finite_abs_le_one_of_fMag (mSin_range h).1

/-- A BPSK symbol is finite exactly where PHASE is (R170, 60_exceptions.md R310). -/
theorem symNonFinite_bpskSymbol (x : F64) (b : Bool) :
    symNonFinite (bpskSymbol (mCos x) (mSin x) b) = !fIsFinite x := by
  have hneg : symNonFinite (bpskSymbol (mCos x) (mSin x) b) = symNonFinite (mCos x, mSin x) := by
    cases b <;> simp [bpskSymbol, symNonFinite, nonFinite]
  rw [hneg]
  cases h : fIsFinite x
  · simp [symNonFinite, nonFinite, not_finite_of_isQuiet (mCos_not_finite h)]
  · simp [symNonFinite, nonFinite, mCos_finite h, mSin_finite h]

/-- MOD_BPSK finds something not finite exactly if it writes a symbol at a PHASE that is not finite. -/
theorem modBpsk_numeric (s : State) (n : Nat) :
    ((s.bitsUpTo .txb n).map (bpskSymbol (mCos s.phase) (mSin s.phase))).any symNonFinite
      = (decide (0 < n) && !fIsFinite s.phase) := by
  rw [Bool.eq_iff_iff, State.bitsUpTo, List.any_map, List.any_map, List.any_eq_true]
  simp only [Function.comp_apply, symNonFinite_bpskSymbol, List.mem_range, Bool.and_eq_true, decide_eq_true_iff]
  exact ⟨fun ⟨k, hk, h⟩ => ⟨Nat.zero_lt_of_lt hk, h⟩, fun ⟨hn, h⟩ => ⟨0, hn, h⟩⟩

/-- Settles O25: the range checks pass, each symbol is that of its bit, and Cos and Sin are finite exactly where PHASE is. -/
theorem modBpskMapsBits : Obligations.ModBpskMapsBits := by
  intro s hbits hsyms
  refine ⟨_, exec_of_none (checks_modBpsk hbits hsyms), fun i hi => ?_, ofNat_lengthOf s.txbLen, ?_,
    sameExcept_complete_effectOf (.modBpsk 0) s⟩
  · exact (sym_complete _ _ _).trans (sym_modBpskEffect s hi)
  · rw [← modBpsk_numeric]
    simp [effectOf, modBpskEffect, Status.completedNum, lengthOf]

/-! MOD_QPSK (R172, R173). -/

/-- QA is the quotient of 1 and SQRT2, its negative that of -1 (R173). The quotients draw no NaN, so they are evaluated with 0 in its place. -/
theorem qpskComponent_eq (nan : F64) (b : Bool) : qpskComponent nan b = if b = true then fNeg cQA else cQA := by
  have hnan : qpskComponent nan b = qpskComponent 0#64 b := by cases b <;> rfl
  rw [hnan]
  clear hnan nan
  revert b
  decide +kernel

theorem checks_modQpsk {s : State} (hbits : s.txbLen.toNat ≤ s.cfg.nbMax) (heven : s.txbLen.toNat % 2 = 0)
    (hsyms : s.txbLen.toNat / 2 ≤ s.cfg.nsMax) : checks s (.modQpsk 0) = .none :=
  checks_none_iff.mpr ⟨rfl, by simpa [commandChecks, lengthOf] using ⟨hbits, heven, hsyms⟩⟩

theorem sym_modQpskEffect (s : State) {k : Nat} (hk : k < s.txbLen.toNat / 2) : (modQpskEffect s).sym .txs k =
    (if s.bit .txb (2 * k) = true then fNeg cQA else cQA,
      if s.bit .txb (2 * k + 1) = true then fNeg cQA else cQA) := by
  refine (sym_of_getElem? (s := s) rfl rfl (getElem?_map_range s.qpskSymbol hk)).trans ?_
  rw [State.qpskSymbol, qpskComponent_eq, qpskComponent_eq]

theorem txsLen_modQpskEffect (s : State) : (modQpskEffect s).txsLen.toNat = s.txbLen.toNat / 2 := by
  have hlt := s.txbLen.isLt
  rw [modQpskEffect, lengthOf, BitVec.toNat_ofNat]
  omega

/-- Settles O26: the checks pass, and each component is the evaluated quotient of its bit. -/
theorem modQpskMapsPairs : Obligations.ModQpskMapsPairs := by
  intro s hbits heven hsyms
  refine ⟨_, exec_of_none (checks_modQpsk hbits heven hsyms), fun k hk => ?_, txsLen_modQpskEffect s, ?_,
    sameExcept_complete_effectOf (.modQpsk 0) s⟩
  · exact (sym_complete _ _ _).trans (sym_modQpskEffect s hk)
  · simp [effectOf, modQpskEffect, Status.completed]

/-! DEMOD_BPSK (R174). -/

theorem checks_demodBpsk {s : State} (hsyms : s.rxsLen.toNat ≤ s.cfg.nsMax) (hbits : s.rxsLen.toNat ≤ s.cfg.nbMax) :
    checks s (.demodBpsk 0) = .none :=
  checks_none_iff.mpr ⟨rfl, by simpa [commandChecks, lengthOf] using ⟨hsyms, hbits⟩⟩

theorem bit_demodBpskEffect (s : State) {k : Nat} (hk : k < s.rxsLen.toNat) :
    (demodBpskEffect s).bit .rxb k = fGe0 (s.projection k) := by
  refine bit_of_getElem? (s := s) rfl rfl ?_
  rw [List.map_map]
  exact getElem?_map_range _ hk

/-- Settles O27: the range checks pass, and each bit and the validity check read the projection of the symbol. -/
theorem demodBpskDecidesByProjection : Obligations.DemodBpskDecidesByProjection := by
  intro s hsyms hbits
  refine ⟨_, exec_of_none (checks_demodBpsk hsyms hbits), s.projection, fun _ => rfl, fun k hk => ?_,
    ofNat_lengthOf s.rxsLen, ?_, ?_, sameExcept_complete_effectOf (.demodBpsk 0) s⟩
  · exact (bit_complete _ _ _).trans (bit_demodBpskEffect s hk)
  · simp [effectOf, demodBpskEffect, lengthOf]
  · simp [effectOf, demodBpskEffect, Status.completedNum]

/-! DEMOD_QPSK (R176). -/

/-- The bits 2k and 2k+1 of received symbols are the decisions on the components of symbol k. -/
theorem qpskBits_getElem? (zs : List Symbol) (k : Nat) :
    (qpskBits zs)[2 * k]? = (zs[k]?).map (fun z => qpskDecision z.1)
      ∧ (qpskBits zs)[2 * k + 1]? = (zs[k]?).map (fun z => qpskDecision z.2) := by
  induction zs generalizing k with
  | nil => simp [qpskBits]
  | cons z zs ih =>
    cases k with
    | zero => simp [qpskBits]
    | succ k =>
      rw [show 2 * (k + 1) = 2 * k + 2 by omega]
      simpa [qpskBits] using ih k

theorem checks_demodQpsk {s : State} (hsyms : s.rxsLen.toNat ≤ s.cfg.nsMax)
    (hbits : 2 * s.rxsLen.toNat ≤ s.cfg.nbMax) : checks s (.demodQpsk 0) = .none :=
  checks_none_iff.mpr ⟨rfl, by simpa [commandChecks, lengthOf] using ⟨hsyms, hbits⟩⟩

theorem bit_demodQpskEffect (s : State) {k : Nat} (hk : k < s.rxsLen.toNat) :
    (demodQpskEffect s).bit .rxb (2 * k) = !fGt0 (s.sym .rxs k).1
      ∧ (demodQpskEffect s).bit .rxb (2 * k + 1) = !fGt0 (s.sym .rxs k).2 := by
  obtain ⟨hre, him⟩ := qpskBits_getElem? (s.symsUpTo .rxs s.rxsLen.toNat) k
  rw [State.symsUpTo, getElem?_map_range _ hk, Option.map_some] at hre him
  exact ⟨bit_of_getElem? (s := s) rfl rfl hre, bit_of_getElem? (s := s) rfl rfl him⟩

theorem rxbLen_demodQpskEffect {s : State} (h : 2 * s.rxsLen.toNat < 2 ^ 32) :
    (demodQpskEffect s).rxbLen.toNat = 2 * s.rxsLen.toNat := by
  rw [demodQpskEffect, lengthOf, BitVec.toNat_ofNat, Nat.mod_eq_of_lt h]

/-- Legal parameters keep every bit count far inside a length register (00_scope.md R8). -/
theorem nbMax_lt_of_legal {p : Params} (h : p.legal = true) : p.nbMax < 2 ^ 32 := by
  simp only [Params.legal, Bool.and_eq_true, Nat.ble_eq] at h
  omega

/-- Settles O28: the range checks pass, the decisions stand at 2k and 2k+1, and the validity check reads the same symbols. -/
theorem demodQpskDecidesBySigns : Obligations.DemodQpskDecidesBySigns := by
  intro s hsyms hbits hlegal
  refine ⟨_, exec_of_none (checks_demodQpsk hsyms hbits), fun k hk => ?_,
    rxbLen_demodQpskEffect (hbits.trans_lt (nbMax_lt_of_legal hlegal)), ?_, ?_,
    sameExcept_complete_effectOf (.demodQpsk 0) s⟩
  · rw [bit_complete, bit_complete]
    exact bit_demodQpskEffect s hk
  · simp [effectOf, demodQpskEffect, State.symsUpTo, symNan, lengthOf]
  · simp [effectOf, demodQpskEffect, Status.completedNum]

end Sys2Proof.Machine
end

section
/-! PROOFS. The noiseless round trips (41_moddemod.md R175, R177): rounding keeps the sign of a projection, so each bit comes back. -/

namespace Sys2Proof.Machine

/-! BYPASS between modulator and demodulator (42_channel.md R202). -/

theorem checks_bypass {s : State} (h : s.txsLen.toNat ≤ s.cfg.nsMax) : checks s (.bypass 0) = .none :=
  checks_none_iff.mpr ⟨rfl, by simpa [commandChecks, lengthOf] using h⟩

theorem sym_bypassEffect (s : State) {k : Nat} (hk : k < s.txsLen.toNat) :
    (bypassEffect s).sym .rxs k = s.sym .txs k :=
  sym_of_getElem? (s := s) rfl rfl (getElem?_map_range (s.sym .txs) hk)

/-- What a round trip needs of BYPASS: the symbols and their number, and PHASE and the parameters left alone. -/
theorem exec_bypass_copies {s : State} (h : s.txsLen.toNat ≤ s.cfg.nsMax) : ∃ t, exec (.bypass 0) s = .next t
    ∧ (∀ k < s.txsLen.toNat, t.sym .rxs k = s.sym .txs k) ∧ t.rxsLen = s.txsLen ∧ t.phase = s.phase
    ∧ t.cfg = s.cfg := by
  have hframe := sameExcept_complete_effectOf (.bypass 0) s
  exact ⟨_, exec_of_none (checks_bypass h), fun k hk => (sym_complete _ _ _).trans (sym_bypassEffect s hk),
    ofNat_lengthOf s.txsLen, hframe.phase, hframe.cfg⟩

/-! Bounds that rounding keeps (00_scope.md R10). -/

/-- Rounding does not pass a binary64 value above the exact one. -/
theorem RoundsTo.le_of_le {r y : F64} {x : ℚ} (h : RoundsTo r x) (hy : fIsFinite y = true) (hxy : x ≤ fVal y) :
    fVal r ≤ fVal y := by
  obtain ⟨hle, -⟩ := h y hy
  rw [abs_of_nonneg (sub_nonneg.mpr hxy)] at hle
  linarith [le_abs_self (fVal r - x)]

/-- Rounding does not pass a binary64 value below the exact one. -/
theorem RoundsTo.ge_of_ge {r y : F64} {x : ℚ} (h : RoundsTo r x) (hy : fIsFinite y = true) (hxy : fVal y ≤ x) :
    fVal y ≤ fVal r := by
  obtain ⟨hle, -⟩ := h y hy
  rw [abs_of_nonpos (sub_nonpos.mpr hxy)] at hle
  linarith [neg_abs_le (fVal r - x)]

/-- 0 is no nearer than the rounded value, so rounding at most doubles a magnitude. -/
theorem RoundsTo.abs_le {r : F64} {x : ℚ} (h : RoundsTo r x) : |fVal r| ≤ 2 * |x| := by
  obtain ⟨hle, -⟩ := h (fZero false) rfl
  rw [fVal_fZero, zero_sub, abs_neg] at hle
  linarith [abs_sub_abs_le_abs_sub (fVal r) x]

/-- A magnitude up to 4 is far below the threshold of overflow. -/
theorem IsRounded.of_abs_le_four {r : F64} {x : ℚ} (h : IsRounded r x) (hx : |x| ≤ 4) :
    fIsFinite r = true ∧ RoundsTo r x := by
  have hpow : (4 : ℚ) ≤ 2 ^ 970 := by
    rw [show (4 : ℚ) = 2 ^ 2 by norm_num]
    exact pow_le_pow_right₀ (by norm_num) (by norm_num)
  rwa [IsRounded, if_pos ((hx.trans hpow).trans_lt pow_970_lt_threshold)] at h

/-- The product of two values in [-1, 1] rounds to a finite value in [-2, 2]. -/
theorem fMul_of_abs_le_one (nan : F64) {a b : F64} (ha : fIsFinite a = true ∧ |fVal a| ≤ 1)
    (hb : fIsFinite b = true ∧ |fVal b| ≤ 1) : fIsFinite (fMul nan a b) = true
      ∧ RoundsTo (fMul nan a b) (fVal a * fVal b) ∧ |fVal (fMul nan a b)| ≤ 2 := by
  obtain ⟨hafin, ha1⟩ := ha
  obtain ⟨hbfin, hb1⟩ := hb
  have hprod : |fVal a * fVal b| ≤ 1 := by
    rw [abs_mul]
    exact mul_le_one₀ ha1 (abs_nonneg _) hb1
  obtain ⟨hfin, hnear⟩ := (isRounded_fMul nan hafin hbfin).of_abs_le_four (by linarith)
  exact ⟨hfin, hnear, by linarith [hnear.abs_le]⟩

/-- The sum of two values in [-2, 2] rounds to a finite value. -/
theorem fAdd_of_abs_le_two (nan : F64) {a b : F64} (ha : fIsFinite a = true) (hb : fIsFinite b = true)
    (ha2 : |fVal a| ≤ 2) (hb2 : |fVal b| ≤ 2) :
    fIsFinite (fAdd nan a b) = true ∧ RoundsTo (fAdd nan a b) (fVal a + fVal b) :=
  (isRounded_fAdd nan ha hb).of_abs_le_four (by linarith [abs_add_le (fVal a) (fVal b)])

/-- The comparison with 0 of a finite value is that of the number it stands for (00_scope.md R12). -/
theorem fGe0_iff_fVal {x : F64} (h : fIsFinite x = true) : fGe0 x = true ↔ 0 ≤ fVal x := by
  obtain ⟨hnan, -⟩ := not_nan_not_inf_of_finite h
  rw [fVal_eq, fGe0, hnan]
  cases fSign x
  · simp only [signFactor, Bool.not_false, Bool.true_and, Bool.true_or, true_iff, Bool.false_eq_true, if_false, one_mul]
    positivity
  · have hneg : (0 : ℚ) ≤ -1 * (fSig x * 2 ^ fLsb x) ↔ fSig x = 0 := by
      have hunit : (0 : ℚ) < 2 ^ fLsb x := by positivity
      rw [neg_one_mul, neg_nonneg, ← not_lt, mul_pos_iff_of_pos_right hunit, Nat.cast_pos, Nat.pos_iff_ne_zero, not_not]
    simp only [signFactor, if_true, hneg, fSig_eq_zero_iff]
    simp

/-! The projection of a BPSK symbol on its own rotation (R174, R175). -/

/-- The projection of the symbol z on the rotation (c, s), each operation rounded (R174). -/
def projectOnto (nan : Nat → F64) (c s : F64) (z : Symbol) : F64 :=
  fAdd (nan 2) (fMul (nan 0) z.2 s) (fMul (nan 1) z.1 c)

theorem projection_eq_projectOnto (s : State) (k : Nat) :
    s.projection k = projectOnto (s.nan k) (mCos s.phase) (mSin s.phase) (s.sym .rxs k) := rfl

/-- A rounded square is not negative. -/
theorem fMul_self_nonneg (nan : F64) {a : F64} (ha : fIsFinite a = true ∧ |fVal a| ≤ 1) :
    0 ≤ fVal (fMul nan a a) := by
  obtain ⟨-, hnear, -⟩ := fMul_of_abs_le_one nan ha ha
  rw [← fVal_fZero false]
  exact hnear.ge_of_ge rfl (by rw [fVal_fZero]; exact mul_self_nonneg _)

/-- A rounded negative square does not pass a binary64 value above it. -/
theorem fMul_fNeg_self_le (nan : F64) {a y : F64} (ha : fIsFinite a = true ∧ |fVal a| ≤ 1) (hy : fIsFinite y = true)
    (h : -(fVal a * fVal a) ≤ fVal y) : fVal (fMul nan (fNeg a) a) ≤ fVal y := by
  obtain ⟨-, hnear, -⟩ := fMul_of_abs_le_one nan (fNeg_abs_le_one ha) ha
  exact hnear.le_of_le hy (by rwa [fVal_fNeg, neg_mul])

theorem fMul_fNeg_self_nonpos (nan : F64) {a : F64} (ha : fIsFinite a = true ∧ |fVal a| ≤ 1) :
    fVal (fMul nan (fNeg a) a) ≤ 0 := by
  have h := fMul_fNeg_self_le nan (y := fZero false) ha rfl
    (by rw [fVal_fZero]; exact neg_nonpos.mpr (mul_self_nonneg _))
  rwa [fVal_fZero] at h

/-- -1/4, the least square of the joint property of Cos and Sin negated (00_scope.md R17). -/
def minusQuarter : F64 := 0xBFD0000000000000#64

theorem fVal_minusQuarter : fVal minusQuarter = -1 / 4 := by
  rw [fVal_eq, show fSign minusQuarter = true by decide, show fSig minusQuarter = 2 ^ 52 by decide,
    show fLsb minusQuarter = -54 by decide, signFactor]
  norm_num

theorem fMul_fNeg_self_le_minusQuarter (nan : F64) {a : F64} (ha : fIsFinite a = true ∧ |fVal a| ≤ 1)
    (h : 1 / 2 ≤ |fVal a|) : fVal (fMul nan (fNeg a) a) ≤ fVal minusQuarter := by
  refine fMul_fNeg_self_le nan ha rfl ?_
  rw [fVal_minusQuarter, ← abs_mul_abs_self (fVal a)]
  nlinarith

/-- R17's joint property in numbers. -/
theorem half_le_mCos_or_mSin {x : F64} (h : fIsFinite x = true) :
    1 / 2 ≤ |fVal (mCos x)| ∨ 1 / 2 ≤ |fVal (mSin x)| := by
  have hhalf : |fVal 0x3FE0000000000000#64| = 1 / 2 := by
    rw [abs_fVal, show fSig 0x3FE0000000000000#64 = 2 ^ 52 by decide,
      show fLsb 0x3FE0000000000000#64 = -53 by decide]
    norm_num
  obtain ⟨-, hjoint⟩ := mSin_range h
  rw [← hhalf, abs_fVal_le_iff, abs_fVal_le_iff]
  exact hjoint

/-- For bit 1 the projection is a sum of squares, for bit 0 of negated squares, one of which is 1/4 or more; rounding keeps both signs. -/
theorem fGe0_projectOnto_bpskSymbol (nan : Nat → F64) {x : F64} (h : fIsFinite x = true) (b : Bool) :
    fGe0 (projectOnto nan (mCos x) (mSin x) (bpskSymbol (mCos x) (mSin x) b)) = b := by
  have hc := mCos_finite h
  have hs := mSin_finite h
  cases b
  · obtain ⟨hpfin, -, hp2⟩ := fMul_of_abs_le_one (nan 0) (fNeg_abs_le_one hs) hs
    obtain ⟨hqfin, -, hq2⟩ := fMul_of_abs_le_one (nan 1) (fNeg_abs_le_one hc) hc
    obtain ⟨hfin, hnear⟩ := fAdd_of_abs_le_two (nan 2) hpfin hqfin hp2 hq2
    have hp0 := fMul_fNeg_self_nonpos (nan 0) hs
    have hq0 := fMul_fNeg_self_nonpos (nan 1) hc
    have hsum : fVal (fMul (nan 0) (fNeg (mSin x)) (mSin x)) + fVal (fMul (nan 1) (fNeg (mCos x)) (mCos x))
        ≤ fVal minusQuarter := by
      rcases half_le_mCos_or_mSin h with hhalf | hhalf
      · linarith [fMul_fNeg_self_le_minusQuarter (nan 1) hc hhalf]
      · linarith [fMul_fNeg_self_le_minusQuarter (nan 0) hs hhalf]
    have hneg := hnear.le_of_le rfl hsum
    rw [fVal_minusQuarter] at hneg
    rw [← Bool.not_eq_true, projectOnto, bpskSymbol, if_neg (by decide), fGe0_iff_fVal hfin]
    linarith
  · obtain ⟨hpfin, -, hp2⟩ := fMul_of_abs_le_one (nan 0) hs hs
    obtain ⟨hqfin, -, hq2⟩ := fMul_of_abs_le_one (nan 1) hc hc
    obtain ⟨hfin, hnear⟩ := fAdd_of_abs_le_two (nan 2) hpfin hqfin hp2 hq2
    have hp0 := fMul_self_nonneg (nan 0) hs
    have hq0 := fMul_self_nonneg (nan 1) hc
    rw [projectOnto, bpskSymbol, if_pos rfl, fGe0_iff_fVal hfin, ← fVal_fZero false]
    exact hnear.ge_of_ge rfl (by rw [fVal_fZero]; exact add_nonneg hp0 hq0)

/-- At a PHASE that is not finite a projection is the drawn NaN, and its bit is 0 (R175). -/
theorem fGe0_projection_not_finite (s : State) (h : fIsFinite s.phase = false) (k : Nat) :
    fGe0 (s.projection k) = false := by
  have hnan (op : Nat) : fIsNan (s.nan k op) = true := isNan_of_isQuiet (nan_isQuiet s k op)
  have hprod : fMul (s.nan k 1) (s.sym .rxs k).1 (mCos s.phase) = s.nan k 1 := by
    simp [fMul, isNan_of_isQuiet (mCos_not_finite h)]
  have hsum : s.projection k = s.nan k 2 := by
    rw [State.projection, hprod]
    simp [fAdd, hnan]
  rw [hsum, fGe0, hnan, Bool.not_true, Bool.false_and]

/-! The round trips (R175, R177). -/

/-- Settles O35: BYPASS hands DEMOD_BPSK the symbols of MOD_BPSK and the same PHASE, and the projection of a symbol has the sign of its bit, or is a NaN. -/
theorem bpskRoundTrip : Obligations.BpskRoundTrip := by
  intro s hbits hsyms
  obtain ⟨t, hmod, hsym, htlen, -, htframe⟩ := modBpskMapsBits s hbits hsyms
  obtain ⟨u, hbypass, hcopy, hulen, huphase, hucfg⟩ := exec_bypass_copies (s := t) (by rwa [htlen, htframe.cfg])
  have hphase : u.phase = s.phase := huphase.trans htframe.phase
  have hlen : u.rxsLen = s.txbLen := hulen.trans htlen
  have hcfg : u.cfg = s.cfg := hucfg.trans htframe.cfg
  have hchecks := checks_demodBpsk (s := u) (by rwa [hlen, hcfg]) (by rwa [hlen, hcfg])
  have hbit : ∀ i < s.txbLen.toNat, (demodBpskEffect u).complete.bit .rxb i = fGe0 (u.projection i) := fun i hi =>
    (bit_complete _ _ _).trans (bit_demodBpskEffect u (hlen.symm ▸ hi))
  refine ⟨t, u, _, hmod, hbypass, exec_of_none hchecks, (ofNat_lengthOf u.rxsLen).trans hlen,
    fun hfin i hi => ?_, fun hinf i hi => ?_⟩
  · have hrx : u.sym .rxs i = bpskSymbol (mCos s.phase) (mSin s.phase) (s.bit .txb i) :=
      (hcopy i (htlen.symm ▸ hi)).trans (hsym i hi)
    refine (hbit i hi).trans ?_
    rw [projection_eq_projectOnto, hphase, hrx]
    exact fGe0_projectOnto_bpskSymbol _ hfin _
  · exact (hbit i hi).trans (fGe0_projection_not_finite u (hphase ▸ hinf) i)

/-- QA is > 0 and its negative is not, so the decision on a QPSK component is its bit (R176, R177). -/
theorem not_fGt0_qpsk (b : Bool) : (!fGt0 (if b = true then fNeg cQA else cQA)) = b := by
  revert b
  decide

/-- Settles O36: BYPASS hands DEMOD_QPSK the symbols of MOD_QPSK, and each component has the sign of its bit. -/
theorem qpskRoundTrip : Obligations.QpskRoundTrip := by
  intro s heven hbits hsyms
  obtain ⟨t, hmod, hsym, htlen, -, htframe⟩ := modQpskMapsPairs s hbits heven hsyms
  obtain ⟨u, hbypass, hcopy, hulen, -, hucfg⟩ := exec_bypass_copies (s := t) (by rwa [htlen, htframe.cfg])
  have hlen : u.rxsLen.toNat = s.txbLen.toNat / 2 := by rw [hulen, htlen]
  have hcfg : u.cfg = s.cfg := hucfg.trans htframe.cfg
  have hpairs : 2 * u.rxsLen.toNat = s.txbLen.toNat := by omega
  have hchecks := checks_demodQpsk (s := u) (by rwa [hlen, hcfg]) (by rwa [hpairs, hcfg])
  refine ⟨t, u, _, hmod, hbypass, exec_of_none hchecks, ?_, fun i hi => ?_⟩
  · refine BitVec.eq_of_toNat_eq ((rxbLen_demodQpskEffect ?_).trans hpairs)
    rw [hpairs]
    exact s.txbLen.isLt
  · have hk : i / 2 < s.txbLen.toNat / 2 := by omega
    have hrx := (hcopy (i / 2) (htlen.symm ▸ hk)).trans (hsym (i / 2) hk)
    obtain ⟨hre, him⟩ := bit_demodQpskEffect u (hlen.symm ▸ hk)
    rw [hrx, not_fGt0_qpsk] at hre him
    refine (bit_complete _ _ _).trans ?_
    rcases Nat.mod_two_eq_zero_or_one i with hpar | hpar
    · rwa [show 2 * (i / 2) = i by omega] at hre
    · rwa [show 2 * (i / 2) + 1 = i by omega] at him

end Sys2Proof.Machine
end

section
/-! PROOFS. The channel (42_channel.md R200 to R203): the noise scale and its values, CONV_EBNO, ADD_NOISE and BYPASS. -/

namespace Sys2Proof.Machine

/-! noise_scale (R200). -/

theorem not_nan_of_inf {x : F64} (h : fIsInf x = true) : fIsNan x = false := by
  simp_all [fIsInf, fIsNan]

theorem fIsNan_eq_fMag (x : F64) : fIsNan x = (fMag x / 2 ^ 52 == 2047 && fMag x % 2 ^ 52 != 0) := by
  rw [fIsNan, fExp_eq_fMag, fFrac_eq_fMag]

@[simp] theorem fIsNan_fNeg (x : F64) : fIsNan (fNeg x) = fIsNan x := by
  rw [fIsNan_eq_fMag, fIsNan_eq_fMag, fMag_fNeg]

@[simp] theorem fIsZero_fNeg (x : F64) : fIsZero (fNeg x) = fIsZero x := by
  rw [fIsZero, fIsZero, fMag_fNeg]

/-- Zero over a finite value but 0 is a zero. -/
theorem fDiv_of_zero_left (nan : F64) {a b : F64} (ha : fIsZero a = true) (hb : fIsFinite b = true)
    (hb0 : fIsZero b = false) : fDiv nan a b = fZero (fSign a != fSign b) := by
  have hfin : fIsFinite a = true := finite_of_fMag_lt (by rw [beq_iff_eq.mp ha]; decide)
  rw [fDiv_of_finite nan hfin hb hb0, (fSig_eq_zero_iff a).mpr ha, Nat.zero_mul, Nat.zero_div, Nat.zero_mod]
  rfl

/-- An infinity over a finite value is an infinity. -/
theorem fDiv_of_inf_left (nan : F64) {a b : F64} (ha : fIsInf a = true) (hb : fIsFinite b = true) :
    fDiv nan a b = fInf (fSign a != fSign b) := by
  obtain ⟨hnb, hib⟩ := not_nan_not_inf_of_finite hb
  simp [fDiv, ha, hnb, hib, not_nan_of_inf ha]

/-- A quotient of a NaN is the NaN drawn for it (00_scope.md R11). -/
theorem fDiv_of_nan_left (nan b : F64) {a : F64} (h : fIsNan a = true) : fDiv nan a b = nan := by
  simp [fDiv, h]

theorem mPow10_of_zero {x : F64} (h : fIsZero x = true) : mPow10 x = cONE := by
  rcases (fIsZero_iff x).mp h with ⟨rfl, -⟩ | ⟨rfl, -⟩ <;> rfl

theorem mPow10_of_nan {x : F64} (h : fIsNan x = true) : fIsQuietNan (mPow10 x) = true := by
  rw [mPow10, if_pos h]
  exact makeQuiet_isQuiet _

/-- A zero SNR has a zero exponent, of the other sign; Pow10 of either zero is 1.0 (R200, 00_scope.md R19). -/
theorem noiseScale_of_zero (nan : Nat → F64) {x : F64} (h : fIsZero x = true) : noiseScale nan x = cQA := by
  have hexponent : fIsZero (fDiv (nan 0) (fNeg x) cTWENTY) = true := by
    rw [fDiv_of_zero_left _ (by rwa [fIsZero_fNeg]) rfl rfl]
    exact fIsZero_fZero _
  obtain ⟨-, hquotient, -⟩ := namedConstants_eval (nan 1)
  rw [noiseScale, mPow10_of_zero hexponent, hquotient]

/-- The exponent of an infinity is the other infinity. -/
theorem noiseScale_exponent_of_inf (nan : F64) (s : Bool) : fDiv nan (fNeg (fInf s)) cTWENTY = fInf (!s) := by
  rw [fDiv_of_inf_left nan (by cases s <;> decide) rfl]
  cases s <;> decide

/-- At +inf the exponent is -inf, its power +0, and the quotient +0 (R200). -/
theorem noiseScale_of_pos_inf (nan : Nat → F64) : noiseScale nan (fInf false) = fZero false := by
  have hpow : mPow10 (fInf true) = fZero false := rfl
  have hquotient : fDiv (nan 1) (fZero false) cSQRT2 = fZero false := fDiv_of_zero_left _ rfl rfl rfl
  rw [noiseScale, noiseScale_exponent_of_inf, Bool.not_false, hpow, hquotient]

/-- At -inf the exponent is +inf, and so are its power and the quotient (R200). -/
theorem noiseScale_of_neg_inf (nan : Nat → F64) : noiseScale nan (fInf true) = fInf false := by
  have hpow : mPow10 (fInf false) = fInf false := rfl
  have hquotient : fDiv (nan 1) (fInf false) cSQRT2 = fInf false := fDiv_of_inf_left _ rfl rfl
  rw [noiseScale, noiseScale_exponent_of_inf, Bool.not_true, hpow, hquotient]

/-- A NaN passes through neg, both quotients and Pow10; what is left of it is the NaN of the last quotient. -/
theorem noiseScale_of_nan {nan : Nat → F64} (hnan : fIsNan (nan 0) = true) {x : F64} (h : fIsNan x = true) :
    noiseScale nan x = nan 1 := by
  have hexponent : fDiv (nan 0) (fNeg x) cTWENTY = nan 0 := fDiv_of_nan_left _ _ (by rwa [fIsNan_fNeg])
  rw [noiseScale, hexponent]
  exact fDiv_of_nan_left _ _ (isNan_of_isQuiet (mPow10_of_nan hnan))

/-- Settles O43: the formula is the definition, and each special value is followed through its three operations. -/
theorem noiseScaleValues : Obligations.NoiseScaleValues := fun nan hquiet =>
  ⟨fun _ => rfl, noiseScale_of_zero nan rfl, noiseScale_of_zero nan rfl, noiseScale_of_pos_inf nan,
    noiseScale_of_neg_inf nan, fun _ hx => (noiseScale_of_nan (isNan_of_isQuiet (hquiet 0)) hx).symm ▸ hquiet 1⟩

/-! Adding +0.0 (00_scope.md R10). -/

theorem eq_of_fSign_eq_of_fMag_eq {x y : F64} (hs : fSign x = fSign y) (hm : fMag x = fMag y) : x = y := by
  rw [fSign, fSign, Bool.eq_iff_iff, Nat.ble_eq, Nat.ble_eq] at hs
  refine BitVec.eq_of_toNat_eq ?_
  unfold fMag at hm
  omega

theorem fSign_eq_true_iff {x : F64} (h : fVal x ≠ 0) : fSign x = true ↔ fVal x < 0 := by
  have hpos : 0 < |fVal x| := abs_pos.mpr h
  rw [abs_fVal] at hpos
  rw [fVal_eq, signFactor_mul_neg_iff _ hpos]

/-- No two encodings stand for one number, but for the two zeros (00_scope.md R9). -/
theorem eq_of_fVal_eq {x y : F64} (h : fVal x = fVal y) (h0 : fVal x ≠ 0) : x = y := by
  have habs : |fVal x| = |fVal y| := congrArg abs h
  have hmag : fMag x = fMag y := le_antisymm (abs_fVal_le_iff.mp habs.le) (abs_fVal_le_iff.mp habs.ge)
  refine eq_of_fSign_eq_of_fMag_eq ?_ hmag
  rw [Bool.eq_iff_iff, fSign_eq_true_iff h0, h, ← fSign_eq_true_iff (h ▸ h0)]

theorem fVal_eq_zero_iff (x : F64) : fVal x = 0 ↔ fIsZero x = true := by
  have hunit : (2 : ℚ) ^ fLsb x ≠ 0 := by positivity
  rw [← abs_eq_zero, abs_fVal, mul_eq_zero_iff_right hunit, Nat.cast_eq_zero, fSig_eq_zero_iff]

/-- What is neither a NaN nor finite is an infinity. -/
theorem isInf_of_not_finite {x : F64} (hnan : fIsNan x = false) (hfin : fIsFinite x = false) : fIsInf x = true := by
  simp_all [fIsNan, fIsFinite, fIsInf]

/-- A number but 0 plus +0.0 is itself: the exact sum is a binary64 value. -/
theorem fAdd_zero_of_finite (nan : F64) {x : F64} (hx : fIsFinite x = true) (h0 : fIsZero x = false) :
    fAdd nan x (fZero false) = x := by
  have hval : fVal x ≠ 0 := by rw [Ne, fVal_eq_zero_iff, h0]; decide
  have hround := isRounded_fAdd nan hx (show fIsFinite (fZero false) = true from rfl)
  rw [fVal_fZero, add_zero, IsRounded, if_pos (abs_fVal_lt_threshold hx)] at hround
  obtain ⟨-, hnear⟩ := hround
  exact (eq_of_fVal_eq (hnear.eq_of_finite hx rfl).symm hval).symm

/-- An infinity plus a finite value is itself. -/
theorem fAdd_of_inf_left (nan : F64) {a b : F64} (ha : fIsInf a = true) (hb : fIsFinite b = true) :
    fAdd nan a b = a := by
  obtain ⟨hnb, hib⟩ := not_nan_not_inf_of_finite hb
  simp [fAdd, ha, hnb, hib, not_nan_of_inf ha]

/-- A value plus +0.0 is itself, but for -0.0, which gives +0.0 (R203). -/
theorem fAdd_zero (nan : F64) {x : F64} (hnan : fIsNan x = false) :
    fAdd nan x (fZero false) = if x = 0x8000000000000000#64 then 0#64 else x := by
  cases hfin : fIsFinite x
  · have hinf := isInf_of_not_finite hnan hfin
    rw [fAdd_of_inf_left nan hinf rfl, if_neg]
    rintro rfl
    exact absurd hfin (by decide)
  cases h0 : fIsZero x
  · rw [fAdd_zero_of_finite nan hfin h0, if_neg]
    rintro rfl
    exact absurd h0 (by decide)
  · rcases (fIsZero_iff x).mp h0 with ⟨rfl, -⟩ | ⟨rfl, -⟩ <;> rfl

/-! CONV_EBNO (R203). -/

/-- CONV_EBNO of either order completes and writes the sum to SNR. -/
theorem exec_convEbno (s : State) {ord : BitVec 2} (hord : (Instr.convEbno 0 ord).wf = true) :
    ∃ t, exec (.convEbno 0 ord) s = .next t ∧ t.snr = fAdd (s.nan 0 0) s.ebno (orderConstant ord)
      ∧ t.status = s.status.completedNum (!fIsFinite t.snr) ∧ SameExcept { snr := true } s t :=
  ⟨_, exec_of_none (checks_none_iff.mpr ⟨hord, by simp [commandChecks]⟩), rfl, rfl,
    sameExcept_complete_effectOf (.convEbno 0 ord) s⟩

/-- Settles O29: K1 is +0.0, and adding that changes -0.0 alone. -/
theorem convEbnoAddsTheConstant : Obligations.ConvEbnoAddsTheConstant := by
  intro s
  obtain ⟨t, hexec, hsnr, hstatus, hframe⟩ := exec_convEbno s (ord := 1) rfl
  exact ⟨⟨t, hexec, hsnr, fun hnan => hsnr.trans (fAdd_zero _ hnan), hstatus, hframe⟩, exec_convEbno s (ord := 2) rfl⟩

/-! ADD_NOISE (R201). -/

theorem checks_addNoise {s : State} (h : s.txsLen.toNat ≤ s.cfg.nsMax) : checks s (.addNoise 0) = .none :=
  checks_none_iff.mpr ⟨rfl, by simpa [commandChecks, lengthOf] using h⟩

/-- Settles O30: the range check passes, the pairs and the state left are those of gaussPairs_spec, RXS and NUMERR those of State.receive, and the write set is the frame. -/
theorem addNoiseAddsScaledPairs : Obligations.AddNoiseAddsScaledPairs := by
  intro s hlen
  obtain ⟨hrng, -⟩ := gaussPairs_spec s.nan s.txsLen.toNat 0 s.rng
  refine ⟨_, exec_of_none (checks_addNoise hlen), rfl, fun k hk => ?_, ofNat_lengthOf s.txsLen, hrng, ?_, ?_,
    sameExcept_complete_effectOf (.addNoise 0) s⟩
  · exact (sym_complete _ _ _).trans (sym_receive s _ _ _ (getElem?_mapFrom_gaussPairs _ s.nan s.rng hk))
  · exact receive_numerr s (by rw [mapFrom_length, gaussPairs_length, lengthOf]) _ (rngAfter (2 * s.txsLen.toNat) s.rng)
  · simp [effectOf, addNoiseEffect, Status.completedNum]

/-! BYPASS (R202). -/

/-- Settles O31: the range check passes, the list written is that of the transmitted symbols, and the validity check reads the same list. -/
theorem bypassCopiesSymbols : Obligations.BypassCopiesSymbols := by
  intro s hlen
  refine ⟨_, exec_of_none (checks_bypass hlen), fun k hk => ?_, ofNat_lengthOf s.txsLen, ?_, ?_,
    sameExcept_complete_effectOf (.bypass 0) s⟩
  · exact (sym_complete _ _ _).trans (sym_bypassEffect s hk)
  · simp [effectOf, bypassEffect, State.symsUpTo, symNonFinite_iff, lengthOf]
  · simp [effectOf, bypassEffect, Status.completedNum]

end Sys2Proof.Machine
end

section
/-! PROOFS. The metrics (43_metrics.md R230, R231, R233): the error counter and its accumulators, and the quotient of the counts. -/

namespace Sys2Proof.Machine

/-! COUNT_ERR (R230). -/

theorem checks_countErr {s : State} (hlen : s.txbLen.toNat ≤ s.cfg.nbMax) (heq : s.txbLen = s.rxbLen) :
    checks s (.countErr 0) = .none :=
  checks_none_iff.mpr ⟨rfl, by simpa [commandChecks, lengthOf, ← heq] using hlen⟩

theorem mismatches_eq_card (s : State) (n : Nat) :
    s.mismatches n = ((Finset.range n).filter (fun i => s.bit .txb i ≠ s.bit .rxb i)).card := by
  rw [← Nat.count_eq_card_filter_range, Nat.count, State.mismatches]
  congr 1
  funext i
  rw [Bool.eq_iff_iff, bne_iff_ne, decide_eq_true_iff]

theorem mismatches_le (s : State) (n : Nat) : s.mismatches n ≤ n := by
  simpa [State.mismatches] using List.countP_le_length (l := List.range n)

/-- LASTCNT holds any count of positions below a length. -/
theorem lastcnt_countErrEffect (s : State) : (countErrEffect s).lastcnt.toNat = s.mismatches s.txbLen.toNat :=
  Nat.mod_eq_of_lt ((mismatches_le s _).trans_lt s.txbLen.isLt)

/-- The accumulators wrap modulo 2^64. -/
theorem accumulators_countErrEffect (s : State) :
    (countErrEffect s).errcnt.toNat = (s.errcnt.toNat + s.mismatches s.txbLen.toNat) % 2 ^ 64
      ∧ (countErrEffect s).bitcnt.toNat = (s.bitcnt.toNat + s.txbLen.toNat) % 2 ^ 64 :=
  ⟨BitVec.toNat_ofNat _ _, BitVec.toNat_ofNat _ _⟩

/-- Of STATUS only ACC_OVF may change: it stood set, or an exact sum reaches 2^64 (60_exceptions.md R312). -/
theorem status_countErrEffect (s : State) : (countErrEffect s).status = { s.status with
    accOvf := s.status.accOvf || decide (2 ^ 64 ≤ s.errcnt.toNat + s.mismatches s.txbLen.toNat
      ∨ 2 ^ 64 ≤ s.bitcnt.toNat + s.txbLen.toNat) } := by
  have hsums (a b c : Nat) : (Nat.ble a b || Nat.ble a c) = decide (a ≤ b ∨ a ≤ c) := by
    rw [Bool.eq_iff_iff, Bool.or_eq_true, Nat.ble_eq, Nat.ble_eq, decide_eq_true_iff]
  rw [← hsums]
  rfl

/-- Settles O32: the checks pass at equal lengths within the capacity; the count, the wrapped sums and ACC_OVF are read off the effect, and the write set is the frame. -/
theorem countErrAccumulates : Obligations.CountErrAccumulates := by
  intro s hlen heq
  obtain ⟨herrcnt, hbitcnt⟩ := accumulators_countErrEffect s
  refine ⟨_, exec_of_none (checks_countErr hlen heq), _, mismatches_eq_card s _, lastcnt_countErrEffect s, herrcnt,
    hbitcnt, ?_, sameExcept_complete_effectOf (.countErr 0) s⟩
  rw [effectOf, State.complete, status_countErrEffect]
  rfl

/-- Settles O34: a rejection leaves both counts; where ACC_OVF stays clear neither sum wraps, and there are no more differing positions than positions. -/
theorem errorsNeverExceedBits : Obligations.ErrorsNeverExceedBits := by
  intro s t hle hexec hclear
  rcases exec_cases hexec with ⟨-, rfl⟩ | ⟨-, rfl⟩
  · obtain ⟨herrcnt, hbitcnt⟩ := accumulators_countErrEffect s
    have hcount := mismatches_le s s.txbLen.toNat
    have hflag : (countErrEffect s).status.accOvf = false := hclear
    simp only [status_countErrEffect, Bool.or_eq_false_iff, decide_eq_false_iff_not, not_or, not_le] at hflag
    obtain ⟨-, herr, hbits⟩ := hflag
    rw [Nat.mod_eq_of_lt herr] at herrcnt
    rw [Nat.mod_eq_of_lt hbits] at hbitcnt
    calc (countErrEffect s).errcnt.toNat = s.errcnt.toNat + s.mismatches s.txbLen.toNat := herrcnt
      _ ≤ s.bitcnt.toNat + s.txbLen.toNat := Nat.add_le_add hle hcount
      _ = (countErrEffect s).bitcnt.toNat := hbitcnt.symm
  · rwa [reject_errcnt, reject_bitcnt]

/-! BER_CALC (R231). -/

theorem fSign_fCvt (n : BitVec 64) : fSign (fCvt n) = false := fSign_fRound _ _ _

/-- cvt of a count but 0 is no zero: it is at least 1.0, which rounding does not pass (00_scope.md R15). -/
theorem fIsZero_fCvt_of_ne_zero {n : BitVec 64} (h : n ≠ 0#64) : fIsZero (fCvt n) = false := by
  obtain ⟨-, hnear, -⟩ := conversionRoundsToNearest n
  have hone : fVal cONE = 1 := (fVal_of_fSign_false rfl).trans abs_fVal_cONE
  have hcount : 1 ≤ n.toNat := Nat.one_le_iff_ne_zero.mpr (by simpa [← BitVec.toNat_inj] using h)
  have hval : 1 ≤ fVal (fCvt n) := hone ▸ hnear.ge_of_ge rfl (by rw [hone]; exact_mod_cast hcount)
  rw [← Bool.not_eq_true, ← fVal_eq_zero_iff]
  linarith

/-- A finite value but 0 over a zero is an infinity. -/
theorem fDiv_of_zero_right (nan : F64) {a b : F64} (ha : fIsFinite a = true) (ha0 : fIsZero a = false)
    (hb : fIsZero b = true) : fDiv nan a b = fInf (fSign a != fSign b) := by
  obtain ⟨hna, hia⟩ := not_nan_not_inf_of_finite ha
  obtain ⟨hnb, hib⟩ := not_nan_not_inf_of_finite (finite_of_fMag_lt (y := b) (by rw [beq_iff_eq.mp hb]; decide))
  simp [fDiv, hna, hia, hnb, hib, ha0, hb]

theorem fDiv_fCvt_zero_zero (nan : F64) : fDiv nan (fCvt 0#64) (fCvt 0#64) = nan := rfl

theorem fDiv_fCvt_zero_right (nan : F64) {n : BitVec 64} (h : n ≠ 0#64) :
    fDiv nan (fCvt n) (fCvt 0#64) = fInf false := by
  obtain ⟨hfin, -⟩ := conversionRoundsToNearest n
  rw [fDiv_of_zero_right nan hfin (fIsZero_fCvt_of_ne_zero h) rfl, fSign_fCvt, fSign_fCvt, bne_self_eq_false]

theorem fDiv_fCvt_zero_left (nan : F64) {n : BitVec 64} (h : n ≠ 0#64) :
    fDiv nan (fCvt 0#64) (fCvt n) = 0#64 := by
  obtain ⟨hfin, -⟩ := conversionRoundsToNearest n
  rw [fDiv_of_zero_left nan rfl hfin (fIsZero_fCvt_of_ne_zero h), fSign_fCvt, fSign_fCvt]
  rfl

theorem checks_berCalc (s : State) : checks s (.berCalc 0) = .none :=
  checks_none_iff.mpr ⟨rfl, by simp [commandChecks]⟩

theorem ber_berCalcEffect (s : State) :
    (berCalcEffect s).ber = fDiv (s.nan 0 0) (fCvt s.errcnt) (fCvt s.bitcnt) := rfl

/-- The completion of BER_CALC sets NUMERR where BER is not finite (60_exceptions.md R310). -/
theorem status_berCalcEffect_complete (s : State) :
    (berCalcEffect s).complete.status = s.status.completedNum (!fIsFinite (berCalcEffect s).ber) := rfl

theorem numerr_berCalcEffect_complete {s : State} (h : fIsFinite (berCalcEffect s).ber = false) :
    (berCalcEffect s).complete.status.numerr = true := by
  rw [status_berCalcEffect_complete, Status.completedNum, h, Bool.not_false, Bool.or_true]

/-- Settles O33: no check can fail, and each quotient with a zero count is a special case of the division. -/
theorem berCalcDivides : Obligations.BerCalcDivides := by
  intro s
  refine ⟨_, exec_of_none (checks_berCalc s), rfl, fun herr hbits => ?_, fun herr hbits => ?_, fun herr hbits => ?_, rfl,
    sameExcept_complete_effectOf (.berCalc 0) s⟩
  · have hber : (berCalcEffect s).ber = s.nan 0 0 := by rw [ber_berCalcEffect, herr, hbits, fDiv_fCvt_zero_zero]
    have hquiet : fIsQuietNan (berCalcEffect s).ber = true := hber ▸ nan_isQuiet s 0 0
    exact ⟨hquiet, numerr_berCalcEffect_complete (not_finite_of_isQuiet hquiet)⟩
  · have hber : (berCalcEffect s).ber = fInf false := by rw [ber_berCalcEffect, hbits, fDiv_fCvt_zero_right _ herr]
    exact ⟨hber, numerr_berCalcEffect_complete (hber ▸ rfl)⟩
  · exact (ber_berCalcEffect s).trans (by rw [herr, fDiv_fCvt_zero_left _ hbits])

end Sys2Proof.Machine
end

section
/-! PROOFS. The life of a command (44_control.md R260 to R266): its issue, the engine's turn that runs it, its completion inside the write set, and that no event stops a safe block. -/

namespace Sys2Proof.Machine

/-! The issue (R261). -/

/-- A busy block rejects any word with BUSY (R261). -/
theorem issue_of_busy {s : State} (w : Word) (hb : s.status.busy = true) : s.issue w = s.reject .busy w :=
  if_pos hb

/-- An idle block accepts a word whose checks pass (R261). -/
theorem issue_of_none {s : State} {w : Word} (hidle : s.status.busy = false) (hc : wordChecks s w = .none) :
    s.issue w = s.accept w := by
  rcases issue_cases s w with ⟨hb, -⟩ | ⟨-, -, h⟩ | ⟨-, hne, -⟩
  · exact absurd hb (by simp [hidle])
  · exact h
  · exact absurd hc hne

/-- Of the parameters a command's checks read the two capacities alone, and of the registers the lengths (60_exceptions.md R303). -/
theorem checks_congr_capacities {s t : State} (i : Instr) (hnb : t.cfg.nbMax = s.cfg.nbMax)
    (hns : t.cfg.nsMax = s.cfg.nsMax) (htxb : t.txbLen = s.txbLen) (htxs : t.txsLen = s.txsLen)
    (hrxs : t.rxsLen = s.rxsLen) (hrxb : t.rxbLen = s.rxbLen) : checks t i = checks s i := by
  cases i <;> simp [checks, commandChecks, hnb, hns, htxb, htxs, hrxs, hrxb]

/-- Settles O7: an issue has three branches, the offset is that of CMD, which busy protection does not stop, and the decoder reads the word alone. -/
theorem issueAcceptsOrRejects : Obligations.IssueAcceptsOrRejects := by
  intro s w
  refine ⟨issue_of_busy w, issue_of_ne, issue_of_none, fun hr => write_register_of_open w (r := .cmd) hr (.inr rfl),
    fun t hnb hns htxb htxs hrxs hrxb => ?_⟩
  unfold wordChecks
  split
  · exact checks_congr_capacities _ hnb hns htxb htxs hrxs hrxb
  · rfl

/-! The event a step takes. -/

theorem turned_of_cons {s : State} {e : Event} {es : List Event} (hin : s.inputs = e :: es) :
    s.turned = { s with inputs := es } := by
  rw [State.turned, hin, List.tail_cons]

/-- A step takes the first event (20_memory.md R92). -/
theorem step_of_cons {s : State} {e : Event} {es : List Event} (hin : s.inputs = e :: es) :
    step s = handle e s.turned := by
  rw [turned_of_cons hin, step, hin]

/-- A step is the engine's where the engine has the next turn (R265). -/
theorem step_of_engineNext {s : State} (hnext : s.engineNext = true) : step s = engineTurn s.turned := by
  cases hin : s.inputs with
  | nil =>
    have hturned : s.turned = s := by rw [State.turned, hin, List.tail_nil, ← hin]
    rw [hturned, step, hin]
  | cons e es =>
    obtain rfl : e = .engine := by simpa [State.engineNext, hin] using hnext
    exact step_of_cons hin

/-- Settles O9: the engine's turn runs the command in CUR, and a transaction at the head of the events is performed. -/
theorem stepRunsTheAcceptedCommand : Obligations.StepRunsTheAcceptedCommand := by
  refine ⟨fun s i hnext hr hb hd => ?_, fun s t es hin => ?_⟩
  · rw [step_of_engineNext hnext]
    exact engineTurn_of_busy hr hb hd
  · rw [step_of_cons hin, turned_of_cons hin]
    rfl

theorem decode_tableWord {w : Nat} {i : Instr} (h : decodeTableWord 32 w = .some i) :
    decode (tableWord 32 w) = .ok i := by
  rw [decodeTableWord, decodeBytes_bytesOfWord] at h
  cases hd : decode (tableWord 32 w) with
  | ok j => rw [hd] at h; exact congrArg _ (Option.some.inj h)
  | error e => rw [hd] at h; cases h

/-- Settles O10: the placed word stands in CUR with the engine's turn next, and it is the word of the command it decodes to. -/
theorem stepRunsThePlacedWord : Obligations.StepRunsThePlacedWord := by
  intro s w i h
  have hd := decode_tableWord h
  rw [encode_of_decode hd, step_of_engineNext (s := s.withFetchWord 32 w) rfl]
  exact engineTurn_of_busy (s := (s.withFetchWord 32 w).turned) rfl rfl hd

/-! The completion (R264, R266). -/

/-- Settles O13: the frame of every command is its write set, and an effect sets at most NUMERR and ACC_OVF. -/
theorem completionStaysInTheWriteSet : Obligations.CompletionStaysInTheWriteSet := by
  intro i s hc
  obtain ⟨n, a, hstatus⟩ := effectOf_status i s
  refine ⟨_, exec_of_none hc, sameExcept_complete_effectOf i s, n, a, ?_⟩
  rw [complete_status, hstatus]

/-- Settles O22: the three commands have no check that can fail; the frame is the write set of each. -/
theorem nopSeedAndClrAcc : Obligations.NopSeedAndClrAcc := fun s =>
  ⟨⟨_, exec_of_none (i := .nop 0) rfl, rfl, sameExcept_complete_effectOf (.nop 0) s⟩,
    ⟨_, exec_of_none (i := .seed 0) rfl, rfl, rfl, sameExcept_complete_effectOf (.seed 0) s⟩,
    _, exec_of_none (i := .clrAcc 0) rfl, rfl, rfl, rfl, sameExcept_complete_effectOf (.clrAcc 0) s⟩

/-! A safe block goes on. -/

/-- The engine of a safe busy block completes the command in CUR, because its checks still pass (R263, R264). -/
theorem Inv.engineTurn_completes {s : State} (h : Inv s) (hr : s.inReset = false) (hb : s.status.busy = true) :
    ∃ i, engineTurn s = .next (effectOf i s).complete := by
  obtain ⟨i, hd, hc⟩ := h.runningCommand hb
  exact ⟨i, (engineTurn_of_busy hr hb hd).trans (exec_of_none hc)⟩

/-- An engine that is idle or held in reset does nothing (60_exceptions.md R323, 70_reset_and_hazards.md R340). -/
theorem engineTurn_of_waiting {s : State} (h : s.inReset = true ∨ s.status.busy = false) :
    engineTurn s = .next s :=
  if_pos (by simpa using h)

theorem Inv.engineTurn_next {s : State} (h : Inv s) : ∃ t, engineTurn s = .next t := by
  by_cases hwait : s.inReset = true ∨ s.status.busy = false
  · exact ⟨s, engineTurn_of_waiting hwait⟩
  · obtain ⟨hr, hb⟩ := not_or.mp hwait
    obtain ⟨i, hi⟩ := h.engineTurn_completes (by simpa using hr) (by simpa using hb)
    exact ⟨_, hi⟩

theorem Inv.turned {s : State} (h : Inv s) : Inv s.turned := { h with }

/-- Settles O11: the command in CUR is completed, which sets DONE, clears BUSY and keeps the events to come. -/
theorem acceptedCommandsComplete : Obligations.AcceptedCommandsComplete := by
  intro s h hnext hr hb
  obtain ⟨i, hi⟩ := h.turned.engineTurn_completes hr hb
  exact ⟨_, (step_of_engineNext hnext).trans hi, rfl, rfl, (sameExcept_complete_effectOf i s.turned).inputs⟩

/-- Settles O16: each event but the engine's turn has a next state in every state, and the engine's turn has one in a safe state. -/
theorem safeStatesGoOn : Obligations.SafeStatesGoOn := by
  intro s h
  cases hin : s.inputs with
  | nil =>
    have hnext : s.engineNext = true := by simp [State.engineNext, hin]
    rw [step_of_engineNext hnext]
    exact h.turned.engineTurn_next
  | cons e es =>
    rw [step_of_cons hin]
    cases e with
    | engine => exact h.turned.engineTurn_next
    | bus | assertReset | releaseReset => exact ⟨_, rfl⟩

end Sys2Proof.Machine
end

section
/-! PROOFS. The host while a command runs (44_control.md R262, R263, R266 to R269): busy protection, and the reads of the running command's write set. -/

namespace Sys2Proof.Machine

/-! Transactions that leave the command running (R262, R263, R268). -/

/-- A write that reaches its target while a command runs, and does not abort it, changes STATUS and IRQ_EN alone. -/
theorem writeTarget_running {s : State} (v : Word) {tgt : Target} (hb : s.status.busy = true)
    (hopen : tgt.busyProtected = false) (hstays : (s.writeTarget v tgt).status.busy = true) :
    ∃ st ie, s.writeTarget v tgt = { s with status := st, irqEn := ie } := by
  cases tgt with
  | bitWord | symWord => cases hopen
  | reserved => exact ⟨s.status, s.irqEn, rfl⟩
  | reg r =>
    cases r
    case ctrl =>
      by_cases hv : v.getLsbD 0 = true
      · rw [writeCtrl_status s hv] at hstays
        cases hstays
      · exact ⟨s.status, s.irqEn, if_neg hv⟩
    case cmd => exact ⟨_, s.irqEn, issue_of_busy v hb⟩
    case status => exact ⟨_, s.irqEn, rfl⟩
    case irqEn => exact ⟨s.status, _, rfl⟩
    case txbLen | txsLen | rxsLen | rxbLen | phaseLo | phaseHi | snrLo | snrHi | ebnoLo | ebnoHi | seedLo | seedHi =>
      cases hopen
    all_goals exact ⟨s.status, s.irqEn, rfl⟩

theorem hostWrite_running {s : State} (v : Word) {tgt : Target} (hb : s.status.busy = true)
    (hstays : (s.hostWrite tgt v).status.busy = true) :
    ∃ st ie, s.hostWrite tgt v = { s with status := st, irqEn := ie } := by
  rcases hostWrite_cases s tgt v with h | ⟨hopen, h⟩ <;> rw [h] at hstays ⊢
  · exact ⟨_, s.irqEn, rfl⟩
  · exact writeTarget_running v hb (hopen.resolve_left (by simp [hb])) hstays

/-- Settles O17: a transaction is no write at all, a write that busy protection stops, or one of the few that it lets through. -/
theorem operandsAreFrozenWhileBusy : Obligations.OperandsAreFrozenWhileBusy := by
  intro s t hb hstays
  rcases transact_write_cases s t with ⟨r, d, h, -⟩ | ⟨off, v, -, h⟩
  · rw [h]
  · rw [h] at hstays
    obtain ⟨st, ie, hw⟩ := hostWrite_running v hb hstays
    rw [h, hw]

/-! The busy-protected places (R268). -/

/-- The registers from 0x020 to 0x04C are busy-protected (10_state.md R51, R268). -/
theorem targetAt_protected_register (p : Params) {off : Nat} (hlo : 0x020 ≤ off) (hhi : off < 0x050)
    (h4 : off % 4 = 0) : (targetAt p off).busyProtected = true := by
  have htable : ∀ o < 0x050, 0x020 ≤ o → o % 4 = 0 → (regAt o).any Reg.busyProtected = true := by decide
  obtain ⟨r, hr, hprot⟩ := (Option.any_eq_true _ _).mp (htable off hhi hlo h4)
  rw [← regAt_offset hr, targetAt_regOffset]
  exact hprot

theorem targetAt_bitWord {p : Params} (b : BitBuf) {j : Nat} (hcap : j < p.nbMax / 32) (hj : j < 8192) :
    targetAt p (bitWindow b + 4 * j) = .bitWord b j := by
  rw [targetAt_bitWindow p b hj, bitTarget_of_lt b hcap]

theorem targetAt_symWord {p : Params} (b : SymBuf) {j : Nat} (hcap : j < 4 * p.nsMax) (hj : j < 262144) :
    targetAt p (symWindow b + 4 * j) = .symWord b j := by
  rw [targetAt_symWindow p b hj, symTarget_of_lt b hcap]

/-- The greatest capacities R8 allows, and the packing of bits into whole words. -/
theorem capacities_of_legal {p : Params} (h : p.legal = true) :
    p.nbMax % 32 = 0 ∧ p.nbMax ≤ 262144 ∧ p.nsMax ≤ 65536 := by
  simp only [Params.legal, Bool.and_eq_true, beq_iff_eq, Nat.ble_eq] at h
  obtain ⟨⟨⟨⟨⟨h32, -⟩, hnb⟩, -⟩, hns⟩, -⟩ := h
  exact ⟨h32, hnb, hns⟩

/-- Every aligned offset of a bit window inside the capacity holds a word of the buffer, which is busy-protected (20_memory.md R84, R85). -/
theorem targetAt_protected_bitWindow {p : Params} (hp : p.legal = true) (b : BitBuf) {off : Nat} (h4 : off % 4 = 0)
    (hlo : bitWindow b ≤ off) (hhi : off < bitWindow b + p.nbMax / 8) :
    (targetAt p off).busyProtected = true := by
  obtain ⟨h32, hnb, -⟩ := capacities_of_legal hp
  have hw : bitWindow b % 4 = 0 := bitWindow_add_mod b 0
  obtain ⟨j, rfl⟩ : ∃ j, off = bitWindow b + 4 * j := ⟨(off - bitWindow b) / 4, by omega⟩
  rw [targetAt_bitWord b (by omega) (by omega)]
  rfl

/-- Every aligned offset of a symbol window inside the capacity holds a word of the buffer, which is busy-protected (20_memory.md R86, R87). -/
theorem targetAt_protected_symWindow {p : Params} (hp : p.legal = true) (b : SymBuf) {off : Nat} (h4 : off % 4 = 0)
    (hlo : symWindow b ≤ off) (hhi : off < symWindow b + 16 * p.nsMax) :
    (targetAt p off).busyProtected = true := by
  obtain ⟨-, -, hns⟩ := capacities_of_legal hp
  have hw : symWindow b % 4 = 0 := symWindow_add_mod b 0
  obtain ⟨j, rfl⟩ : ∃ j, off = symWindow b + 4 * j := ⟨(off - symWindow b) / 4, by omega⟩
  rw [targetAt_symWord b (by omega) (by omega)]
  rfl

/-- Settles O52: each of the places is a protected register or a word of a window, whose write busy protection stops. -/
theorem busyProtectedWritesAreIgnored : Obligations.BusyProtectedWritesAreIgnored := by
  intro s off v hr hb hp h4 hplace
  obtain ⟨-, hnb, hns⟩ := capacities_of_legal hp
  have hprot : (targetAt s.cfg off).busyProtected = true := by
    rcases hplace with ⟨hlo, hhi⟩ | ⟨hlo, hhi⟩ | ⟨hlo, hhi⟩ | ⟨hlo, hhi⟩ | ⟨hlo, hhi⟩
    · exact targetAt_protected_register s.cfg hlo hhi h4
    · exact targetAt_protected_bitWindow hp .txb h4 hlo hhi
    · exact targetAt_protected_bitWindow hp .rxb h4 hlo hhi
    · exact targetAt_protected_symWindow hp .txs h4 hlo hhi
    · exact targetAt_protected_symWindow hp .rxs h4 hlo hhi
  rw [write_at v hr (by omega) h4, hostWrite_of_protected v hb hprot]
  rfl

/-! Reads of the write set (R266, R267). -/

/-- A read answers the draw's bits where it draws, the exact bits elsewhere (R267). -/
theorem readValue_getLsbD (s : State) (t : Target) (i : Nat) : (s.readValue t).getLsbD i
    = if (s.drawnBits t).getLsbD i = true then (Config.freeRead s.draws).getLsbD i else (s.exactRead t).getLsbD i := by
  unfold State.readValue
  split
  · rename_i h
    rw [beq_iff_eq.mp h, BitVec.getLsbD_zero, if_neg Bool.false_ne_true]
  · cases hd : (s.drawnBits t).getLsbD i
    · simpa [hd] using BitVec.lt_of_getLsbD
    · simp [hd]

/-- While a command runs, a read draws the bits of its write set (R267). -/
theorem drawnBits_busy {s : State} {w : Instr} (hb : s.status.busy = true) (hd : decode s.cur = .ok w) (t : Target) :
    s.drawnBits t = (writeSet s w).mask t := by
  rw [State.drawnBits, runningWriteSet_busy hb hd]

theorem mask_bitWord (ws : WriteSet) (b : BitBuf) (j : Nat) {i : Nat} (hi : i < 32) :
    (ws.mask (.bitWord b j)).getLsbD i = true ↔ 32 * j + i < ws.bits b := by
  simp [WriteSet.mask, hi, Nat.blt_eq]

theorem mask_symWord (ws : WriteSet) (b : SymBuf) (j : Nat) {i : Nat} (hi : i < 32) :
    (ws.mask (.symWord b j)).getLsbD i = true ↔ j / 4 < ws.syms b := by
  rw [WriteSet.mask, wholeWord_getLsbD _ hi, Nat.blt_eq]

/-- The registers of a write set, by its fields (R266). -/
theorem WriteSet.reg_iff (ws : WriteSet) (r : Reg) : ws.reg r = true ↔
    r = .txbLen ∧ ws.txbLen = true ∨ r = .txsLen ∧ ws.txsLen = true ∨ r = .rxsLen ∧ ws.rxsLen = true
      ∨ r = .rxbLen ∧ ws.rxbLen = true ∨ (r = .snrLo ∨ r = .snrHi) ∧ ws.snr = true
      ∨ (r = .nscaleLo ∨ r = .nscaleHi) ∧ ws.nscale = true ∨ (r = .rngLo ∨ r = .rngHi) ∧ ws.rng = true
      ∨ r = .lastcnt ∧ ws.lastcnt = true ∨ (r = .errcntLo ∨ r = .errcntHi) ∧ ws.errcnt = true
      ∨ (r = .bitcntLo ∨ r = .bitcntHi) ∧ ws.bitcnt = true ∨ (r = .berLo ∨ r = .berHi) ∧ ws.ber = true := by
  cases r <;> simp [WriteSet.reg]

theorem mask_reg (ws : WriteSet) (r : Reg) {i : Nat} (hi : i < 32) :
    (ws.mask (.reg r)).getLsbD i = true ↔ ws.reg r = true := by
  rw [WriteSet.mask, wholeWord_getLsbD _ hi]

/-- Of all exact values STATUS alone tells whether a command runs (R269). -/
theorem exactRead_busy_irrelevant (s : State) {t : Target} (h : t ≠ .reg .status) :
    s.exactRead t = { s with status := { s.status with busy := false } }.exactRead t := by
  cases t with
  | reg r =>
    cases r
    case status => exact absurd rfl h
    all_goals rfl
  | bitWord | symWord | reserved => rfl

/-- Settles O54: a read's bits are split by the mask of the running command's write set; the table of R266 is read off writeSet, command by command, and the offsets off the address map. -/
theorem busyReadsAreExactOutsideTheWriteSet : Obligations.BusyReadsAreExactOutsideTheWriteSet := by
  intro s t i
  refine ⟨readValue_getLsbD s t i, fun hidle => ?_, fun hb w hd hi => ⟨?_, ?_, ?_, ?_⟩, fun off hr hoff h4 => ?_, ?_, ?_,
    fun j hcap hj => ⟨targetAt_bitWord .txb hcap hj, targetAt_bitWord .rxb hcap hj⟩,
    fun j hcap hj => ⟨targetAt_symWord .txs hcap hj, targetAt_symWord .rxs hcap hj⟩⟩
  · rw [drawnBits_idle hidle, BitVec.getLsbD_zero]
  · rintro b j rfl
    rw [drawnBits_busy hb hd, mask_bitWord _ b j hi]
    cases w <;> cases b <;> rfl
  · rintro b j rfl
    rw [drawnBits_busy hb hd, mask_symWord _ b j hi]
    cases w <;> cases b <;> rfl
  · rintro r rfl
    rw [drawnBits_busy hb hd, mask_reg _ r hi, WriteSet.reg_iff]
    cases w <;> simp [writeSet, or_assoc]
  · rintro rfl
    rw [drawnBits_reserved, BitVec.getLsbD_zero]
  · exact ⟨_, read_at hr hoff h4⟩
  · split_ifs with ht
    · rw [ht]
      rfl
    · exact exactRead_busy_irrelevant s ht
  · change ∀ e ∈ registers.map (fun r => (regOffset r, r)), targetAt s.cfg e.1 = .reg e.2
    rw [List.forall_mem_map]
    exact fun r _ => targetAt_regOffset s.cfg r

end Sys2Proof.Machine
end

section
/-! PROOFS. Errors and the interrupt line (60_exceptions.md R301 to R305, R315, R323): the table of checks, the precise rejection, the interrupt output, and the idle engine. -/

namespace Sys2Proof.Machine

/-! The checks (R302, R303). -/

theorem firstFailing_cons (failed : Bool) (code : ErrCode) (rest : List (Bool × ErrCode)) :
    firstFailing ((failed, code) :: rest) = if failed = true then code else firstFailing rest := rfl

/-- The checks of a well-formed command are its own alone (R303). -/
theorem checks_of_wf (s : State) {i : Instr} (h : i.wf = true) :
    checks s i = firstFailing (commandChecks s i) := by
  rw [checks, firstFailing_cons, h]
  rfl

/-- The ODD_LENGTH check reads bit 0 of the length. -/
theorem lengthOf_odd (w : Word) : (lengthOf w % 2 == 1) = w.getLsbD 0 :=
  (Nat.testBit_zero w.toNat).symm

theorem lengthOf_bne_iff (v w : Word) : (lengthOf v != lengthOf w) = true ↔ v ≠ w := by
  rw [bne_iff_ne, lengthOf, lengthOf, ne_eq, BitVec.toNat_inj]

/-- Settles O6: the commands are well formed, and each check of the table is an inequality, a parity or a difference of the operands. -/
theorem checksFollowTheTable : Obligations.ChecksFollowTheTable := by
  intro s
  refine ⟨?noChecks, fun _ => ?_, fun _ => ?_, ?_, ?_, ?_, ?_, ?_, ?_, ?_⟩
  case noChecks =>
    simp only [List.forall_mem_cons]
    exact ⟨rfl, rfl, rfl, rfl, rfl, rfl, List.forall_mem_nil _⟩
  all_goals
    refine (checks_of_wf s rfl).trans ?_
    simp only [commandChecks, firstFailing_cons, exceeds_eq_true, lengthOf_odd, lengthOf_bne_iff]
    rfl

/-! The rejection (R304, R305). -/

/-- The first error is described (R305). -/
theorem reject_of_err_clear {s : State} (code : ErrCode) (w : Word) (herr : s.status.err = false) :
    s.reject code w = { s with status := { s.status with
      err := true, errcode := code.code, errcmd := w.extractLsb' 0 8 } } := by
  rw [State.reject, Status.reject, if_neg (by rw [herr]; decide)]

/-- A further error only sets ERR_OVF (R305). -/
theorem reject_of_err {s : State} (code : ErrCode) (w : Word) (herr : s.status.err = true) :
    s.reject code w = { s with status := { s.status with errOvf := true } } := by
  rw [State.reject, Status.reject, if_pos herr]

/-- Settles O8: the issue of a word with a failing check is the rejection with that check's code, and a rejection changes STATUS alone. -/
theorem rejectionIsPrecise : Obligations.RejectionIsPrecise := by
  intro s w code h
  obtain ⟨e, hissue, rfl⟩ : ∃ e, s.issue w = s.reject e w ∧ code = e.code := by
    rcases h with ⟨hb, rfl⟩ | ⟨hidle, hmem⟩
    · exact ⟨.busy, issue_of_busy w hb, rfl⟩
    · have hcode : wordChecks s w ≠ .none ∧ code = (wordChecks s w).code := by
        revert hmem
        cases wordChecks s w <;> simp [ErrCode.code]
      exact ⟨_, issue_of_ne hidle hcode.1, hcode.2⟩
  rw [hissue]
  exact ⟨reject_of_err_clear e w, reject_of_err e w⟩

/-! The idle engine (R323). -/

/-- Settles O12: the step is the engine's turn, and an idle engine waits. -/
theorem idleEngineWaits : Obligations.IdleEngineWaits := fun s hnext hidle =>
  (step_of_engineNext hnext).trans (engineTurn_of_waiting (s := s.turned) (.inr hidle))

/-! The interrupt line (R315). -/

/-- Settles O57: each flag stands at its bit of the STATUS word, each enable at its bit of IRQ_EN. -/
theorem interruptLine : Obligations.InterruptLine := by
  intro s
  obtain ⟨-, hdone, herr, herrOvf, hnumerr, haccOvf, hwbusy, -⟩ := statusWordLayout s.status
  rw [hdone, herr, herrOvf, hnumerr, haccOvf, hwbusy]
  simp only [State.irq, State.doneIe, State.errIe, State.numIe, Bool.or_eq_true, Bool.and_eq_true, or_assoc]

end Sys2Proof.Machine
end

section
/-! PROOFS. The two resets (70_reset_and_hazards.md R340, R343, 44_control.md R266): what an abandoned command leaves in its write set, and the release of the reset input. -/

namespace Sys2Proof.Machine

/-! The write set of an abandoned command (R343). -/

/-- What a bit reads as where the leading elements of a buffer are given by a function. -/
theorem bit_putBits_range (s : State) (b b' : BitBuf) (f : Nat → Bool) (n k : Nat) :
    (s.putBits b 0 ((List.range n).map f)).bit b' k = if b' = b ∧ k < n then f k else s.bit b' k := by
  simp only [bit_putBits, List.length_map, List.length_range, Nat.zero_le, true_and, Nat.zero_add, Nat.sub_zero]
  exact if_ctx_congr Iff.rfl (fun ⟨_, hk⟩ => by rw [getElem?_map_range f hk, Option.getD_some]) (fun _ => rfl)

/-- What a storage word reads as where the leading words of a buffer are given by a function. -/
theorem symWord_putWords_range (s : State) (b b' : SymBuf) (f : Nat → Word) (n k : Nat) :
    (s.putWords b 0 ((List.range n).map f)).symWord b' k = if b' = b ∧ k < n then f k else s.symWord b' k := by
  simp only [symWord_putWords, List.length_map, List.length_range, Nat.zero_le, true_and, Nat.zero_add, Nat.sub_zero]
  exact if_ctx_congr Iff.rfl (fun ⟨_, hk⟩ => by rw [getElem?_map_range f hk, Option.getD_some]) (fun _ => rfl)

/-- An abandoned command changes the buffers and rng_state alone (R343); a draw is spent. -/
theorem abandon_frame (s : State) (ws : WriteSet) : s.abandon ws = { s with
    mem := (s.abandon ws).mem, draws := s.draws + 1
    rng := if ws.rng = true then Config.freeRng s.draws else s.rng } := by
  rw [State.mk.injEq]
  simp

/-- The bits of the write set are a draw, the others are kept (R343). -/
theorem bit_abandon (s : State) (ws : WriteSet) (b : BitBuf) (k : Nat) :
    (s.abandon ws).bit b k = if k < ws.bits b then Config.freeBit s.draws b k else s.bit b k := by
  refine (bit_congr (t := s.abandon ws) (s := State.putWords _ _ _ _) rfl rfl b k).trans ?_
  rw [bit_putWords, bit_putWords, bit_putBits_range, bit_putBits_range]
  cases b <;> simp only [reduceCtorEq, true_and, false_and, if_false] <;> rfl

/-- The storage words of the write set are a draw, the others are kept (R343). -/
theorem symWord_abandon (s : State) (ws : WriteSet) (b : SymBuf) (k : Nat) :
    (s.abandon ws).symWord b k = if k < 4 * ws.syms b then Config.freeSymWord s.draws b k else s.symWord b k := by
  refine (symWord_congr (t := s.abandon ws) (s := State.putWords _ _ _ _) rfl rfl b k).trans ?_
  rw [symWord_putWords_range, symWord_putWords_range, symWord_putBits, symWord_putBits]
  cases b <;> simp only [reduceCtorEq, true_and, false_and, if_false] <;> rfl

/-- A soft reset while busy abandons the command in CUR (R343). -/
theorem softReset_of_busy {s : State} {i : Instr} (hb : s.status.busy = true) (hd : decode s.cur = .ok i) :
    s.softReset = (s.abandon (writeSet s i)).clearRegisters := by
  rw [State.softReset, if_pos hb, runningWriteSet_busy hb hd]

/-- Settles O59: CTRL is not protected, so the write is the soft reset, which abandons the command and clears the registers; the buffers are those the abandoned command leaves. -/
theorem softResetAbandonsTheCommand : Obligations.SoftResetAbandonsTheCommand := by
  intro s v i hr hv hb hd
  have hwrite := write_register_of_open v (r := .ctrl) hr (.inr rfl)
  rw [State.writeReg, if_pos hv, softReset_of_busy hb hd] at hwrite
  refine ⟨_, hwrite, ?_, fun b k => ?_, fun b k => ?_⟩
  · exact congrArg (fun t : State => { t.clearRegisters with resp := .some ⟨true, 0#32⟩ })
      (abandon_frame s (writeSet s i))
  · exact (bit_congr (s := s.abandon (writeSet s i)) rfl rfl b k).trans (bit_abandon s (writeSet s i) b k)
  · exact (symWord_congr (s := s.abandon (writeSet s i)) rfl rfl b k).trans (symWord_abandon s (writeSet s i) b k)

/-! The reset input (R340). -/

/-- While the reset input is asserted no transaction is answered. -/
theorem transact_of_inReset {s : State} (hr : s.inReset = true) (t : Transaction) :
    s.transact t = { s with resp := .none } :=
  if_pos hr

/-- The release of an asserted reset input is a power-up that keeps the parameters and the events to come. -/
theorem releaseReset_of_inReset {s : State} (hr : s.inReset = true) :
    s.releaseReset = { State.powerUp s.cfg s.draws with inputs := s.inputs } :=
  if_pos hr

/-- Settles O60: a block held in reset answers nothing and its engine waits; the release is a power-up, whose buffers are empty lists, so that each element reads as its draw. -/
theorem hardwareResetDrawsAnew : Obligations.HardwareResetDrawsAnew := by
  intro s hr
  refine ⟨transact_of_inReset hr, fun hnext => ?_, fun es hin => ?_⟩
  · exact (step_of_engineNext hnext).trans (engineTurn_of_waiting (.inl hr))
  · have hstep : step s = .next { State.powerUp s.cfg s.draws with inputs := es } := by
      rw [step_of_cons hin, handle, releaseReset_of_inReset (s := s.turned) hr, turned_of_cons hin]
    refine ⟨_, hstep, rfl, fun b i => ?_, fun b j => ?_, rfl⟩
    · cases b <;> rfl
    · cases b <;> rfl

end Sys2Proof.Machine
end
